-- ==== Sys2Proof/Word.lean ====
section
/-! DEFINITION. Word.lean: the bit-vector types of the block and nothing else.
A bit vector stands only where the spec gives a width to a register, a bus field or a codeword (spec R6, R11 to R22, R65). -/

namespace Sys2Proof

/-- One codeword, or one input byte: "A stored codeword is an 8-bit unsigned value" (R6). -/
abbrev Byte := BitVec 8

/-- The data part of a bus transaction and the word a read returns (R65). -/
abbrev Word := BitVec 32

/-- A word address of the host bus (R49). -/
abbrev Addr := BitVec 16

/-- A 16-bit length, cursor or chain counter (R11, R12, R13, R15, R16). -/
abbrev Count := BitVec 16

/-- One entry of the CTX triplet buffer, "6 bits each" (R21). -/
abbrev CtxValue := BitVec 6

/-- The container a raw encoding is given in: seven bytes, the 49 bits of `HOST` rounded up (R60). -/
abbrev Raw := BitVec 56

end Sys2Proof
end

