-- ==== Sys2Proof/Syntax.lean ====
section
/-! DEFINITION. Syntax.lean: the encoding formats of spec R60, the places of the address map of R49, and `Instr`, with one
constructor for every row of spec/opcode_table.json, in the table's order. -/

namespace Sys2Proof

/-- The formats of R60.
`ediSlot` is one 6-bit slot of `EDI24`, the width the table gives EDI_UNLATCH (log 5). -/
inductive Format where
  | host | cw8 | asciiUs | ctx16 | edi24 | ediSlot | b256H1 | b256H2 | b256D | pad
  deriving DecidableEq, Repr

/-- What one word address of the host bus is (R49). -/
inductive Place where
  | ctrl | target | hint | inLen | status | reason | sizeIdx | outLen | caps | nsizes
  | dbgCursor | dbgScheme | dbgChain | dbgCtx
  | inMem (i : BitVec 12)
  | outMem (i : BitVec 12)
  | unmapped (a : Addr)
  deriving DecidableEq, Repr

/-- One constructor per row of spec/opcode_table.json.
The `HOST` rows are bus transactions (R65, R66): a write carries all of its DATA, a read carries none (its DATA is 0).
The codeword rows are the units the encoder emits (R60, R67 to R75), each with its operand bits as stored in OUT. -/
inductive Instr where
  /-- START: CTRL write with `DATA[0] = 1`; `hi` is `DATA[31:1]` (R100). -/
  | start (hi : BitVec 31)
  /-- WR_CTRL_NOP: CTRL write with `DATA[0] = 0` (R103). -/
  | wrCtrlNop (hi : BitVec 31)
  | wrTarget (data : Word)
  | wrHint (data : Word)
  | wrInLen (data : Word)
  | wrStatus (data : Word)
  | wrReason (data : Word)
  | wrSizeIdx (data : Word)
  | wrOutLen (data : Word)
  | wrCaps (data : Word)
  | wrNsizes (data : Word)
  | wrDbgCursor (data : Word)
  | wrDbgScheme (data : Word)
  | wrDbgChain (data : Word)
  | wrDbgCtx (data : Word)
  | wrInMem (i : BitVec 12) (data : Word)
  | wrOutMem (i : BitVec 12) (data : Word)
  | rdCtrl
  | rdTarget
  | rdHint
  | rdInLen
  | rdStatus
  | rdReason
  | rdSizeIdx
  | rdOutLen
  | rdCaps
  | rdNsizes
  | rdDbgCursor
  | rdDbgScheme
  | rdDbgChain
  | rdDbgCtx
  | rdInMem (i : BitVec 12)
  | rdOutMem (i : BitVec 12)
  | wrUnmapped (a : Addr) (data : Word)
  | rdUnmapped (a : Addr)
  /-- CW_ASCII_CHAR: codeword `c = v + 1`, 1..128 (R132). -/
  | cwAsciiChar (c : Byte)
  /-- CW_PAD_FIRST: 129 (R137). -/
  | cwPadFirst
  /-- CW_DIGIT_PAIR: codeword `c = 10·d1 + d2 + 130`, 130..229 (R131). -/
  | cwDigitPair (c : Byte)
  | cwLatchC40
  | cwLatchBase256
  | cwLatchX12
  | cwLatchText
  | cwLatchEdifact
  /-- CW_UPPER_SHIFT: 235, then `lo = v − 127`, 1..128 (R133). -/
  | cwUpperShift (lo : Byte)
  /-- CTX16_TRIPLET: the pair `P`, 1..64000 (R160). -/
  | ctx16Triplet (p : BitVec 16)
  | ctxUnlatch
  /-- EDI24_QUAD: four 6-bit values (R71, R192). -/
  | edi24Quad (e0 e1 e2 e3 : BitVec 6)
  | ediUnlatch
  /-- B256H1: the stored one-byte header (R73, R228). -/
  | b256H1 (h : Byte)
  /-- B256H2: the stored two-byte header (R73, R228). -/
  | b256H2 (h l : Byte)
  /-- B256D: a stored payload codeword (R74, R224). -/
  | b256D (d : Byte)
  /-- PAD_RANDOM: a later pad, 1..254 (R75, R137). -/
  | padRandom (p : Byte)
  deriving DecidableEq, Repr

end Sys2Proof
end

