-- ==== Sys2Proof/WellFormed.lean ====
section
/-! DEFINITION. WellFormed.lean: the operand ranges that the types of `Instr` do not already give. -/

namespace Sys2Proof

/-- The word addresses the table lists for WR_UNMAPPED and RD_UNMAPPED: every address R49 gives to no register and no RAM
window. -/
def Addr.isUnmapped (a : Addr) : Bool :=
  (0x000A ≤ a.toNat && a.toNat ≤ 0x000F) || (0x0014 ≤ a.toNat && a.toNat ≤ 0x0FFF) || 0x3000 ≤ a.toNat

/-- Operand ranges: R49 (unmapped addresses), R68 (characters, digit pairs, upper shift), R70 (CTX pairs), R75 (pads).
Every other operand fills its field. -/
def Instr.wellFormed : Instr → Bool
  | .wrUnmapped a _ => Addr.isUnmapped a
  | .rdUnmapped a => Addr.isUnmapped a
  | .cwAsciiChar c => 1 ≤ c.toNat && c.toNat ≤ 128
  | .cwDigitPair c => 130 ≤ c.toNat && c.toNat ≤ 229
  | .cwUpperShift lo => 1 ≤ lo.toNat && lo.toNat ≤ 128
  | .ctx16Triplet p => 1 ≤ p.toNat && p.toNat ≤ 64000
  | .padRandom p => 1 ≤ p.toNat && p.toNat ≤ 254
  | .start _ | .wrCtrlNop _ | .wrTarget _ | .wrHint _ | .wrInLen _ | .wrStatus _ | .wrReason _ | .wrSizeIdx _
  | .wrOutLen _ | .wrCaps _ | .wrNsizes _ | .wrDbgCursor _ | .wrDbgScheme _ | .wrDbgChain _ | .wrDbgCtx _
  | .wrInMem _ _ | .wrOutMem _ _ => true
  | .rdCtrl | .rdTarget | .rdHint | .rdInLen | .rdStatus | .rdReason | .rdSizeIdx | .rdOutLen | .rdCaps | .rdNsizes
  | .rdDbgCursor | .rdDbgScheme | .rdDbgChain | .rdDbgCtx | .rdInMem _ | .rdOutMem _ => true
  | .cwPadFirst | .cwLatchC40 | .cwLatchBase256 | .cwLatchX12 | .cwLatchText | .cwLatchEdifact => true
  | .ctxUnlatch | .edi24Quad _ _ _ _ | .ediUnlatch | .b256H1 _ | .b256H2 _ _ | .b256D _ => true

end Sys2Proof
end

