-- ==== Sys2Proof/Decode.lean ====
section
/-! DEFINITION. Decode.lean: the total decoder of spec R60 to R75 over raw words, rejecting by name, and the encoder written from
the same tables.
A raw word is numbered as spec/opcode_table.json numbers it: one number, bit 0 the least significant, so the first codeword of a
two- or three-codeword format is in its top byte. -/

namespace Sys2Proof

/-- Why a raw word is no unit of its format. -/
inductive DecodeError where
  /-- A bit above the format's width is set (R60). -/
  | tooWide
  /-- A CW8 value the block never emits: 0, 232 to 237, 241 to 253, 255, or 235 without its second codeword (R67, R77). -/
  | reservedCodeword
  /-- Not 235 followed by a codeword of 1..128 (R68). -/
  | notUpperShift
  /-- A pair outside 1..64000, whose first codeword would be above 250 or whose value is 0 (R70). -/
  | pairRange
  /-- A 6-bit slot that is not the unlatch value 31 (R71). -/
  | notEdiUnlatch
  /-- A pad value outside 1..254 (R75). -/
  | padRange
  deriving DecidableEq, Repr

/-- The width of each format in bits (R60). -/
def Format.width : Format → Nat
  | .host => 49
  | .cw8 | .b256H1 | .b256D | .pad => 8
  | .asciiUs | .ctx16 | .b256H2 => 16
  | .edi24 => 24
  | .ediSlot => 6

/-! ### The host domain -/

/-- The address map of R49.
IN_MEM and OUT_MEM windows are 4096 addresses each; whether index `i` is mapped in this block depends on IN_CAP and OUT_CAP and
is judged by the meanings. -/
def addressMap (a : Addr) : Place :=
  if a = 0x0000#16 then .ctrl
  else if a = 0x0001#16 then .target
  else if a = 0x0002#16 then .hint
  else if a = 0x0003#16 then .inLen
  else if a = 0x0004#16 then .status
  else if a = 0x0005#16 then .reason
  else if a = 0x0006#16 then .sizeIdx
  else if a = 0x0007#16 then .outLen
  else if a = 0x0008#16 then .caps
  else if a = 0x0009#16 then .nsizes
  else if a = 0x0010#16 then .dbgCursor
  else if a = 0x0011#16 then .dbgScheme
  else if a = 0x0012#16 then .dbgChain
  else if a = 0x0013#16 then .dbgCtx
  else if a.extractLsb' 12 4 = 1#4 then .inMem (a.extractLsb' 0 12)
  else if a.extractLsb' 12 4 = 2#4 then .outMem (a.extractLsb' 0 12)
  else .unmapped a

/-- The word address of each place (R49). -/
def placeAddr : Place → Addr
  | .ctrl => 0x0000#16
  | .target => 0x0001#16
  | .hint => 0x0002#16
  | .inLen => 0x0003#16
  | .status => 0x0004#16
  | .reason => 0x0005#16
  | .sizeIdx => 0x0006#16
  | .outLen => 0x0007#16
  | .caps => 0x0008#16
  | .nsizes => 0x0009#16
  | .dbgCursor => 0x0010#16
  | .dbgScheme => 0x0011#16
  | .dbgChain => 0x0012#16
  | .dbgCtx => 0x0013#16
  | .inMem i => 1#4 ++ i
  | .outMem i => 2#4 ++ i
  | .unmapped a => a

/-- A write of `data` to a place: the write rows of R66 and the ignored writes of R49. -/
def decodeWrite (p : Place) (data : Word) : Instr :=
  match p with
  | .ctrl => if data.getLsbD 0 then .start (data.extractLsb' 1 31) else .wrCtrlNop (data.extractLsb' 1 31)
  | .target => .wrTarget data
  | .hint => .wrHint data
  | .inLen => .wrInLen data
  | .status => .wrStatus data
  | .reason => .wrReason data
  | .sizeIdx => .wrSizeIdx data
  | .outLen => .wrOutLen data
  | .caps => .wrCaps data
  | .nsizes => .wrNsizes data
  | .dbgCursor => .wrDbgCursor data
  | .dbgScheme => .wrDbgScheme data
  | .dbgChain => .wrDbgChain data
  | .dbgCtx => .wrDbgCtx data
  | .inMem i => .wrInMem i data
  | .outMem i => .wrOutMem i data
  | .unmapped a => .wrUnmapped a data

/-- A read of a place: the read rows of R66. -/
def decodeRead : Place → Instr
  | .ctrl => .rdCtrl
  | .target => .rdTarget
  | .hint => .rdHint
  | .inLen => .rdInLen
  | .status => .rdStatus
  | .reason => .rdReason
  | .sizeIdx => .rdSizeIdx
  | .outLen => .rdOutLen
  | .caps => .rdCaps
  | .nsizes => .rdNsizes
  | .dbgCursor => .rdDbgCursor
  | .dbgScheme => .rdDbgScheme
  | .dbgChain => .rdDbgChain
  | .dbgCtx => .rdDbgCtx
  | .inMem i => .rdInMem i
  | .outMem i => .rdOutMem i
  | .unmapped a => .rdUnmapped a

/-- A bus transaction is decoded by `W` and `ADDR` alone (R66), `DATA[0]` telling START from a CTRL write without effect.
The DATA of a read is not looked at (log 10). -/
def decodeHost (t : BitVec 49) : Instr :=
  let place := addressMap (t.extractLsb' 32 16)
  if t.getLsbD 48 then decodeWrite place (t.extractLsb' 0 32) else decodeRead place

/-! ### The codeword domains -/

/-- The one-codeword vocabulary of the ASCII domain (R67), and the CTX unlatch 254, which stands where a pair's first codeword
would (R70). -/
def decodeCw8 (c : Byte) : Except DecodeError Instr :=
  if 1 ≤ c.toNat ∧ c.toNat ≤ 128 then .ok (.cwAsciiChar c)
  else if c = 129#8 then .ok .cwPadFirst
  else if 130 ≤ c.toNat ∧ c.toNat ≤ 229 then .ok (.cwDigitPair c)
  else if c = 230#8 then .ok .cwLatchC40
  else if c = 231#8 then .ok .cwLatchBase256
  else if c = 238#8 then .ok .cwLatchX12
  else if c = 239#8 then .ok .cwLatchText
  else if c = 240#8 then .ok .cwLatchEdifact
  else if c = 254#8 then .ok .ctxUnlatch
  else .error .reservedCodeword

/-- `ASCII_US`: 235, then `v − 127` in 1..128 (R68). -/
def decodeAsciiUs (w : BitVec 16) : Except DecodeError Instr :=
  let lo := w.extractLsb' 0 8
  if w.extractLsb' 8 8 = 235#8 ∧ 1 ≤ lo.toNat ∧ lo.toNat ≤ 128 then .ok (.cwUpperShift lo) else .error .notUpperShift

/-- `CTX16`: `P` in 1..64000 (R70). -/
def decodeCtx16 (p : BitVec 16) : Except DecodeError Instr :=
  if 1 ≤ p.toNat ∧ p.toNat ≤ 64000 then .ok (.ctx16Triplet p) else .error .pairRange

/-- `EDI24`: four 6-bit values, the first in the most significant bits (R71). -/
def decodeEdi24 (w : BitVec 24) : Instr :=
  .edi24Quad (w.extractLsb' 18 6) (w.extractLsb' 12 6) (w.extractLsb' 6 6) (w.extractLsb' 0 6)

/-- `PAD`: a randomized pad is in 1..254 (R75).
The model's choice: the value 129, which R60 also names under `PAD`, is read here as a randomized pad like any other value; the
first pad is the CW8 codeword 129 (log 16). -/
def decodePad (p : Byte) : Except DecodeError Instr :=
  if 1 ≤ p.toNat ∧ p.toNat ≤ 254 then .ok (.padRandom p) else .error .padRange

/-- The decoder: total on any format and any raw word. -/
def decode (f : Format) (w : Raw) : Except DecodeError Instr :=
  if 2 ^ f.width ≤ w.toNat then .error .tooWide
  else
    match f with
    | .host => .ok (decodeHost (w.setWidth 49))
    | .cw8 => decodeCw8 (w.setWidth 8)
    | .asciiUs => decodeAsciiUs (w.setWidth 16)
    | .ctx16 => decodeCtx16 (w.setWidth 16)
    | .edi24 => .ok (decodeEdi24 (w.setWidth 24))
    | .ediSlot => if w = 31#56 then .ok .ediUnlatch else .error .notEdiUnlatch
    | .b256H1 => .ok (.b256H1 (w.setWidth 8))
    | .b256H2 => .ok (.b256H2 (w.extractLsb' 8 8) (w.extractLsb' 0 8))
    | .b256D => .ok (.b256D (w.setWidth 8))
    | .pad => decodePad (w.setWidth 8)

/-! ### The encoder -/

/-- A `HOST` transaction from its fields: `W` bit 48, `ADDR` bits 47:32, `DATA` bits 31:0 (R65). -/
def hostWord (w : BitVec 1) (a : Addr) (data : Word) : BitVec 49 := w ++ a ++ data

/-- A write transaction. -/
def encodeWrite (p : Place) (data : Word) : Raw := (hostWord 1#1 (placeAddr p) data).setWidth 56

/-- A read transaction, whose DATA is 0 (R65). -/
def encodeRead (p : Place) : Raw := (hostWord 0#1 (placeAddr p) 0#32).setWidth 56

/-- The format of each row (the table's format column; EDI_UNLATCH is one slot of `EDI24`). -/
def Instr.format : Instr → Format
  | .start _ | .wrCtrlNop _ | .wrTarget _ | .wrHint _ | .wrInLen _ | .wrStatus _ | .wrReason _ | .wrSizeIdx _
  | .wrOutLen _ | .wrCaps _ | .wrNsizes _ | .wrDbgCursor _ | .wrDbgScheme _ | .wrDbgChain _ | .wrDbgCtx _
  | .wrInMem _ _ | .wrOutMem _ _ => .host
  | .rdCtrl | .rdTarget | .rdHint | .rdInLen | .rdStatus | .rdReason | .rdSizeIdx | .rdOutLen | .rdCaps | .rdNsizes
  | .rdDbgCursor | .rdDbgScheme | .rdDbgChain | .rdDbgCtx | .rdInMem _ | .rdOutMem _ => .host
  | .wrUnmapped _ _ | .rdUnmapped _ => .host
  | .cwAsciiChar _ | .cwPadFirst | .cwDigitPair _ | .cwLatchC40 | .cwLatchBase256 | .cwLatchX12 | .cwLatchText
  | .cwLatchEdifact | .ctxUnlatch => .cw8
  | .cwUpperShift _ => .asciiUs
  | .ctx16Triplet _ => .ctx16
  | .edi24Quad _ _ _ _ => .edi24
  | .ediUnlatch => .ediSlot
  | .b256H1 _ => .b256H1
  | .b256H2 _ _ => .b256H2
  | .b256D _ => .b256D
  | .padRandom _ => .pad

/-- The raw word of an instruction, from the encoding tables of R65 to R75. -/
def encode : Instr → Raw
  | .start hi => encodeWrite .ctrl (hi ++ 1#1)
  | .wrCtrlNop hi => encodeWrite .ctrl (hi ++ 0#1)
  | .wrTarget d => encodeWrite .target d
  | .wrHint d => encodeWrite .hint d
  | .wrInLen d => encodeWrite .inLen d
  | .wrStatus d => encodeWrite .status d
  | .wrReason d => encodeWrite .reason d
  | .wrSizeIdx d => encodeWrite .sizeIdx d
  | .wrOutLen d => encodeWrite .outLen d
  | .wrCaps d => encodeWrite .caps d
  | .wrNsizes d => encodeWrite .nsizes d
  | .wrDbgCursor d => encodeWrite .dbgCursor d
  | .wrDbgScheme d => encodeWrite .dbgScheme d
  | .wrDbgChain d => encodeWrite .dbgChain d
  | .wrDbgCtx d => encodeWrite .dbgCtx d
  | .wrInMem i d => encodeWrite (.inMem i) d
  | .wrOutMem i d => encodeWrite (.outMem i) d
  | .rdCtrl => encodeRead .ctrl
  | .rdTarget => encodeRead .target
  | .rdHint => encodeRead .hint
  | .rdInLen => encodeRead .inLen
  | .rdStatus => encodeRead .status
  | .rdReason => encodeRead .reason
  | .rdSizeIdx => encodeRead .sizeIdx
  | .rdOutLen => encodeRead .outLen
  | .rdCaps => encodeRead .caps
  | .rdNsizes => encodeRead .nsizes
  | .rdDbgCursor => encodeRead .dbgCursor
  | .rdDbgScheme => encodeRead .dbgScheme
  | .rdDbgChain => encodeRead .dbgChain
  | .rdDbgCtx => encodeRead .dbgCtx
  | .rdInMem i => encodeRead (.inMem i)
  | .rdOutMem i => encodeRead (.outMem i)
  | .wrUnmapped a d => encodeWrite (.unmapped a) d
  | .rdUnmapped a => encodeRead (.unmapped a)
  | .cwAsciiChar c => c.setWidth 56
  | .cwPadFirst => 129#56
  | .cwDigitPair c => c.setWidth 56
  | .cwLatchC40 => 230#56
  | .cwLatchBase256 => 231#56
  | .cwLatchX12 => 238#56
  | .cwLatchText => 239#56
  | .cwLatchEdifact => 240#56
  | .cwUpperShift lo => (235#8 ++ lo).setWidth 56
  | .ctx16Triplet p => p.setWidth 56
  | .ctxUnlatch => 254#56
  | .edi24Quad e0 e1 e2 e3 => (e0 ++ e1 ++ e2 ++ e3).setWidth 56
  | .ediUnlatch => 31#56
  | .b256H1 h => h.setWidth 56
  | .b256H2 h l => (h ++ l).setWidth 56
  | .b256D d => d.setWidth 56
  | .padRandom p => p.setWidth 56

/-! ### The host's question about one table word -/

/-- The formats whose width, in whole bytes, is `nbits`, in the order the table first uses them (log 6).
No bit of a codeword tells its format (R76: the domain does), so for a width shared by several formats the first that accepts the
word is taken. -/
def tableFormats (nbits : Nat) : List Format :=
  if nbits = 56 ∨ nbits = 49 then [.host]
  else if nbits = 8 then [.cw8, .b256H1, .b256D, .pad]
  else if nbits = 16 then [.asciiUs, .ctx16, .b256H2]
  else if nbits = 24 then [.edi24]
  else if nbits = 6 then [.ediSlot]
  else []

/-- The first format of the list that accepts the word, with what it decodes to. -/
def firstAccepting (w : Raw) : List Format → Option (Format × Instr)
  | [] => none
  | f :: rest =>
    match decode f w with
    | .ok i => some (f, i)
    | .error _ => firstAccepting w rest

/-- What the decoder reads from a word of `nbits` bits: its format and its instruction. -/
def tableReading (nbits w : Nat) : Option (Format × Instr) :=
  if w < 2 ^ nbits then firstAccepting (BitVec.ofNat 56 w) (tableFormats nbits) else none

/-- The instruction the decoder reads from a word numbered as the opcode table numbers it. -/
def decodeTableWord (nbits w : Nat) : Option Instr := (tableReading nbits w).map (·.2)

end Sys2Proof
end

