-- ==== Sys2Proof/Config.lean ====
section
/-! DEFINITION. Config.lean: what an implementation fixes (spec R5), the fixed constants, and the free values.
The parameters of R5 are arguments of the model: they are a plain record that State carries and no step writes (log 1).
The free values have no body, so no proof can rest on what they are (log 2, log 3). -/

namespace Sys2Proof.Config

/-- The implementation parameters of R5.
`N_SIZES` is the length of `symDw`. -/
structure Params where
  /-- `SYM_DW[s]`, the data codewords of size index `s` (R5, R254). -/
  symDw   : List Nat
  /-- `AUTO_SET`, the size indices the Auto hint may choose from (R5, R255). -/
  autoSet : List Nat
  /-- `IN_CAP`, the depth of the input RAM (R5, R41). -/
  inCap   : Nat
  /-- `OUT_CAP`, the depth of the output RAM (R5, R42). -/
  outCap  : Nat
  /-- `EDI_LO`, the lowest byte the EDIFACT packer accepts (R5, R191). -/
  ediLo   : Nat
  deriving DecidableEq, Repr

/-- `N_SIZES` (R5). -/
def Params.nSizes (p : Params) : Nat := p.symDw.length

/-- What R5 demands of the parameters. -/
abbrev Params.ok (p : Params) : Prop :=
  (1 ≤ p.symDw.length ∧ p.symDw.length ≤ 255) ∧
  (∀ d ∈ p.symDw, 1 ≤ d ∧ d + 1 ≤ p.outCap) ∧
  (p.autoSet ≠ [] ∧ p.autoSet.Pairwise (· < ·) ∧ ∀ i ∈ p.autoSet, i < p.symDw.length) ∧
  (1 ≤ p.inCap ∧ p.inCap ≤ 4096) ∧
  p.outCap ≤ 4096 ∧
  (p.ediLo = 31 ∨ p.ediLo = 32)

/-- The reference table of 93_implementation_defined.md I1: square symbols 0..23, then rectangles 24..29. -/
def referenceSymDw : List Nat :=
  [3, 5, 8, 12, 18, 22, 30, 36, 44, 62] ++ [86, 114, 144, 174, 204, 280, 368, 456, 576, 696] ++
  [816, 1050, 1304, 1558] ++ [5, 10, 16, 22, 32, 49]

/-- The reference parameter values (R5, I1): `AUTO_SET = 0..23`, `IN_CAP = 4096`, `OUT_CAP = 1559`, `EDI_LO = 32`. -/
def reference : Params where
  symDw   := referenceSymDw
  autoSet := List.range 24
  inCap   := 4096
  outCap  := 1559
  ediLo   := 32

/-- `EDI_SCRATCH`, the codewords of the EDIFACT probe buffer (R5, R23). -/
def ediScratch : Nat := 3

/-- The code of the Auto hint, which is also `UNDEF` in SIZE_IDX (R64, R19). -/
def undefCode : BitVec 8 := 0xFF#8

/-- FREE VALUE: the word a read finds where R305 or R42 says the value is unspecified ("a model may return any value").
The argument is the model's counter of such reads (log 2). -/
opaque freeRead : Nat → BitVec 32

/-- FREE VALUE: the byte `IN[i]` holds after the hardware reset numbered by the first argument (R41, R300; log 3). -/
opaque inResetByte : Nat → Nat → BitVec 8

/-- FREE VALUE: the byte `OUT[i]` holds after the hardware reset numbered by the first argument (R42, R300; log 3). -/
opaque outResetByte : Nat → Nat → BitVec 8

end Sys2Proof.Config
end

