-- ==== Sys2Proof/Machine/State.lean ====
section
/-! DEFINITION. Machine/State.lean: everything the spec gives the machine, as plain data (spec R11 to R22, R26, R40 to R42), the
model's own fields (the host's pending steps, the words reads returned, two counters of free draws), the reasons to stop, and
reset (R300). -/

namespace Sys2Proof.Machine

/-- The encodation schemes of R14; the register never holds the codes 6 and 7 (R61). -/
inductive Scheme where
  | ascii | c40 | text | x12 | edifact | base256
  deriving DecidableEq, Repr

/-- The values of the status register (R17, R62); the codes 5 to 7 are never held. -/
inductive Status where
  | idle | encoding | complete | invalid | fatal
  deriving DecidableEq, Repr

/-- The reason codes of R63; "Every other code is never written". -/
inductive Reason where
  | none
  | edifactChar | x12Char | x12Extended | ctxUnlatchBoundary | sizeUndefined | outOverflow | inTooLong | b256TooLong
  | entryScheme | badTarget | badHint | b256Header | sizeMismatch | inputRemains | relatch
  deriving DecidableEq, Repr

/-- One byte RAM: the entries that hold a byte written since the last hardware reset, sorted by address, no repeats (log 3). -/
abbrev Memory := List Host.Cell

/-- One step of the host's schedule (R54): what the world outside the encoder does in that step (log 4). -/
inductive Slot where
  /-- One host bus transaction (R65). -/
  | bus (t : BitVec 49)
  /-- One codeword unit handed to the encoder's emitter; the model's own, no host can do it (log 5). -/
  | codeword (f : Format) (w : Raw)
  /-- The host makes no access; the encoder takes its step, if an encode runs. -/
  | quiet
  /-- A hardware reset (R300; log 13). -/
  | reset
  deriving DecidableEq, Repr

/-- The machine. -/
structure State where
  /-- The parameters of R5, hardwired (CAPS, NSIZES of R26); no step writes them (log 1). -/
  params      : Config.Params
  /-- `target`, 3 bits (R20). -/
  target      : BitVec 3
  /-- `hint`, 8 bits (R20). -/
  hint        : BitVec 8
  /-- `in_len`, 16 bits (R11). -/
  inLen       : Count
  /-- `in_next`, 16 bits, the input cursor (R12). -/
  inNext      : Count
  /-- `out_len`, 16 bits (R13). -/
  outLen      : Count
  /-- `scheme`, 3 bits (R14). -/
  scheme      : Scheme
  /-- `chain_words`, 16 bits (R15). -/
  chainWords  : Count
  /-- `chain_values`, 16 bits (R16). -/
  chainValues : Count
  /-- `status`, 3 bits (R17). -/
  status      : Status
  /-- `reason`, 8 bits (R18). -/
  reason      : Reason
  /-- `size_idx`, 8 bits (R19). -/
  sizeIdx     : BitVec 8
  /-- `ctx_buf[0..3]`, four entries of 6 bits (R21). -/
  ctxBuf      : Vector CtxValue 4
  /-- `ctx_n`, 3 bits (R21). -/
  ctxN        : BitVec 3
  /-- `ctx_lastn`, 3 bits (R21). -/
  ctxLastn    : BitVec 3
  /-- `latched`, 1 bit (R22). -/
  latched     : Bool
  /-- The input RAM `IN` (R41). -/
  inMem       : Memory
  /-- The output RAM `OUT` (R42). -/
  outMem      : Memory
  /-- The model's own: the host's schedule, next step first (R54; log 4). -/
  queue       : List Slot
  /-- The model's own: the words bus reads have returned, newest first (R65; log 4). -/
  returned    : List Word
  /-- The model's own: how many unspecified reads have been answered (R305; log 2). -/
  freeCtr     : Nat
  /-- The model's own: how many hardware resets have drawn fresh RAM bytes (R41, R300; log 3). -/
  draw        : Nat
  deriving DecidableEq, Repr

/-- The faults.
The bus has no error response and the encoder no trap (R49, R270), so the only one is the defect the spec tells a model to stop on. -/
inductive Fault where
  /-- Raised by the encoder's turn when an encode runs on a configuration that START_CHECKS (R101) refuses: TARGET 6 or 7, a HINT
  that names no size, or `in_len > IN_CAP`.
  No rule reaches it (R101, R304); 93_implementation_defined.md I14: "A model that reaches one has a defect: `fault`".
  Safe: the model stops where no rule gives an effect (log 7). -/
  | uncheckedConfiguration
  deriving DecidableEq, Repr

/-- The refusals. -/
inductive Refusal where
  /-- An instruction whose arm has no meaning yet; safe. -/
  | notModelled (mnemonic : String)
  /-- Raised by the step when a pending codeword unit has bits its format never has (R68, R70, R75, R77), or claims the format of a
  bus transaction; safe (log 5). -/
  | reservedCodeword
  deriving DecidableEq, Repr

/-- The hardware reset values of R300, with the reference parameters of R5 and I1 (log 1).
Both RAMs list nothing: each byte is the free byte drawn at reset (log 3). -/
def State.reset : State where
  params      := Config.reference
  target      := 0#3
  hint        := 0xFF#8
  inLen       := 0#16
  inNext      := 0#16
  outLen      := 0#16
  scheme      := .ascii
  chainWords  := 0#16
  chainValues := 0#16
  status      := .idle
  reason      := .none
  sizeIdx     := Config.undefCode
  ctxBuf      := #v[0#6, 0#6, 0#6, 0#6]
  ctxN        := 0#3
  ctxLastn    := 0#3
  latched     := false
  inMem       := []
  outMem      := []
  queue       := []
  returned    := []
  freeCtr     := 0
  draw        := 0

end Sys2Proof.Machine
end

