-- ==== Sys2Proof/Machine/Operands.lean ====
section
/-! DEFINITION. Machine/Operands.lean: the pure value functions of the spec: the register codes (R61 to R64), the randomizers (R250
to R253), the ASCII units (R131 to R136), the CTX tables and pair (R150 to R160), the EDIFACT value (R191), the Base256 nominal
header (R222), and the symbol-size port (R254 to R256). -/

namespace Sys2Proof.Machine

/-! ### Codes -/

/-- Scheme codes (R61). -/
def schemeCode : Scheme → BitVec 3
  | .ascii => 0#3
  | .c40 => 1#3
  | .text => 2#3
  | .x12 => 3#3
  | .edifact => 4#3
  | .base256 => 5#3

/-- The scheme a code names; 6 and 7 are reserved (R61). -/
def schemeOfCode (c : BitVec 3) : Option Scheme :=
  if c = 0#3 then some .ascii
  else if c = 1#3 then some .c40
  else if c = 2#3 then some .text
  else if c = 3#3 then some .x12
  else if c = 4#3 then some .edifact
  else if c = 5#3 then some .base256
  else none

/-- Status codes (R62). -/
def statusCode : Status → BitVec 3
  | .idle => 0#3
  | .encoding => 1#3
  | .complete => 2#3
  | .invalid => 3#3
  | .fatal => 4#3

/-- Reason codes (R63). -/
def reasonCode : Reason → BitVec 8
  | .none => 0x00#8
  | .edifactChar => 0x01#8
  | .x12Char => 0x02#8
  | .x12Extended => 0x03#8
  | .ctxUnlatchBoundary => 0x04#8
  | .sizeUndefined => 0x05#8
  | .outOverflow => 0x06#8
  | .inTooLong => 0x07#8
  | .b256TooLong => 0x08#8
  | .entryScheme => 0x80#8
  | .badTarget => 0x81#8
  | .badHint => 0x82#8
  | .b256Header => 0x83#8
  | .sizeMismatch => 0x84#8
  | .inputRemains => 0x85#8
  | .relatch => 0x86#8

/-- `LATCH(t)` (R118); it does not exist for Ascii. -/
def latchCodeword : Scheme → Option Byte
  | .ascii => none
  | .c40 => some 230#8
  | .text => some 239#8
  | .x12 => some 238#8
  | .edifact => some 240#8
  | .base256 => some 231#8

/-! ### Randomizers; `p` is a 1-based output position (R8) -/

/-- `rand253(v, p) = ((v + ((149·p) mod 253)) mod 254) + 1` (R250). -/
def rand253 (v : Byte) (p : Nat) : Byte := BitVec.ofNat 8 ((v.toNat + (149 * p) % 253) % 254 + 1)

/-- `rand255(v, p) = (v + ((149·p) mod 255) + 1) mod 256` (R252). -/
def rand255 (v : Byte) (p : Nat) : Byte := BitVec.ofNat 8 ((v.toNat + (149 * p) % 255 + 1) % 256)

/-- `unrand255(c, p) = (c − ((149·p) mod 255) − 1) mod 256`, with the non-negative remainder of R6 (R253). -/
def unrand255 (c : Byte) (p : Nat) : Byte := BitVec.ofInt 8 (((c.toNat : Int) - ((149 * p) % 255 : Nat) - 1) % 256)

/-! ### ASCII units -/

/-- A decimal digit, 48..57 (R131). -/
def isDigit (b : Byte) : Bool := 48 ≤ b.toNat && b.toNat ≤ 57

/-- The codeword of a digit pair, `10·d1 + d2 + 130` (R131). -/
def digitPair (b1 b2 : Byte) : Byte := BitVec.ofNat 8 (10 * (b1.toNat - 48) + (b2.toNat - 48) + 130)

/-- The codewords of one byte that starts no digit pair: `v + 1` (R132), or 235 and `v − 127` (R133). -/
def asciiByte (b : Byte) : List Byte :=
  if b.toNat ≤ 127 then [BitVec.ofNat 8 (b.toNat + 1)] else [235#8, BitVec.ofNat 8 (b.toNat - 127)]

/-- `ascii_encode` (R136): greedy from the left. -/
def asciiEncode : List Byte → List Byte
  | [] => []
  | [x] => asciiByte x
  | x :: y :: rest =>
    if isDigit x && isDigit y then digitPair x y :: asciiEncode rest else asciiByte x ++ asciiEncode (y :: rest)

/-! ### CTX values -/

/-- The three schemes that share the triplet packer (R2, R150). -/
inductive CtxSet where
  | c40 | text | x12
  deriving DecidableEq, Repr

/-- The scheme of a character set. -/
def CtxSet.scheme : CtxSet → Scheme
  | .c40 => .c40
  | .text => .text
  | .x12 => .x12

/-- The character set of a scheme, for the CTX schemes. -/
def ctxSetOf : Scheme → Option CtxSet
  | .c40 => some .c40
  | .text => some .text
  | .x12 => some .x12
  | .ascii | .edifact | .base256 => none

/-- A CTX value from a number. -/
def ctxValue (n : Nat) : CtxValue := BitVec.ofNat 6 n

/-- The X12 table for bytes up to 127 (R152). -/
def expandX12 (b : Nat) : Except Reason (List CtxValue) :=
  if b = 13 then .ok [ctxValue 0]
  else if b = 42 then .ok [ctxValue 1]
  else if b = 62 then .ok [ctxValue 2]
  else if b = 32 then .ok [ctxValue 3]
  else if 48 ≤ b ∧ b ≤ 57 then .ok [ctxValue (b - 44)]
  else if 65 ≤ b ∧ b ≤ 90 then .ok [ctxValue (b - 51)]
  else .error .x12Char

/-- C40 letters, bytes 65 to 127 (R154). -/
def expandC40Letter (b : Nat) : List CtxValue :=
  if b ≤ 90 then [ctxValue (b - 51)]
  else if b ≤ 95 then [ctxValue 1, ctxValue (b - 69)]
  else [ctxValue 2, ctxValue (b - 96)]

/-- Text letters, bytes 65 to 127 (R155). -/
def expandTextLetter (b : Nat) : List CtxValue :=
  if b ≤ 90 then [ctxValue 2, ctxValue (b - 64)]
  else if b ≤ 95 then [ctxValue 1, ctxValue (b - 69)]
  else if b = 96 then [ctxValue 2, ctxValue 0]
  else if b ≤ 122 then [ctxValue (b - 83)]
  else [ctxValue 2, ctxValue (b - 96)]

/-- The common part of C40 and Text for bytes up to 127 (R153), with the letters of the set. -/
def expandShifted (letter : Nat → List CtxValue) (b : Nat) : List CtxValue :=
  if b ≤ 31 then [ctxValue 0, ctxValue b]
  else if b = 32 then [ctxValue 3]
  else if b ≤ 47 then [ctxValue 1, ctxValue (b - 33)]
  else if b ≤ 57 then [ctxValue (b - 44)]
  else if b ≤ 64 then [ctxValue 1, ctxValue (b - 43)]
  else letter b

/-- C40 and Text with the extended bytes: Shift2, 30, then the byte less 128 (R156). -/
def expandExtended (letter : Nat → List CtxValue) (b : Nat) : List CtxValue :=
  if b ≤ 127 then expandShifted letter b else [ctxValue 1, ctxValue 30] ++ expandShifted letter (b - 128)

/-- `EXPAND(scheme, b)`: 1 to 4 CTX values, or the Invalid reason (R150, R157). -/
def expand (k : CtxSet) (b : Byte) : Except Reason (List CtxValue) :=
  match k with
  | .c40 => .ok (expandExtended expandC40Letter b.toNat)
  | .text => .ok (expandExtended expandTextLetter b.toNat)
  | .x12 => if b.toNat ≤ 127 then expandX12 b.toNat else .error .x12Extended

/-- `P = 1600·v0 + 40·v1 + v2 + 1` (R70, R160). -/
def ctxPair (v0 v1 v2 : CtxValue) : BitVec 16 := BitVec.ofNat 16 (1600 * v0.toNat + 40 * v1.toNat + v2.toNat + 1)

/-! ### EDIFACT values and Base256 headers -/

/-- An input byte is valid for EDIFACT iff `EDI_LO ≤ b ≤ 94` (R191). -/
def ediValid (p : Config.Params) (b : Byte) : Bool := p.ediLo ≤ b.toNat && b.toNat ≤ 94

/-- The 6-bit EDIFACT value `b & 0x3F` (R191). -/
def ediValue (b : Byte) : BitVec 6 := b.setWidth 6

/-- The value of the EDIFACT unlatch (R71, R195). -/
def ediUnlatchValue : BitVec 6 := 31#6

/-- `h0 = (L div 250) + 249` of a two-byte header (R73, R222). -/
def headerHigh (l : Nat) : Byte := BitVec.ofNat 8 (l / 250 + 249)

/-- `h1 = L mod 250` of a two-byte header (R73, R222). -/
def headerLow (l : Nat) : Byte := BitVec.ofNat 8 (l % 250)

/-! ### The symbol-size port -/

/-- `dw(s)` (R254).
No rule asks for an index that is not below `N_SIZES`; there the model's table answers 0 (log 8). -/
def dw (p : Config.Params) (s : Nat) : Nat := p.symDw.getD s 0

/-- The best size of a list of indices for `n` codewords: least `SYM_DW`, then least index (R255). -/
def findAmong (p : Config.Params) (n : Nat) : List Nat → Option Nat
  | [] => none
  | s :: rest =>
    match findAmong p n rest with
    | none => if n ≤ dw p s then some s else none
    | some t => if n ≤ dw p s ∧ (dw p s < dw p t ∨ (dw p s = dw p t ∧ s ≤ t)) then some s else some t

/-- `find(n)` under a hint; `none` is UNDEF (R255). -/
def find (p : Config.Params) (hint : BitVec 8) (n : Nat) : Option Nat :=
  if hint = Config.undefCode then findAmong p n p.autoSet
  else if hint.toNat < p.nSizes ∧ n ≤ dw p hint.toNat then some hint.toNat
  else none

/-! ### Fields of a bus word (R26, R66) -/

/-- `DATA[2:0]`, the field of TARGET. -/
def dataScheme (d : Word) : BitVec 3 := d.extractLsb' 0 3

/-- `DATA[7:0]`, the field of HINT and of IN_MEM. -/
def dataByte (d : Word) : Byte := d.extractLsb' 0 8

/-- `DATA[15:0]`, the field of IN_LEN. -/
def dataCount (d : Word) : Count := d.extractLsb' 0 16

end Sys2Proof.Machine
end

