-- ==== Sys2Proof/Machine/Ops.lean ====
section
/-! DEFINITION. Machine/Ops.lean: the named operations over the RAMs and registers: the output primitives (spec R43 to R47),
ending an encode (R110, R112, R121), the appends (R7, R135), and the answers to bus reads (R65, R305). -/

namespace Sys2Proof.Machine

/-- What a step answers. -/
abbrev Outcome := Host.Outcome State Fault Refusal

/-! ### A byte RAM -/

/-- The byte listed at an address, if one was written since reset. -/
def memGet (a : Nat) : Memory → Option Byte
  | [] => none
  | (b, v) :: m => if a = b then some v else memGet a m

/-- Write one byte, keeping the list sorted and without repeats. -/
def memSet (a : Nat) (v : Byte) : Memory → Memory
  | [] => [(a, v)]
  | (b, w) :: m => if a < b then (a, v) :: (b, w) :: m else if a = b then (a, v) :: m else (b, w) :: memSet a v m

/-- The canonical form of a RAM of `cap` entries: addresses strictly rising, all below `cap`.
An unlisted address reads as a free byte, which no listed byte can be known to equal (log 3). -/
abbrev Memory.wf (cap : Nat) (m : Memory) : Prop := m.Pairwise (fun x y => x.1 < y.1) ∧ ∀ c ∈ m, c.1 < cap

/-- `IN[i]` (R41): the byte written since reset, else the free byte drawn at reset. -/
def readIn (s : State) (i : Nat) : Byte := (memGet i s.inMem).getD (Config.inResetByte s.draw i)

/-- `OUT[i]` (R42). -/
def readOut (s : State) (i : Nat) : Byte := (memGet i s.outMem).getD (Config.outResetByte s.draw i)

/-- `IN[i] <- v` (R66). -/
def writeIn (i : Nat) (v : Byte) (s : State) : State := { s with inMem := memSet i v s.inMem }

/-- `OUT[i] <- v` (R7). -/
def writeOut (i : Nat) (v : Byte) (s : State) : State := { s with outMem := memSet i v s.outMem }

/-- `n` input bytes from index `i` on. -/
def inputFrom (s : State) (i : Nat) : Nat → List Byte
  | 0 => []
  | n + 1 => readIn s i :: inputFrom s (i + 1) n

/-- `IN[in_next .. in_len − 1]`, the input that remains (R12). -/
def remainingInput (s : State) : List Byte := inputFrom s s.inNext.toNat (s.inLen.toNat - s.inNext.toNat)

/-! ### Going on, or having ended the encode -/

/-- The result of an encoder operation: it goes on, or it has raised or completed, and then no later step of the operation
runs (R121). -/
inductive Flow where
  | go (s : State)
  | ended (s : State)
  deriving DecidableEq, Repr

/-- The state an operation leaves. -/
def Flow.state : Flow → State
  | .go s => s
  | .ended s => s

/-- The short-circuit discipline of R121: the next step runs only if the operation goes on. -/
def Flow.andThen (f : Flow) (k : State → Flow) : Flow :=
  match f with
  | .go s => k s
  | .ended s => .ended s

/-- `raise Invalid(r)` and `raise Fatal(r)` (R110, R274): `status` and `reason` are written and nothing else, and the operation
ends. -/
def raise (st : Status) (r : Reason) (s : State) : Flow := .ended { s with status := st, reason := r }

/-- `complete(z)` (R112), with its two guards. -/
def complete (z : Nat) (s : State) : Flow :=
  if s.outLen.toNat ≠ dw s.params z then raise .fatal .sizeMismatch s
  else if s.inNext.toNat < s.inLen.toNat then raise .fatal .inputRemains s
  else .ended { s with sizeIdx := BitVec.ofNat 8 z, status := .complete }

/-! ### Output primitives -/

/-- `Append(v)` (R43). -/
def append (v : Byte) (s : State) : Flow :=
  if s.outLen.toNat = s.params.outCap then raise .invalid .outOverflow s
  else .go { writeOut s.outLen.toNat v s with outLen := s.outLen + 1#16 }

/-- `Set(i, v)` (R44). -/
def setOut (i : Nat) (v : Byte) (s : State) : State := writeOut i v s

/-- The copies of `InsertAt(i)`, from the top index down: `OUT[j + 1] <- OUT[j]` for the `n` indices `j` from `i` on (R45). -/
def copyUp (i : Nat) : Nat → State → State
  | 0, s => s
  | n + 1, s => copyUp i n (writeOut (i + n + 1) (readOut s (i + n)) s)

/-- `InsertAt(i)` (R45); the new `OUT[i]` keeps its old value. -/
def insertAt (i : Nat) (s : State) : Flow :=
  if s.outLen.toNat = s.params.outCap then raise .invalid .outOverflow s
  else .go { copyUp i (s.outLen.toNat - i) s with outLen := s.outLen + 1#16 }

/-- The copies of `RemoveAt(i)`, from the bottom index up: `OUT[j] <- OUT[j + 1]` for `n` indices `j` from `i` on (R46). -/
def copyDown (i : Nat) : Nat → State → State
  | 0, s => s
  | n + 1, s => copyDown (i + 1) n (writeOut i (readOut s (i + 1)) s)

/-- `RemoveAt(i)` (R46). -/
def removeAt (i : Nat) (s : State) : State :=
  { copyDown i (s.outLen.toNat - 1 - i) s with outLen := s.outLen - 1#16 }

/-- `RemoveLast` (R47): "No rule of this spec calls it"; it stands here so that the operation set of R43 to R47 is whole. -/
def removeLast (s : State) : State := { s with outLen := s.outLen - 1#16 }

/-- `ChainAppend(v)` (R7): `Append(v)`, then `chain_words` grows by 1. -/
def chainAppend (v : Byte) (s : State) : Flow :=
  (append v s).andThen fun s => .go { s with chainWords := s.chainWords + 1#16 }

/-- `AsciiAppend(v)` (R135): `ChainAppend(v)`, then `chain_values` grows by 1. -/
def asciiAppend (v : Byte) (s : State) : Flow :=
  (chainAppend v s).andThen fun s => .go { s with chainValues := s.chainValues + 1#16 }

/-- `for c in A, in order: AsciiAppend(c)` (R168, R196). -/
def asciiAppendAll : List Byte → State → Flow
  | [], s => .go s
  | c :: rest, s => (asciiAppend c s).andThen (asciiAppendAll rest)

/-! ### The padding generator -/

/-- The pad loop of R137: `n` pads, the first of them 129 if `first`, each later one randomized at its own position. -/
def padLoop : Nat → Bool → State → Flow
  | 0, _, s => .go s
  | n + 1, first, s =>
    (asciiAppend (if first then 129#8 else rand253 129#8 (s.outLen.toNat + 1)) s).andThen (padLoop n false)

/-- `PAD(z)` (R137): pads up to `dw(z)` codewords. -/
def pad (z : Nat) (s : State) : Flow := padLoop (dw s.params z - s.outLen.toNat) true s

/-! ### The symbol-size port under the register `hint` -/

/-- `find(n)` (R255). -/
def findSize (s : State) (n : Nat) : Option Nat := find s.params s.hint n

/-- The size `find(n)`, if there is one and it holds exactly `total` codewords (R164, R167, R231). -/
def findExact (s : State) (n total : Nat) : Option Nat :=
  match findSize s n with
  | some z => if dw s.params z = total then some z else none
  | none => none

/-! ### Answers to bus reads -/

/-- A read answers this word (R65) and has no other effect (R51). -/
def answer (w : Word) (s : State) : State := { s with returned := w :: s.returned }

/-- A read whose value the spec leaves unspecified (R305, R42): the defined bits, given by the mask, are a free value, and the
reserved bits read 0 (log 2). -/
def answerFree (mask : Word) (s : State) : State :=
  { s with returned := (Config.freeRead s.freeCtr &&& mask) :: s.returned, freeCtr := s.freeCtr + 1 }

/-- A read that is specified only while `status ≠ Encoding` (R305). -/
def answerSettled (mask w : Word) (s : State) : State := if s.status = .encoding then answerFree mask s else answer w s

/-- A host write that takes effect only while `status ≠ Encoding` (R304). -/
def unlessEncoding (f : State → State) (s : State) : State := if s.status = .encoding then s else f s

/-! ### One codeword unit -/

/-- Emit one codeword unit: the encoder acts only while an encode runs (R111), and only where the rules emit that unit (`here`);
elsewhere the block emits nothing (R77; log 5). -/
def emitUnit (here : State → Bool) (op : State → Flow) (s : State) : Outcome :=
  .next (if s.status = .encoding ∧ here s = true then (op s).state else s)

end Sys2Proof.Machine
end

