-- ==== Sys2Proof/Machine/Header.lean ====
section
/-! DEFINITION. Machine/Header.lean: the Base256 length-header codec and the chain shift (spec R220 to R230). -/

namespace Sys2Proof.Machine

/-- `hidx = out_len − chain_words`, the index of `h0` (R221; log 8). -/
def headerIndex (s : State) : Nat := s.outLen.toNat - s.chainWords.toNat

/-- `hl = chain_words − chain_values`, the header length (R221). -/
def headerLength (s : State) : Nat := s.chainWords.toNat - s.chainValues.toNat

/-- `rand255(unrand255(c, p), q)`: a payload codeword moved from position `p` to position `q` (R225). -/
def moveCodeword (c : Byte) (p q : Nat) : Byte := rand255 (unrand255 c p) q

/-- The re-randomizing loop of R226 over the `n` indices from `j` on: the codeword now at index `j` came from position
`j + from0`. -/
def rerandomize (from0 j : Nat) : Nat → State → State
  | 0, s => s
  | n + 1, s => rerandomize from0 (j + 1) n (writeOut j (moveCodeword (readOut s j) (j + from0) (j + 1)) s)

/-- `B256_SHIFT_UP(i)` (R226): open a slot at index `i`; codewords moved up came from position `j`. -/
def b256ShiftUp (i : Nat) (s : State) : Flow :=
  (insertAt i s).andThen fun s => .go (rerandomize 0 (i + 1) (s.outLen.toNat - (i + 1)) s)

/-- `B256_SHIFT_DOWN(i)` (R226): close the slot at index `i`; codewords moved down came from position `j + 2`. -/
def b256ShiftDown (i : Nat) (s : State) : State :=
  let s' := removeAt i s
  rerandomize 2 i (s'.outLen.toNat - i) s'

/-- `B256_WRITE_HEADER(hidx, hl, Lc)` (R228, R230). -/
def b256WriteHeader (hidx hl lc : Nat) (s : State) : Flow :=
  if hl = 1 ∧ lc ≤ 249 then .go (setOut hidx (rand255 (BitVec.ofNat 8 lc) (hidx + 1)) s)
  else if hl = 2 ∧ 250 ≤ lc then
    if 1750 ≤ lc then raise .invalid .b256TooLong s
    else
      .go (setOut (hidx + 1) (rand255 (headerLow lc) (hidx + 2)) (setOut hidx (rand255 (headerHigh lc) (hidx + 1)) s))
  else raise .fatal .b256Header s

/-- `B256_UPDATE_NORMAL` (R227). -/
def b256UpdateNormal (s : State) : Flow :=
  let hidx := headerIndex s
  let lc := s.chainValues.toNat
  if headerLength s = 1 ∧ 249 < lc then
    (b256ShiftUp (hidx + 1) s).andThen fun s =>
      b256WriteHeader hidx 2 lc { s with chainWords := s.chainWords + 1#16 }
  else b256WriteHeader hidx (headerLength s) lc s

/-- `B256_UPDATE_PERFECT(z)` (R229). -/
def b256UpdatePerfect (z : Nat) (s : State) : Flow :=
  let hidx := headerIndex s
  if headerLength s ≠ 2 then raise .fatal .b256Header s
  else
    let s := b256ShiftDown (hidx + 1) s
    let s := { s with chainWords := s.chainWords - 1#16 }
    if s.outLen.toNat ≠ dw s.params z then raise .fatal .sizeMismatch s
    else .go (setOut hidx (rand255 0#8 (hidx + 1)) s)

end Sys2Proof.Machine
end

