-- ==== Sys2Proof/Machine/SchemeChange.lean ====
section
/-! DEFINITION. Machine/SchemeChange.lean: the EDIFACT bit packer (spec R192), the scheme change (R115 to R119), and the meanings of
the latch and unlatch rows. -/

namespace Sys2Proof.Machine

/-- `Set(out_len − 1, OUT[out_len − 1] | v)` (R192). -/
def orLast (v : Byte) (s : State) : State :=
  setOut (s.outLen.toNat - 1) (readOut s (s.outLen.toNat - 1) ||| v) s

/-- The codeword writes of `EDI_PACK` at a phase (R192), for the shifted value `ev`. -/
def ediPackBits (phase : Nat) (ev : Byte) (s : State) : Flow :=
  if phase = 0 then chainAppend ev s
  else if phase = 1 then chainAppend (ev <<< 2) (orLast (ev >>> 6) s)
  else if phase = 2 then chainAppend (ev <<< 4) (orLast (ev >>> 4) s)
  else .go (orLast (ev >>> 2) s)

/-- `EDI_PACK(e)` (R192). -/
def ediPack (e : BitVec 6) (s : State) : Flow :=
  (ediPackBits (s.chainValues.toNat % 4) (e.setWidth 8 <<< 2) s).andThen fun s =>
    .go { s with chainValues := s.chainValues + 1#16 }

/-- `EDI_PACK` of each value in order. -/
def ediPackAll : List (BitVec 6) → State → Flow
  | [], s => .go s
  | e :: rest, s => (ediPack e s).andThen (ediPackAll rest)

/-- `CTX_UNLATCH` (R116). -/
def ctxUnlatch (s : State) : Flow :=
  if s.chainValues.toNat % 3 ≠ 0 then raise .invalid .ctxUnlatchBoundary s else chainAppend 254#8 s

/-- The two modes of a scheme change (R115). -/
inductive ChangeMode where
  | explicit | implicit
  deriving DecidableEq, Repr

/-- Steps 1 and 2 of R115: the exit sequence of the scheme being left, in explicit mode. -/
def exitSequence (mode : ChangeMode) (s : State) : Flow :=
  match mode, s.scheme with
  | .explicit, .c40 => ctxUnlatch s
  | .explicit, .text => ctxUnlatch s
  | .explicit, .x12 => ctxUnlatch s
  | .explicit, .edifact => ediPack ediUnlatchValue s
  | .explicit, .ascii => .go s
  | .explicit, .base256 => .go s
  | .implicit, _ => .go s

/-- Step 4 of R115: the latch of `t`, emitted in Ascii (R118). -/
def latchInto (t : Scheme) (s : State) : Flow :=
  match latchCodeword t with
  | none => .go s
  | some c => (asciiAppend c s).andThen fun s => .go { s with scheme := t }

/-- Step 6 of R115: the Base256 placeholder header (R119). -/
def placeholder (t : Scheme) (s : State) : Flow :=
  if t = .base256 then (chainAppend 0#8 s).andThen b256UpdateNormal else .go s

/-- `change_scheme(t, mode)` (R115). -/
def changeScheme (t : Scheme) (mode : ChangeMode) (s : State) : Flow :=
  (exitSequence mode s).andThen fun s =>
    (latchInto t { s with scheme := .ascii }).andThen fun s =>
      placeholder t { s with chainWords := 0#16, chainValues := 0#16 }

/-! ### The latch and unlatch rows
A latch is emitted in Ascii and an unlatch in the scheme being left; each is the explicit scheme change that emits it (log 5).
The scheme change alone is run, not what the rules that call it do around it: an unlatch row is not followed by the ASCII codewords,
the pads and the completion of R120, and a latch row does not set `latched` (R106); the encode goes on running (the model's choice,
log 17). -/

/-- The scheme register holds `t`. -/
def inScheme (t : Scheme) (s : State) : Bool := s.scheme == t

/-- The scheme register holds one of the CTX schemes. -/
def inCtx (s : State) : Bool := (ctxSetOf s.scheme).isSome

/-- CW_LATCH_C40: 230 (R118). -/
def execCwLatchC40 (s : State) : Outcome := emitUnit (inScheme .ascii) (changeScheme .c40 .explicit) s

/-- CW_LATCH_BASE256: 231, with its placeholder header (R118, R119). -/
def execCwLatchBase256 (s : State) : Outcome := emitUnit (inScheme .ascii) (changeScheme .base256 .explicit) s

/-- CW_LATCH_X12: 238 (R118). -/
def execCwLatchX12 (s : State) : Outcome := emitUnit (inScheme .ascii) (changeScheme .x12 .explicit) s

/-- CW_LATCH_TEXT: 239 (R118). -/
def execCwLatchText (s : State) : Outcome := emitUnit (inScheme .ascii) (changeScheme .text .explicit) s

/-- CW_LATCH_EDIFACT: 240 (R118). -/
def execCwLatchEdifact (s : State) : Outcome := emitUnit (inScheme .ascii) (changeScheme .edifact .explicit) s

/-- CTX_UNLATCH: 254 (R116), and Ascii; the encode goes on without the inline finish of R120 (log 17), and values waiting in the CTX
buffer stay there (log 19), the model's choices. -/
def execCtxUnlatch (s : State) : Outcome := emitUnit inCtx (changeScheme .ascii .explicit) s

/-- EDI_UNLATCH: the value 31 at the current phase (R117, R195), and Ascii; the encode goes on without the inline finish of R120, the
model's choice (log 17). -/
def execEdiUnlatch (s : State) : Outcome := emitUnit (inScheme .edifact) (changeScheme .ascii .explicit) s

end Sys2Proof.Machine
end

