-- ==== Sys2Proof/Machine/Ascii.lean ====
section
/-! DEFINITION. Machine/Ascii.lean: the ASCII packer and completion (spec R130 to R139) and the meanings of the ASCII-domain rows. -/

namespace Sys2Proof.Machine

/-- The ASCII unit at input index `i`: its codewords and how many bytes it takes (R131 to R133). -/
def asciiUnitAt (s : State) (i : Nat) : List Byte × Nat :=
  if i + 1 < s.inLen.toNat ∧ isDigit (readIn s i) = true ∧ isDigit (readIn s (i + 1)) = true then
    ([digitPair (readIn s i) (readIn s (i + 1))], 2)
  else (asciiByte (readIn s i), 1)

/-- `ASCII_CHUNK` (R134). -/
def asciiChunk (s : State) : Flow :=
  if s.inNext = s.inLen then .go s
  else
    let unit := asciiUnitAt s s.inNext.toNat
    (asciiAppendAll unit.1 s).andThen fun s => .go { s with inNext := s.inNext + BitVec.ofNat 16 unit.2 }

/-- Resolve the size for the output so far, pad, and complete: the tail of R138, R168, R198. -/
def finishSized (s : State) : Flow :=
  match findSize s s.outLen.toNat with
  | none => raise .invalid .sizeUndefined s
  | some z => (pad z s).andThen (complete z)

/-- `ASCII_COMPLETE` (R138). -/
def asciiComplete (s : State) : Flow :=
  if s.inNext.toNat < s.inLen.toNat then .go s else finishSized s

/-! ### The ASCII-domain rows
That a unit leaves the input cursor `in_next` where it is is the model's choice (log 14): `ASCII_CHUNK`, which emits such a unit for
the bytes it reads, moves it (R134); a unit handed over reads no byte. -/

/-- CW_ASCII_CHAR: one plain character (R132, R135); `in_next` stays, the model's choice (log 14). -/
def execCwAsciiChar (c : Byte) (s : State) : Outcome := emitUnit (inScheme .ascii) (asciiAppend c) s

/-- CW_DIGIT_PAIR: one digit pair (R131, R135); `in_next` stays, the model's choice (log 14). -/
def execCwDigitPair (c : Byte) (s : State) : Outcome := emitUnit (inScheme .ascii) (asciiAppend c) s

/-- CW_UPPER_SHIFT: 235, then `v − 127` (R133, R135); `in_next` stays, the model's choice (log 14). -/
def execCwUpperShift (lo : Byte) (s : State) : Outcome := emitUnit (inScheme .ascii) (asciiAppendAll [235#8, lo]) s

/-- CW_PAD_FIRST: the first pad, 129 (R137).
The model's choice: a lone pad unit is not held to the order and the place of R75 and R137; 129 is appended with input left, after other
pads, and past the symbol's end too (log 20). -/
def execCwPadFirst (s : State) : Outcome := emitUnit (inScheme .ascii) (asciiAppend 129#8) s

/-- PAD_RANDOM: a later pad; the block emits `p` exactly where `p` is `rand253(129, out_len + 1)` (R75, R137; log 5).
That is 129 at no position, so a `PAD` word 129 is never emitted; the first pad is CW_PAD_FIRST (the model's choice, log 16).
That the unit needs no 129 before it, no exhausted input and no symbol with room is the model's choice too (log 20). -/
def execPadRandom (p : Byte) (s : State) : Outcome :=
  emitUnit (fun s => inScheme .ascii s && p == rand253 129#8 (s.outLen.toNat + 1)) (asciiAppend p) s

end Sys2Proof.Machine
end

