-- ==== Sys2Proof/Machine/Base256.lean ====
section
/-! DEFINITION. Machine/Base256.lean: the Base256 packer and completion (spec R224, R231) and the meanings of the header and payload
rows. -/

namespace Sys2Proof.Machine

/-- A stored payload codeword joins the chain and the header is updated (R224), but `in_next` stays: the codeword is given, no input
byte is read for it (the model's choice, log 14). -/
def b256Payload (d : Byte) (s : State) : Flow :=
  (chainAppend d s).andThen fun s => b256UpdateNormal { s with chainValues := s.chainValues + 1#16 }

/-- `B256_CHUNK` (R224).
The cursor moves before the header update, as the rule orders it. -/
def b256Chunk (s : State) : Flow :=
  if s.inNext = s.inLen then .go s
  else
    (chainAppend (rand255 (readIn s s.inNext.toNat) (s.outLen.toNat + 1)) s).andThen fun s =>
      b256UpdateNormal { s with chainValues := s.chainValues + 1#16, inNext := s.inNext + 1#16 }

/-- The exact-fit size of R231: with a two-byte header, the size that holds exactly one codeword less. -/
def b256ExactSize (s : State) : Option Nat :=
  if headerLength s = 2 then findExact s (s.outLen.toNat - 1) (s.outLen.toNat - 1) else none

/-- `B256_COMPLETE` (R231). -/
def b256Complete (s : State) : Flow :=
  if s.inNext.toNat < s.inLen.toNat then .go s
  else
    match b256ExactSize s with
    | some z => (b256UpdatePerfect z s).andThen (complete z)
    | none =>
      match findSize s s.outLen.toNat with
      | none => raise .invalid .sizeUndefined s
      | some z => (changeScheme .ascii .implicit s).andThen fun s => (pad z s).andThen (complete z)

/-! ### The Base256 rows -/

/-- B256D: the stored payload codeword `d` (R74, R224); `in_next` stays, the model's choice (log 14). -/
def execB256D (d : Byte) (s : State) : Outcome := emitUnit (inScheme .base256) (b256Payload d) s

/-- Whether `h` is the one-byte header of the chain so far: `rand255(L, p)`, `L ≤ 249` (R73, R228). -/
def isShortHeader (h : Byte) (s : State) : Bool :=
  headerLength s == 1 && decide (s.chainValues.toNat ≤ 249) &&
    h == rand255 (BitVec.ofNat 8 s.chainValues.toNat) (headerIndex s + 1)

/-- Whether `h` is the exact-fit header, nominal 0, and the chain is at its exact fit (R73, R231). -/
def isExactHeader (h : Byte) (s : State) : Bool :=
  decide (s.inLen.toNat ≤ s.inNext.toNat) && (b256ExactSize s).isSome && h == rand255 0#8 (headerIndex s + 1)

/-- Whether `h l` is the two-byte header of the chain so far (R73, R228). -/
def isLongHeader (h l : Byte) (s : State) : Bool :=
  (headerLength s == 1 || headerLength s == 2) && decide (250 ≤ s.chainValues.toNat) && decide (s.chainValues.toNat ≤ 1749) &&
    h == rand255 (headerHigh s.chainValues.toNat) (headerIndex s + 1) &&
    l == rand255 (headerLow s.chainValues.toNat) (headerIndex s + 2)

/-- B256H1: the one-byte header, `h0 = L` by the header update, `h0 = 0` by the exact-fit completion (R228, R229; log 5). -/
def execB256H1 (h : Byte) (s : State) : Outcome :=
  emitUnit (fun s => inScheme .base256 s && (isShortHeader h s || isExactHeader h s))
    (fun s => if isShortHeader h s then b256UpdateNormal s else b256Complete s) s

/-- B256H2: the two-byte header by the header update (R227, R228; log 5). -/
def execB256H2 (h l : Byte) (s : State) : Outcome :=
  emitUnit (fun s => inScheme .base256 s && isLongHeader h l s) b256UpdateNormal s

end Sys2Proof.Machine
end

