-- ==== Sys2Proof/Machine/Ctx.lean ====
section
/-! DEFINITION. Machine/Ctx.lean: the C40/Text/X12 packer and its end-of-symbol logic (spec R159 to R171) and the meaning of the
triplet row. -/

namespace Sys2Proof.Machine

/-- The two codewords of a pair and the counts of R160: high byte first; the buffer is then empty. -/
def ctxEmitPair (p : BitVec 16) (s : State) : Flow :=
  (chainAppend (p.extractLsb' 8 8) s).andThen fun s =>
    (chainAppend (p.extractLsb' 0 8) s).andThen fun s =>
      .go { s with chainValues := s.chainValues + 3#16, ctxN := 0#3, ctxLastn := 0#3 }

/-- `CTX_PACK` (R160). -/
def ctxPack (s : State) : Flow := ctxEmitPair (ctxPair s.ctxBuf[0] s.ctxBuf[1] s.ctxBuf[2]) s

/-- `CTX_PUSH(v)` (R159; a push with no place in the buffer, which R161 excludes, is log 12). -/
def ctxPush (v : CtxValue) (s : State) : Flow :=
  let s := { s with
    ctxBuf := s.ctxBuf.setIfInBounds s.ctxN.toNat v
    ctxN := s.ctxN + 1#3
    ctxLastn := s.ctxLastn + 1#3 }
  if s.ctxN = 3#3 then ctxPack s else .go s

/-- `for v in vals, in order: CTX_PUSH(v)` (R162). -/
def ctxPushAll : List CtxValue → State → Flow
  | [], s => .go s
  | v :: rest, s => (ctxPush v s).andThen (ctxPushAll rest)

/-- One pass of the loop of R162: expand the next byte, consume it, push its values. -/
def ctxByte (k : CtxSet) (s : State) : Flow :=
  match expand k (readIn s s.inNext.toNat) with
  | .error r => raise .invalid r s
  | .ok vals => ctxPushAll vals { s with inNext := s.inNext + 1#16, ctxLastn := 0#3 }

/-- The loop of R162: bytes until the buffer is empty or the input ends; at most `n` bytes are left. -/
def ctxLoop (k : CtxSet) : Nat → State → Flow
  | 0, s => .go s
  | n + 1, s =>
    (ctxByte k s).andThen fun s => if s.ctxN = 0#3 ∨ s.inNext = s.inLen then .go s else ctxLoop k n s

/-- Case (b) of R164, which X12 does not have (R165): the size of the Shift1-padded triplet. -/
def ctxShiftPadSize (k : CtxSet) (s : State) : Option Nat :=
  if s.ctxN = 2#3 ∧ k ≠ .x12 then findExact s (s.outLen.toNat + 2) (s.outLen.toNat + 2) else none

/-- How many input bytes the rollback of R166 takes back. -/
def ctxRollbackBytes (s : State) : Nat := if s.ctxN = 2#3 ∧ s.ctxLastn = 1#3 then 2 else 1

/-- The rollback of R166. -/
def ctxRollback (s : State) : State :=
  { s with inNext := s.inNext - BitVec.ofNat 16 (ctxRollbackBytes s), ctxN := 0#3, ctxLastn := 0#3 }

/-- Case (d) of R167: the one ASCII codeword that fills the symbol, with the size, if there is one. -/
def ctxImplicitSize (tail : List Byte) (s : State) : Option Nat :=
  if tail.length = 1 then findExact s (s.outLen.toNat + 1) (s.outLen.toNat + 1) else none

/-- After the rollback, with `tail = ascii_encode` of the rolled-back bytes: case (d) (R167), else case (c) (R168). -/
def ctxFinishInAscii (tail : List Byte) (s : State) : Flow :=
  match ctxImplicitSize tail s with
  | some z =>
    (changeScheme .ascii .implicit s).andThen fun s =>
      (asciiAppendAll tail s).andThen fun s => complete z { s with inNext := s.inLen }
  | none =>
    (changeScheme .ascii .explicit s).andThen fun s =>
      (asciiAppendAll tail s).andThen fun s => finishSized { s with inNext := s.inLen }

/-- `CTX_PARTIAL` (R163): case (b), else the rollback and cases (d) and (c). -/
def ctxPartial (k : CtxSet) (s : State) : Flow :=
  match ctxShiftPadSize k s with
  | some z => (ctxPush 0#6 s).andThen (complete z)
  | none => ctxFinishInAscii (asciiEncode (remainingInput (ctxRollback s))) (ctxRollback s)

/-- `CTX_CHUNK` (R162). -/
def ctxChunk (k : CtxSet) (s : State) : Flow :=
  if s.inNext = s.inLen then .go s
  else
    (ctxLoop k (s.inLen.toNat - s.inNext.toNat) s).andThen fun s =>
      if 0 < s.ctxN.toNat then ctxPartial k s else .go s

/-- `CTX_COMPLETE` (R170). -/
def ctxComplete (s : State) : Flow :=
  if s.inNext.toNat < s.inLen.toNat then .go s
  else
    match findSize s s.outLen.toNat with
    | none => raise .invalid .sizeUndefined s
    | some z =>
      if dw s.params z = s.outLen.toNat then complete z s
      else (changeScheme .ascii .explicit s).andThen fun s => (pad z s).andThen (complete z)

/-- CTX16_TRIPLET: the pair `P` (R70, R160), in one of the CTX schemes.
Two choices of the model: `in_next`, which `CTX_CHUNK` moves (R162), stays (log 14); and values waiting in the buffer are dropped, as
`CTX_PACK` empties it (log 19). -/
def execCtx16Triplet (p : BitVec 16) (s : State) : Outcome := emitUnit inCtx (ctxEmitPair p) s

end Sys2Proof.Machine
end

