-- ==== Sys2Proof/Machine/Edifact.lean ====
section
/-! DEFINITION. Machine/Edifact.lean: the EDIFACT packer (spec R190 to R201), the scratch ASCII probe (R257), and the meaning of the
four-value row. -/

namespace Sys2Proof.Machine

/-- The loop of `EDI_PROBE` (R257) from input index `j`, with the codewords so far.
Every pass adds a codeword and stops above `EDI_SCRATCH`, so `EDI_SCRATCH + 1` passes are enough. -/
def ediProbeLoop (s : State) : Nat → Nat → List Byte → Bool × List Byte
  | 0, _, acc => (false, acc)
  | n + 1, j, acc =>
    if s.inLen.toNat ≤ j then (true, acc)
    else
      let unit := asciiUnitAt s j
      if Config.ediScratch < acc.length + unit.1.length then (false, acc)
      else ediProbeLoop s n (j + unit.2) (acc ++ unit.1)

/-- `EDI_PROBE` (R257): whether the remaining input fits the scratch as ASCII, and its codewords (`k` is their number). -/
def ediProbe (s : State) : Bool × List Byte := ediProbeLoop s (Config.ediScratch + 1) s.inNext.toNat []

/-- The condition of R196 under which the encode finishes in ASCII without an unlatch: the size and the ASCII codewords. -/
def ediImplicitEnd (s : State) : Option (Nat × List Byte) :=
  if s.chainValues.toNat % 4 = 0 ∧ (ediProbe s).1 = true ∧ (ediProbe s).2.length ≤ 2 then
    match findSize s (s.outLen.toNat + (ediProbe s).2.length) with
    | some z => if dw s.params z - s.outLen.toNat ≤ 2 then some (z, (ediProbe s).2) else none
    | none => none
  else none

/-- `EDI_END_EXPLICIT` (R198). -/
def ediEndExplicit (s : State) : Flow := (changeScheme .ascii .explicit s).andThen finishSized

/-- `EDI_END` (R196, R197, R199). -/
def ediEnd (s : State) : Flow :=
  match ediImplicitEnd s with
  | some (z, tail) =>
    if tail.length = 0 ∧ dw s.params z = s.outLen.toNat then complete z s
    else
      (changeScheme .ascii .implicit s).andThen fun s =>
        (asciiAppendAll tail s).andThen fun s => (pad z { s with inNext := s.inLen }).andThen (complete z)
  | none => if s.inNext = s.inLen then ediEndExplicit s else .go s

/-- `EDI_CHUNK` (R194). -/
def ediChunk (s : State) : Flow :=
  if s.inNext = s.inLen then .go s
  else
    let b := readIn s s.inNext.toNat
    if ediValid s.params b then
      (ediPack (ediValue b) s).andThen fun s => .go { s with inNext := s.inNext + 1#16 }
    else raise .invalid .edifactChar s

/-- EDI24_QUAD: four values packed in order from the current phase (R71, R192).
Three choices of the model: at a phase other than 0, where R71 and R193 lay out no quad, the four values are packed one after another
from that phase, across the codeword in flight (log 18); `in_next`, which `EDI_CHUNK` moves (R194), stays (log 14); and the value 31, which the encoder packs only
as the unlatch (R72, R77), is packed like any other of the four, and the run goes on in Edifact (log 15). -/
def execEdi24Quad (e0 e1 e2 e3 : BitVec 6) (s : State) : Outcome :=
  emitUnit (inScheme .edifact) (ediPackAll [e0, e1, e2, e3]) s

end Sys2Proof.Machine
end

