-- ==== Sys2Proof/Machine/Flags.lean ====
section
/-! DEFINITION. Machine/Flags.lean: `status` is "the block's only flag" (spec R17); DONE and the words in which the host-visible
registers are read (R26, R48, R276). -/

namespace Sys2Proof.Machine

/-- `STATUS.DONE` is 1 iff the status is Complete, Invalid or Fatal (R62, R276). -/
def done : Status → Bool
  | .idle => false
  | .encoding => false
  | .complete => true
  | .invalid => true
  | .fatal => true

/-- A field of a register word: `v` at bit `lo`, zeros elsewhere. -/
def field {n : Nat} (v : BitVec n) (lo : Nat) : Word := v.setWidth 32 <<< lo

/-- STATUS: bits 2:0 the status, bit 3 DONE (R26). -/
def statusWord (s : State) : Word := field (statusCode s.status) 0 ||| field (BitVec.ofBool (done s.status)) 3

/-- CAPS: bits 15:0 `IN_CAP`, bits 31:16 `OUT_CAP` (R26). -/
def capsWord (s : State) : Word :=
  field (BitVec.ofNat 16 s.params.inCap) 0 ||| field (BitVec.ofNat 16 s.params.outCap) 16

/-- NSIZES: bits 7:0 `N_SIZES` (R26). -/
def nsizesWord (s : State) : Word := field (BitVec.ofNat 8 s.params.nSizes) 0

/-- DBG_SCHEME: bits 2:0 the scheme, bit 3 `latched` (R26). -/
def dbgSchemeWord (s : State) : Word := field (schemeCode s.scheme) 0 ||| field (BitVec.ofBool s.latched) 3

/-- DBG_CHAIN: bits 15:0 `chain_words`, bits 31:16 `chain_values` (R26). -/
def dbgChainWord (s : State) : Word := field s.chainWords 0 ||| field s.chainValues 16

/-- DBG_CTX: bits 2:0 `ctx_n`, bits 6:4 `ctx_lastn` (R26). -/
def dbgCtxWord (s : State) : Word := field s.ctxN 0 ||| field s.ctxLastn 4

/-- The input RAM window: `IN[i]` below `IN_CAP`, else unmapped and 0 (R49, R66). -/
def inMemWord (i : BitVec 12) (s : State) : Word :=
  if i.toNat < s.params.inCap then field (readIn s i.toNat) 0 else 0#32

end Sys2Proof.Machine
end

