-- ==== Sys2Proof/Machine/HostRegs.lean ====
section
/-! DEFINITION. Machine/HostRegs.lean: the meanings of the `HOST` rows: START (spec R100 to R102), the register and RAM writes (R66,
R49, R304) and the register and RAM reads (R66, R26, R305). -/

namespace Sys2Proof.Machine

/-! ### START -/

/-- The registers START writes before its checks (R100): all of R12 to R22 but the configuration; `OUT` is not cleared. -/
def startState (s : State) : State :=
  { s with
    outLen := 0#16
    inNext := 0#16
    scheme := .ascii
    chainWords := 0#16
    chainValues := 0#16
    ctxN := 0#3
    ctxLastn := 0#3
    ctxBuf := #v[0#6, 0#6, 0#6, 0#6]
    latched := false
    reason := .none
    sizeIdx := Config.undefCode
    status := .encoding }

/-- `START_CHECKS` (R101): the first check that applies, if any. -/
def startCheck (s : State) : Option (Status × Reason) :=
  if 6 ≤ s.target.toNat then some (.fatal, .badTarget)
  else if s.hint ≠ Config.undefCode ∧ s.params.nSizes ≤ s.hint.toNat then some (.fatal, .badHint)
  else if s.params.inCap < s.inLen.toNat then some (.invalid, .inTooLong)
  else none

/-- Begin an encode: the START state, then the checks (R100, R101). -/
def beginEncode (s : State) : Flow :=
  match startCheck (startState s) with
  | none => .go (startState s)
  | some (st, r) => raise st r (startState s)

/-- START (R100); ignored while an encode runs (R102). -/
def execStart (_hi : BitVec 31) (s : State) : Outcome := .next (unlessEncoding (fun s => (beginEncode s).state) s)

/-- WR_CTRL_NOP: no effect, whatever the status (R103). -/
def execWrCtrlNop (_hi : BitVec 31) (s : State) : Outcome := .next s

/-! ### Writes -/

/-- WR_TARGET: `target <- DATA[2:0]` (R66). -/
def execWrTarget (d : Word) (s : State) : Outcome := .next (unlessEncoding (fun s => { s with target := dataScheme d }) s)

/-- WR_HINT: `hint <- DATA[7:0]` (R66). -/
def execWrHint (d : Word) (s : State) : Outcome := .next (unlessEncoding (fun s => { s with hint := dataByte d }) s)

/-- WR_IN_LEN: `in_len <- DATA[15:0]` (R66). -/
def execWrInLen (d : Word) (s : State) : Outcome := .next (unlessEncoding (fun s => { s with inLen := dataCount d }) s)

/-- WR_IN_MEM: `IN[i] <- DATA[7:0]` if `i < IN_CAP` (R66); above, the address is unmapped (R49). -/
def execWrInMem (i : BitVec 12) (d : Word) (s : State) : Outcome :=
  .next (unlessEncoding (fun s => if i.toNat < s.params.inCap then writeIn i.toNat (dataByte d) s else s) s)

/-- A write that R49 ignores: to a read-only register, to OUT_MEM, or to an unmapped address. -/
def ignoreWrite (s : State) : Outcome := .next s

/-- WR_STATUS (R49). -/
def execWrStatus (_d : Word) (s : State) : Outcome := ignoreWrite s

/-- WR_REASON (R49). -/
def execWrReason (_d : Word) (s : State) : Outcome := ignoreWrite s

/-- WR_SIZE_IDX (R49). -/
def execWrSizeIdx (_d : Word) (s : State) : Outcome := ignoreWrite s

/-- WR_OUT_LEN (R49). -/
def execWrOutLen (_d : Word) (s : State) : Outcome := ignoreWrite s

/-- WR_CAPS (R49). -/
def execWrCaps (_d : Word) (s : State) : Outcome := ignoreWrite s

/-- WR_NSIZES (R49). -/
def execWrNsizes (_d : Word) (s : State) : Outcome := ignoreWrite s

/-- WR_DBG_CURSOR (R49). -/
def execWrDbgCursor (_d : Word) (s : State) : Outcome := ignoreWrite s

/-- WR_DBG_SCHEME (R49). -/
def execWrDbgScheme (_d : Word) (s : State) : Outcome := ignoreWrite s

/-- WR_DBG_CHAIN (R49). -/
def execWrDbgChain (_d : Word) (s : State) : Outcome := ignoreWrite s

/-- WR_DBG_CTX (R49). -/
def execWrDbgCtx (_d : Word) (s : State) : Outcome := ignoreWrite s

/-- WR_OUT_MEM: "Only the encoder writes" OUT (R42, R49). -/
def execWrOutMem (_i : BitVec 12) (_d : Word) (s : State) : Outcome := ignoreWrite s

/-- WR_UNMAPPED (R49). -/
def execWrUnmapped (_a : Addr) (_d : Word) (s : State) : Outcome := ignoreWrite s

/-! ### Reads of registers that keep their value during an encode (R305) -/

/-- RD_CTRL reads 0 (R103). -/
def execRdCtrl (s : State) : Outcome := .next (answer 0#32 s)

/-- RD_TARGET (R26). -/
def execRdTarget (s : State) : Outcome := .next (answer (field s.target 0) s)

/-- RD_HINT (R26). -/
def execRdHint (s : State) : Outcome := .next (answer (field s.hint 0) s)

/-- RD_IN_LEN (R26). -/
def execRdInLen (s : State) : Outcome := .next (answer (field s.inLen 0) s)

/-- RD_STATUS: the current status at any time (R26, R305). -/
def execRdStatus (s : State) : Outcome := .next (answer (statusWord s) s)

/-- RD_CAPS (R26). -/
def execRdCaps (s : State) : Outcome := .next (answer (capsWord s) s)

/-- RD_NSIZES (R26). -/
def execRdNsizes (s : State) : Outcome := .next (answer (nsizesWord s) s)

/-- RD_IN_MEM (R66). -/
def execRdInMem (i : BitVec 12) (s : State) : Outcome := .next (answer (inMemWord i s) s)

/-- RD_UNMAPPED reads 0 (R49). -/
def execRdUnmapped (_a : Addr) (s : State) : Outcome := .next (answer 0#32 s)

/-! ### Reads that are unspecified while an encode runs (R305) -/

/-- RD_REASON (R26). -/
def execRdReason (s : State) : Outcome := .next (answerSettled 0xFF#32 (field (reasonCode s.reason) 0) s)

/-- RD_SIZE_IDX (R26). -/
def execRdSizeIdx (s : State) : Outcome := .next (answerSettled 0xFF#32 (field s.sizeIdx 0) s)

/-- RD_OUT_LEN (R26). -/
def execRdOutLen (s : State) : Outcome := .next (answerSettled 0xFFFF#32 (field s.outLen 0) s)

/-- RD_DBG_CURSOR (R26). -/
def execRdDbgCursor (s : State) : Outcome := .next (answerSettled 0xFFFF#32 (field s.inNext 0) s)

/-- RD_DBG_SCHEME (R26). -/
def execRdDbgScheme (s : State) : Outcome := .next (answerSettled 0xF#32 (dbgSchemeWord s) s)

/-- RD_DBG_CHAIN (R26). -/
def execRdDbgChain (s : State) : Outcome := .next (answerSettled 0xFFFFFFFF#32 (dbgChainWord s) s)

/-- RD_DBG_CTX (R26). -/
def execRdDbgCtx (s : State) : Outcome := .next (answerSettled 0x77#32 (dbgCtxWord s) s)

/-- RD_OUT_MEM: 0 at and above `OUT_CAP` (R49); `OUT[i]` below `out_len` once no encode runs (R66); any byte while one runs (R305)
and at and above `out_len`, which "a model reads … as any value" (R42; log 9). -/
def execRdOutMem (i : BitVec 12) (s : State) : Outcome :=
  if s.params.outCap ≤ i.toNat then .next (answer 0#32 s)
  else if s.outLen.toNat ≤ i.toNat then .next (answerFree 0xFF#32 s)
  else .next (answerSettled 0xFF#32 (field (readOut s i.toNat) 0) s)

end Sys2Proof.Machine
end

