-- ==== Sys2Proof/Machine/Iterate.lean ====
section
/-! DEFINITION. Machine/Iterate.lean: the dispatcher iteration, "the encoder's one step" (spec R105 to R109), and hardware reset
as an event (R300). -/

namespace Sys2Proof.Machine

/-- `SCHEME_STEP` for the target `t` (R106). -/
def schemeStep (t : Scheme) (s : State) : Flow :=
  (if s.scheme = t then Flow.go s
    else if s.latched then raise .fatal .relatch s
    else if s.scheme ≠ .ascii then raise .fatal .entryScheme s
    else changeScheme t .explicit s).andThen fun s => .go { s with latched := true }

/-- The EDIFACT pre-check, step 2 of R105 (R107). -/
def preCheck (s : State) : Flow := if s.scheme = .edifact then ediEnd s else .go s

/-- `CHUNK(scheme)` (R108). -/
def chunk (s : State) : Flow :=
  match s.scheme with
  | .ascii => asciiChunk s
  | .c40 => ctxChunk .c40 s
  | .text => ctxChunk .text s
  | .x12 => ctxChunk .x12 s
  | .edifact => ediChunk s
  | .base256 => b256Chunk s

/-- `COMPLETE_IF_DONE(scheme)` (R109). -/
def completeIfDone (s : State) : Flow :=
  match s.scheme with
  | .ascii => asciiComplete s
  | .c40 => ctxComplete s
  | .text => ctxComplete s
  | .x12 => ctxComplete s
  | .edifact => ediEnd s
  | .base256 => b256Complete s

/-- `ITERATE` with the target scheme `t` (R105). -/
def iterate (t : Scheme) (s : State) : Flow :=
  (schemeStep t s).andThen fun s => (preCheck s).andThen fun s => (chunk s).andThen completeIfDone

/-- The target scheme of a configuration START_CHECKS accepts (R101). -/
def checkedTarget (s : State) : Option Scheme := if (startCheck s).isNone then schemeOfCode s.target else none

/-- The encoder's turn: one ITERATE while an encode runs (R105), nothing otherwise (R111, R283).
An encode running on a refused configuration is the defect I14 speaks of (log 7). -/
def encoderTurn (s : State) : Outcome :=
  if s.status = .encoding then
    match checkedTarget s with
    | some t => .next (iterate t s).state
    | none => .fault .uncheckedConfiguration
  else .next s

/-- A hardware reset (R300): every register at its reset value and both RAMs drawn anew; the hardwired parameters stay.
The schedule and the words already returned belong to the host and stay too. -/
def hardReset (s : State) : State :=
  { State.reset with
    params := s.params
    queue := s.queue
    returned := s.returned
    freeCtr := s.freeCtr
    draw := s.draw + 1 }

end Sys2Proof.Machine
end

