-- ==== Sys2Proof/Machine/Dispatch.lean ====
section
/-! DEFINITION. Machine/Dispatch.lean: one arm per constructor of Instr, each one direct call of its meaning. -/

namespace Sys2Proof.Machine

def exec (i : Instr) (s : State) : Host.Outcome State Fault Refusal :=
  match i with
  | .start hi => Sys2Proof.Machine.execStart hi s
  | .wrCtrlNop hi => Sys2Proof.Machine.execWrCtrlNop hi s
  | .wrTarget data => Sys2Proof.Machine.execWrTarget data s
  | .wrHint data => Sys2Proof.Machine.execWrHint data s
  | .wrInLen data => Sys2Proof.Machine.execWrInLen data s
  | .wrStatus data => Sys2Proof.Machine.execWrStatus data s
  | .wrReason data => Sys2Proof.Machine.execWrReason data s
  | .wrSizeIdx data => Sys2Proof.Machine.execWrSizeIdx data s
  | .wrOutLen data => Sys2Proof.Machine.execWrOutLen data s
  | .wrCaps data => Sys2Proof.Machine.execWrCaps data s
  | .wrNsizes data => Sys2Proof.Machine.execWrNsizes data s
  | .wrDbgCursor data => Sys2Proof.Machine.execWrDbgCursor data s
  | .wrDbgScheme data => Sys2Proof.Machine.execWrDbgScheme data s
  | .wrDbgChain data => Sys2Proof.Machine.execWrDbgChain data s
  | .wrDbgCtx data => Sys2Proof.Machine.execWrDbgCtx data s
  | .wrInMem idx data => Sys2Proof.Machine.execWrInMem idx data s
  | .wrOutMem idx data => Sys2Proof.Machine.execWrOutMem idx data s
  | .rdCtrl => Sys2Proof.Machine.execRdCtrl s
  | .rdTarget => Sys2Proof.Machine.execRdTarget s
  | .rdHint => Sys2Proof.Machine.execRdHint s
  | .rdInLen => Sys2Proof.Machine.execRdInLen s
  | .rdStatus => Sys2Proof.Machine.execRdStatus s
  | .rdReason => Sys2Proof.Machine.execRdReason s
  | .rdSizeIdx => Sys2Proof.Machine.execRdSizeIdx s
  | .rdOutLen => Sys2Proof.Machine.execRdOutLen s
  | .rdCaps => Sys2Proof.Machine.execRdCaps s
  | .rdNsizes => Sys2Proof.Machine.execRdNsizes s
  | .rdDbgCursor => Sys2Proof.Machine.execRdDbgCursor s
  | .rdDbgScheme => Sys2Proof.Machine.execRdDbgScheme s
  | .rdDbgChain => Sys2Proof.Machine.execRdDbgChain s
  | .rdDbgCtx => Sys2Proof.Machine.execRdDbgCtx s
  | .rdInMem idx => Sys2Proof.Machine.execRdInMem idx s
  | .rdOutMem idx => Sys2Proof.Machine.execRdOutMem idx s
  | .wrUnmapped a data => Sys2Proof.Machine.execWrUnmapped a data s
  | .rdUnmapped a => Sys2Proof.Machine.execRdUnmapped a s
  | .cwAsciiChar c => Sys2Proof.Machine.execCwAsciiChar c s
  | .cwPadFirst => Sys2Proof.Machine.execCwPadFirst s
  | .cwDigitPair c => Sys2Proof.Machine.execCwDigitPair c s
  | .cwLatchC40 => Sys2Proof.Machine.execCwLatchC40 s
  | .cwLatchBase256 => Sys2Proof.Machine.execCwLatchBase256 s
  | .cwLatchX12 => Sys2Proof.Machine.execCwLatchX12 s
  | .cwLatchText => Sys2Proof.Machine.execCwLatchText s
  | .cwLatchEdifact => Sys2Proof.Machine.execCwLatchEdifact s
  | .cwUpperShift lo => Sys2Proof.Machine.execCwUpperShift lo s
  | .ctx16Triplet p => Sys2Proof.Machine.execCtx16Triplet p s
  | .ctxUnlatch => Sys2Proof.Machine.execCtxUnlatch s
  | .edi24Quad e0 e1 e2 e3 => Sys2Proof.Machine.execEdi24Quad e0 e1 e2 e3 s
  | .ediUnlatch => Sys2Proof.Machine.execEdiUnlatch s
  | .b256H1 h => Sys2Proof.Machine.execB256H1 h s
  | .b256H2 h l => Sys2Proof.Machine.execB256H2 h l s
  | .b256D d => Sys2Proof.Machine.execB256D d s
  | .padRandom p => Sys2Proof.Machine.execPadRandom p s

end Sys2Proof.Machine
end

