-- ==== Sys2Proof/Machine/Step.lean ====
section
/-! DEFINITION. Machine/Step.lean: one step of the system (spec R54): the next entry of the host's schedule, or the encoder's turn;
and where the host's question places a table word. -/

namespace Sys2Proof.Machine

/-- Run what a raw word of a format decodes to (R65 to R75). -/
def runWord (f : Format) (w : Raw) (s : State) : Host.Outcome State Fault Refusal :=
  match decode f w with
  | .ok i => exec i s
  | .error _ => .refused .reservedCodeword

/-- What one entry of the schedule does, in the state whose schedule has moved past it.
A bus transaction is no codeword unit: under the bus format no unit is accepted. -/
def runSlot (slot : Slot) (s : State) : Host.Outcome State Fault Refusal :=
  match slot with
  | .bus t => runWord .host (t.setWidth 56) s
  | .codeword f w => if f = .host then .refused .reservedCodeword else runWord f w s
  | .quiet => encoderTurn s
  | .reset => .next (hardReset s)

/-- One step of the system, untimed (log 11): "one host bus access or, while status = Encoding, one encoder iteration" (R54).
The schedule says which; when it has run out, the host is silent and the encoder takes its turn. -/
def step (s : State) : Host.Outcome State Fault Refusal :=
  match s.queue with
  | [] => encoderTurn s
  | slot :: rest => runSlot slot { s with queue := rest }

/-- The scheme in which a format's units are emitted (R76); none for a bus transaction.
A CTX unit runs in C40 here. -/
def emittedIn (i : Instr) : Option Scheme :=
  match i.format with
  | .host => none
  | .cw8 => if i = .ctxUnlatch then some .c40 else some .ascii
  | .asciiUs | .pad => some .ascii
  | .ctx16 => some .c40
  | .edi24 | .ediSlot => some .edifact
  | .b256H1 | .b256H2 | .b256D => some .base256

/-- An encode that runs in the scheme `t`: START's registers, then the latch (R100, R115). -/
def encodeIn (t : Scheme) (s : State) : State := (changeScheme t .explicit (startState s)).state

/-- The schedule entry of a word the decoder refuses: the word under the first format of its width, which refuses it. -/
def refusedSlot (nbits w : Nat) : Slot :=
  match tableFormats nbits with
  | f :: _ => if w < 2 ^ nbits then .codeword f (BitVec.ofNat 56 w) else .codeword .pad 0#56
  | [] => .codeword .pad 0#56

/-- Place the word at the head of the schedule, where the step takes what it runs next (log 6).
A codeword unit is emitted only by a running encode in its scheme, so where no such encode runs it is begun and latched first. -/
def State.withFetchWord (s : State) (nbits w : Nat) : State :=
  match tableReading nbits w with
  | none => { s with queue := refusedSlot nbits w :: s.queue }
  | some (f, i) =>
    match emittedIn i with
    | none => { s with queue := .bus (BitVec.ofNat 49 w) :: s.queue }
    | some t =>
      if s.status = .encoding ∧ s.scheme = t then { s with queue := .codeword f (BitVec.ofNat 56 w) :: s.queue }
      else { encodeIn t s with queue := .codeword f (BitVec.ofNat 56 w) :: s.queue }

end Sys2Proof.Machine
end

