-- ==== Sys2Proof/Safety.lean ====
section
/-! DEFINITION. Safety.lean: the terms in which claims speak of the whole machine: what the counters, the registers and the RAMs
satisfy between steps (spec R5, R12, R13, R21, R22, R24, R41, R42, R161), what the outcome registers satisfy (R62, R63, R104, R112, R271, R272),
and what a safe step is. -/

namespace Sys2Proof.Machine

/-- A schedule entry that the world outside the block can cause: a bus access, silence, or a hardware reset; not a codeword unit
(log 5). -/
def Slot.isHosts : Slot → Bool
  | .bus _ => true
  | .quiet => true
  | .reset => true
  | .codeword _ _ => false

/-- The relation of R24 between the chain counters, with the Base256 payload bounds of R73 and R230. -/
abbrev chainRelation (t : Scheme) (words values : Nat) : Prop :=
  (t = .ascii → words = values) ∧
  ((ctxSetOf t).isSome = true → values % 3 = 0 ∧ 3 * words = 2 * values) ∧
  (t = .edifact → words + values / 4 = values) ∧
  (t = .base256 → (words = values + 1 ∧ values ≤ 249) ∨ (words = values + 2 ∧ 250 ≤ values ∧ values ≤ 1749))

/-- What holds between steps while an encode runs: the frozen configuration passed START_CHECKS (R101), the cursor and the output
length are in range (R12, R13), the output is the chain after at most one latch (R106, R115), the counters are related (R24), the
CTX buffer is empty (R21), and the scheme is Ascii before the first iteration and the target after it (R106). -/
abbrev encodeRunning (s : State) : Prop :=
  startCheck s = none ∧
  s.inNext.toNat ≤ s.inLen.toNat ∧
  s.outLen.toNat ≤ s.params.outCap ∧
  s.outLen.toNat = s.chainWords.toNat + (if s.scheme = .ascii then 0 else 1) ∧
  chainRelation s.scheme s.chainWords.toNat s.chainValues.toNat ∧
  (s.ctxN = 0#3 ∧ s.ctxLastn = 0#3) ∧
  (s.latched = false → s.scheme = .ascii ∧ s.outLen = 0#16 ∧ s.inNext = 0#16) ∧
  (s.latched = true → schemeCode s.scheme = s.target)

/-- The invariant of the machine: legal parameters (R5), both RAMs in canonical form (R41, R42), the fourth CTX entry never written
(R161), a schedule only the outside world can cause, and `encodeRunning` while an encode runs. -/
abbrev MachineInv (s : State) : Prop :=
  s.params.ok ∧
  Memory.wf s.params.inCap s.inMem ∧
  Memory.wf s.params.outCap s.outMem ∧
  s.ctxBuf[3] = 0#6 ∧
  (∀ slot ∈ s.queue, slot.isHosts = true) ∧
  (s.status = .encoding → encodeRunning s)

/-- An Invalid reason that R271 does not call unreachable. -/
def Reason.isReachableInvalid : Reason → Bool
  | .edifactChar | .x12Char | .x12Extended | .sizeUndefined | .outOverflow | .inTooLong | .b256TooLong => true
  | .none | .ctxUnlatchBoundary | .entryScheme | .badTarget | .badHint | .b256Header | .sizeMismatch | .inputRemains
  | .relatch => false

/-- A Fatal reason that R272 does not call unreachable. -/
def Reason.isReachableFatal : Reason → Bool
  | .badTarget | .badHint => true
  | .none | .edifactChar | .x12Char | .x12Extended | .ctxUnlatchBoundary | .sizeUndefined | .outOverflow | .inTooLong
  | .b256TooLong | .entryScheme | .b256Header | .sizeMismatch | .inputRemains | .relatch => false

/-- What the outcome registers hold at each status: a reason exactly after a failure, of its class (R63, R271, R272), and a size index
exactly after success, that of a symbol the output fills (R104, R112). -/
abbrev outcomeConsistent (s : State) : Prop :=
  ((s.status = .idle ∨ s.status = .encoding) → s.reason = .none ∧ s.sizeIdx = Config.undefCode) ∧
  (s.status = .complete →
    s.reason = .none ∧ s.sizeIdx.toNat < s.params.nSizes ∧ s.outLen.toNat = dw s.params s.sizeIdx.toNat) ∧
  (s.status = .invalid → s.reason.isReachableInvalid = true ∧ s.sizeIdx = Config.undefCode) ∧
  (s.status = .fatal → s.reason.isReachableFatal = true ∧ s.sizeIdx = Config.undefCode)

/-- A safe step: the machine goes on; it neither faults nor refuses. -/
def stepIsSafe (s : State) : Prop := ∃ t, step s = .next t

/-- `t` is `s` with the codewords `cws` appended to the output, `values` counted, and nothing else changed: every register but the
three counts, every byte of `IN`, and every byte of `OUT` outside the appended ones (R7, R43). -/
def appended (s t : State) (cws : List Byte) (values : Nat) : Prop :=
  t = { s with
    outMem := t.outMem
    outLen := s.outLen + BitVec.ofNat 16 cws.length
    chainWords := s.chainWords + BitVec.ofNat 16 cws.length
    chainValues := s.chainValues + BitVec.ofNat 16 values } ∧
  (∀ j, j < cws.length → readOut t (s.outLen.toNat + j) = cws.getD j 0#8) ∧
  (∀ a, (a < s.outLen.toNat ∨ s.outLen.toNat + cws.length ≤ a) → readOut t a = readOut s a)

/-- The output of `t` from index `from0` up to `upTo` is a run of pads: 129, then the randomized pads of their positions (R137). -/
def paddedRun (t : State) (from0 upTo : Nat) : Prop :=
  ∀ i, from0 ≤ i → i < upTo → readOut t i = if i = from0 then 129#8 else rand253 129#8 (i + 1)

/-- The nominal Base256 byte stored at an index (R74, R253). -/
def nominal (s : State) (i : Nat) : Byte := unrand255 (readOut s i) (i + 1)

/-- The machine as the encoder sees it: without the host's schedule, the words returned to the host and the counter of unspecified
reads. -/
def encoderView (s : State) : State := { s with queue := [], returned := [], freeCtr := 0 }

/-- The CTX values of some bytes, in the order of the bytes (R150), if every one of them has values. -/
def expandAll (k : CtxSet) : List Byte → Option (List CtxValue)
  | [] => some []
  | b :: rest =>
    match expand k b, expandAll k rest with
    | .ok vals, some more => some (vals ++ more)
    | .ok _, none => none
    | .error _, _ => none

/-- The next `n` input bytes have the values `vals`, and after none of the bytes before the last is there a triplet boundary: what
`CTX_CHUNK` takes in one go (R162). -/
def ctxTakes (k : CtxSet) (s : State) (n : Nat) (vals : List CtxValue) : Prop :=
  s.inNext.toNat + n ≤ s.inLen.toNat ∧ expandAll k (inputFrom s s.inNext.toNat n) = some vals ∧
  ∀ m v, 1 ≤ m → m < n → expandAll k (inputFrom s s.inNext.toNat m) = some v → v.length % 3 ≠ 0

/-- How many of the `left` values in the buffer came from the last of `n` taken bytes (R21). -/
def ctxLastCount (k : CtxSet) (s : State) (n left : Nat) : BitVec 3 :=
  match expand k (readIn s (s.inNext.toNat + n - 1)) with
  | .ok vals => BitVec.ofNat 3 (min left vals.length)
  | .error _ => 0#3

/-- What an iteration does in the scheme `t` after the scheme step: the EDIFACT pre-check, the chunk and the completion (R105, R107 to
R109). -/
def schemeTurn (t : Scheme) (s : State) : Flow :=
  match t with
  | .ascii => (asciiChunk s).andThen asciiComplete
  | .c40 => (ctxChunk .c40 s).andThen ctxComplete
  | .text => (ctxChunk .text s).andThen ctxComplete
  | .x12 => (ctxChunk .x12 s).andThen ctxComplete
  | .edifact => (ediEnd s).andThen fun s => (ediChunk s).andThen ediEnd
  | .base256 => (b256Chunk s).andThen b256Complete

/-- `ASCII_CHUNK` repeated `n` times (R136). -/
def asciiChunks : Nat → State → Flow
  | 0, s => .go s
  | n + 1, s => (asciiChunk s).andThen (asciiChunks n)

end Sys2Proof.Machine
end

