-- ==== Sys2Proof/Certificates/Slice0/Obligations.lean ====
section
/-! DEFINITION. Certificates/Slice0/Obligations.lean: the statements about the model, each after the rules of the spec its docstring
names. -/

open Sys2Proof Sys2Proof.Machine

/-! ### Encoding and the step -/

/-- Every well-formed instruction of every row decodes from its own encoding, with every operand (R65 to R75). -/
def Obligations.DecodeEncodeRoundTrip : Prop :=
  ∀ i : Instr, i.wellFormed = true → decode i.format (encode i) = .ok i

/-- Every 49-bit transaction decodes, to a well-formed `HOST` instruction: "No host encoding traps" (R66, R78). -/
def Obligations.EveryBusTransactionDecodes : Prop :=
  ∀ t : BitVec 49, decode .host (t.setWidth 56) = .ok (decodeHost t) ∧
    (decodeHost t).format = .host ∧ (decodeHost t).wellFormed = true

/-- Decoding drops no bit of a write, and of a read only DATA, which R65 says is 0 (R65, R66).
That a read with other DATA is the same read is the model's reading (log 10). -/
def Obligations.BusDecodingDropsOnlyReadData : Prop :=
  ∀ t : BitVec 49, encode (decodeHost t) =
    if t.getLsbD 48 then t.setWidth 56 else (t &&& 0x1FFFF00000000#49).setWidth 56

/-- Words written out from the encodings of R65 to R75 and from the programs P1 to P5 decode to what they stand for. -/
def Obligations.SpecWordsDecode : Prop :=
  decode .host 0x1000000000001#56 = .ok (.start 0#31) ∧
  decode .host 0x1000000000002#56 = .ok (.wrCtrlNop 1#31) ∧
  decode .host 0x1100200000004D#56 = .error .tooWide ∧
  decode .host 0x110020000004D#56 = .ok (.wrInMem 2#12 0x4D#32) ∧
  decode .host 0x100020000FF00#56 = .ok (.wrHint 0xFF00#32) ∧
  decode .host 0x0201000000000#56 = .ok (.rdOutMem 0x10#12) ∧
  decode .host 0x0001200000000#56 = .ok .rdDbgChain ∧
  decode .host 0x0000A00000000#56 = .ok (.rdUnmapped 0xA#16) ∧
  decode .cw8 142#56 = .ok (.cwDigitPair 142#8) ∧
  decode .cw8 231#56 = .ok .cwLatchBase256 ∧
  decode .cw8 232#56 = .error .reservedCodeword ∧
  decode .asciiUs 0xEB80#56 = .ok (.cwUpperShift 128#8) ∧
  decode .ctx16 0x5B0B#56 = .ok (.ctx16Triplet 23307#16) ∧
  decode .edi24 0x0420C4#56 = .ok (.edi24Quad 1#6 2#6 3#6 4#6) ∧
  decode .b256H2 0x26C6#56 = .ok (.b256H2 38#8 198#8) ∧
  decode .pad 175#56 = .ok (.padRandom 175#8)

/-- The step takes the next entry of the host's schedule: a transaction or a unit runs as the instruction it decodes to, in the state
whose schedule has moved past it; a unit with reserved bits, or in the bus format, is refused; silence and an empty schedule leave the step to the encoder;
a reset resets.
R54 gives one host access or one encoder iteration a step.
The model's choices are the schedule that says which, its empty end and its silent entries (log 4); codeword units as entries of it, and
their refusal (log 5); and a hardware reset as an entry of it (log 13). -/
def Obligations.StepRunsTheDecodedInstruction : Prop :=
  (∀ (s : State) (t : BitVec 49) (rest : List Slot) (i : Instr), s.queue = .bus t :: rest →
    decode .host (t.setWidth 56) = .ok i → step s = exec i { s with queue := rest }) ∧
  (∀ (s : State) (f : Format) (w : Raw) (rest : List Slot) (i : Instr), s.queue = .codeword f w :: rest → f ≠ .host →
    decode f w = .ok i → step s = exec i { s with queue := rest }) ∧
  (∀ (s : State) (f : Format) (w : Raw) (rest : List Slot) (e : DecodeError), s.queue = .codeword f w :: rest →
    decode f w = .error e → step s = .refused .reservedCodeword) ∧
  (∀ (s : State) (w : Raw) (rest : List Slot), s.queue = .codeword .host w :: rest →
    step s = .refused .reservedCodeword) ∧
  (∀ (s : State) (rest : List Slot), s.queue = .quiet :: rest → step s = encoderTurn { s with queue := rest }) ∧
  (∀ (s : State) (rest : List Slot), s.queue = .reset :: rest → step s = .next (hardReset { s with queue := rest })) ∧
  (∀ s : State, s.queue = [] → step s = encoderTurn s)

/-! ### Reset and START -/

/-- The hardware reset values of R300: at State.reset, and after a reset step from any state, where the parameters stay.
Every byte of both RAMs is a free byte; that the draw of a later reset is a new one (log 3), and that a reset is taken in any state and
ends a running encode (log 13), are the model's readings. -/
def Obligations.HardwareResetValues : Prop :=
  ∀ s t : State, (t = State.reset ∨ t = hardReset s) →
    t.status = .idle ∧ t.reason = .none ∧ t.sizeIdx = 0xFF#8 ∧ t.outLen = 0#16 ∧ t.inNext = 0#16 ∧ t.scheme = .ascii ∧
    t.chainWords = 0#16 ∧ t.chainValues = 0#16 ∧ t.ctxBuf = #v[0#6, 0#6, 0#6, 0#6] ∧ t.ctxN = 0#3 ∧ t.ctxLastn = 0#3 ∧
    t.latched = false ∧ t.target = 0#3 ∧ t.hint = 0xFF#8 ∧ t.inLen = 0#16 ∧
    (∀ i, readIn t i = Config.inResetByte t.draw i) ∧ (∀ i, readOut t i = Config.outResetByte t.draw i) ∧
    (t = hardReset s → t.params = s.params ∧ t.draw = s.draw + 1)

/-- START outside an encode (R100, R101): the stream is made anew, `OUT` and the configuration stay, and the first failing check of
the three, in their order, ends the encode at once. -/
def Obligations.StartBeginsAnEncode : Prop :=
  ∀ (hi : BitVec 31) (s : State), s.status ≠ .encoding →
    exec (.start hi) s = .next { s with
      outLen := 0#16
      inNext := 0#16
      scheme := .ascii
      chainWords := 0#16
      chainValues := 0#16
      ctxN := 0#3
      ctxLastn := 0#3
      ctxBuf := #v[0#6, 0#6, 0#6, 0#6]
      latched := false
      sizeIdx := 0xFF#8
      status :=
        if 6 ≤ s.target.toNat then .fatal
        else if s.hint ≠ 0xFF#8 ∧ s.params.nSizes ≤ s.hint.toNat then .fatal
        else if s.params.inCap < s.inLen.toNat then .invalid
        else .encoding
      reason :=
        if 6 ≤ s.target.toNat then .badTarget
        else if s.hint ≠ 0xFF#8 ∧ s.params.nSizes ≤ s.hint.toNat then .badHint
        else if s.params.inCap < s.inLen.toNat then .inTooLong
        else .none }

/-- START during an encode is ignored (R102); a CTRL write with `DATA[0] = 0` has no effect at any time, and CTRL reads 0 (R103). -/
def Obligations.CtrlWritesWithoutEffect : Prop :=
  (∀ (hi : BitVec 31) (s : State), s.status = .encoding → exec (.start hi) s = .next s) ∧
  (∀ (hi : BitVec 31) (s : State), exec (.wrCtrlNop hi) s = .next s) ∧
  (∀ s : State, exec .rdCtrl s = .next { s with returned := 0#32 :: s.returned })

/-! ### Host writes -/

/-- The configuration writes take the low bits of DATA while no encode runs (R66), and are ignored while one does (R304). -/
def Obligations.ConfigurationWrites : Prop :=
  ∀ (d : Word) (s : State),
    (s.status ≠ .encoding →
      exec (.wrTarget d) s = .next { s with target := BitVec.ofNat 3 (d.toNat % 8) } ∧
      exec (.wrHint d) s = .next { s with hint := BitVec.ofNat 8 (d.toNat % 256) } ∧
      exec (.wrInLen d) s = .next { s with inLen := BitVec.ofNat 16 (d.toNat % 65536) }) ∧
    (s.status = .encoding →
      exec (.wrTarget d) s = .next s ∧ exec (.wrHint d) s = .next s ∧ exec (.wrInLen d) s = .next s)

/-- A write of IN_MEM[i] outside an encode stores the low byte at `i < IN_CAP` and changes nothing else (R66); during an encode
(R304), or at `i ≥ IN_CAP` (R49), it changes nothing. -/
def Obligations.InputByteWrites : Prop :=
  ∀ (i : BitVec 12) (d : Word) (s : State),
    (s.status ≠ .encoding → i.toNat < s.params.inCap →
      ∃ t, exec (.wrInMem i d) s = .next t ∧ t = { s with inMem := t.inMem } ∧
        readIn t i.toNat = BitVec.ofNat 8 (d.toNat % 256) ∧ ∀ a, a ≠ i.toNat → readIn t a = readIn s a) ∧
    ((s.status = .encoding ∨ s.params.inCap ≤ i.toNat) → exec (.wrInMem i d) s = .next s)

/-- Writes to read-only registers, to OUT_MEM and to unmapped addresses are ignored (R49). -/
def Obligations.IgnoredWrites : Prop :=
  ∀ (i : BitVec 12) (a : Addr) (d : Word) (s : State),
    exec (.wrStatus d) s = .next s ∧ exec (.wrReason d) s = .next s ∧ exec (.wrSizeIdx d) s = .next s ∧
    exec (.wrOutLen d) s = .next s ∧ exec (.wrCaps d) s = .next s ∧ exec (.wrNsizes d) s = .next s ∧
    exec (.wrDbgCursor d) s = .next s ∧ exec (.wrDbgScheme d) s = .next s ∧ exec (.wrDbgChain d) s = .next s ∧
    exec (.wrDbgCtx d) s = .next s ∧ exec (.wrOutMem i d) s = .next s ∧ exec (.wrUnmapped a d) s = .next s

/-- While an encode runs, every write transaction whatsoever is ignored, START included (R304). -/
def Obligations.WritesWhileEncodingAreIgnored : Prop :=
  ∀ (s : State) (t : BitVec 49) (rest : List Slot), s.queue = .bus t :: rest → t.getLsbD 48 = true →
    s.status = .encoding → step s = .next { s with queue := rest }

/-! ### Host reads -/

/-- Reads of the registers that keep their value during an encode answer the fields of R26 at any time (R305), and have no other
effect (R51). -/
def Obligations.ReadsOfStoredRegisters : Prop :=
  ∀ (i : BitVec 12) (a : Addr) (s : State),
    exec .rdCtrl s = .next { s with returned := 0#32 :: s.returned } ∧
    exec .rdTarget s = .next { s with returned := BitVec.ofNat 32 s.target.toNat :: s.returned } ∧
    exec .rdHint s = .next { s with returned := BitVec.ofNat 32 s.hint.toNat :: s.returned } ∧
    exec .rdInLen s = .next { s with returned := BitVec.ofNat 32 s.inLen.toNat :: s.returned } ∧
    exec .rdStatus s = .next { s with
      returned := BitVec.ofNat 32 ((statusCode s.status).toNat +
        if s.status = .complete ∨ s.status = .invalid ∨ s.status = .fatal then 8 else 0) :: s.returned } ∧
    (s.params.ok → exec .rdCaps s =
      .next { s with returned := BitVec.ofNat 32 (s.params.inCap + 65536 * s.params.outCap) :: s.returned }) ∧
    (s.params.ok → exec .rdNsizes s = .next { s with returned := BitVec.ofNat 32 s.params.symDw.length :: s.returned }) ∧
    (i.toNat < s.params.inCap →
      exec (.rdInMem i) s = .next { s with returned := BitVec.ofNat 32 (readIn s i.toNat).toNat :: s.returned }) ∧
    (s.params.inCap ≤ i.toNat → exec (.rdInMem i) s = .next { s with returned := 0#32 :: s.returned }) ∧
    exec (.rdUnmapped a) s = .next { s with returned := 0#32 :: s.returned }

/-- Once no encode runs, the result and debug registers and the output below `out_len` read as the rules left them (R26, R305). -/
def Obligations.ReadsOfResultRegisters : Prop :=
  ∀ (i : BitVec 12) (s : State), s.status ≠ .encoding →
    exec .rdReason s = .next { s with returned := BitVec.ofNat 32 (reasonCode s.reason).toNat :: s.returned } ∧
    exec .rdSizeIdx s = .next { s with returned := BitVec.ofNat 32 s.sizeIdx.toNat :: s.returned } ∧
    exec .rdOutLen s = .next { s with returned := BitVec.ofNat 32 s.outLen.toNat :: s.returned } ∧
    exec .rdDbgCursor s = .next { s with returned := BitVec.ofNat 32 s.inNext.toNat :: s.returned } ∧
    exec .rdDbgScheme s = .next { s with
      returned := BitVec.ofNat 32 ((schemeCode s.scheme).toNat + if s.latched then 8 else 0) :: s.returned } ∧
    exec .rdDbgChain s = .next { s with
      returned := BitVec.ofNat 32 (s.chainWords.toNat + 65536 * s.chainValues.toNat) :: s.returned } ∧
    exec .rdDbgCtx s = .next { s with returned := BitVec.ofNat 32 (s.ctxN.toNat + 16 * s.ctxLastn.toNat) :: s.returned } ∧
    (i.toNat < s.outLen.toNat → i.toNat < s.params.outCap →
      exec (.rdOutMem i) s = .next { s with returned := BitVec.ofNat 32 (readOut s i.toNat).toNat :: s.returned }) ∧
    (s.params.outCap ≤ i.toNat → exec (.rdOutMem i) s = .next { s with returned := 0#32 :: s.returned })

/-- While an encode runs, a read of the result and debug registers and of OUT_MEM answers some word with the reserved bits 0, and
changes nothing of the machine (R305); so does a read of OUT at and above `out_len` at any time (R42, log 9). -/
def Obligations.UnspecifiedReads : Prop :=
  ∀ (i : BitVec 12) (s : State),
    (s.status = .encoding →
      ∀ row ∈ [(Instr.rdReason, 0xFF#32), (.rdSizeIdx, 0xFF#32), (.rdOutLen, 0xFFFF#32), (.rdDbgCursor, 0xFFFF#32),
        (.rdDbgScheme, 0xF#32), (.rdDbgChain, 0xFFFFFFFF#32), (.rdDbgCtx, 0x77#32)],
        ∃ w : Word, w &&& ~~~row.2 = 0#32 ∧
          exec row.1 s = .next { s with returned := w :: s.returned, freeCtr := s.freeCtr + 1 }) ∧
    ((s.status = .encoding ∨ s.outLen.toNat ≤ i.toNat) → i.toNat < s.params.outCap →
      ∃ w : Word, w.toNat < 256 ∧
        exec (.rdOutMem i) s = .next { s with returned := w :: s.returned, freeCtr := s.freeCtr + 1 })

/-- A read transaction at any address, at any time, answers one word and changes nothing else of the machine (R51, R65). -/
def Obligations.ReadsHaveNoSideEffects : Prop :=
  ∀ (s : State) (t : BitVec 49) (rest : List Slot), s.queue = .bus t :: rest → t.getLsbD 48 = false →
    ∃ (w : Word) (n : Nat), step s = .next { s with queue := rest, returned := w :: s.returned, freeCtr := n }

/-! ### The encoder as a whole -/

/-- While no encode runs the encoder writes nothing (R111); only a host operation changes anything, and only a START begins an
encode. -/
def Obligations.EncoderIsFrozenOutsideAnEncode : Prop :=
  ∀ s : State, s.status ≠ .encoding →
    encoderTurn s = .next s ∧
    (∀ t, step s = .next t → t.status = .encoding →
      ∃ (w : BitVec 49) (rest : List Slot) (hi : BitVec 31), s.queue = .bus w :: rest ∧ decodeHost w = .start hi) ∧
    (∀ t, step s = .next t → (∀ w rest, s.queue ≠ .bus w :: rest) → (∀ rest, s.queue ≠ .reset :: rest) →
      t = { s with queue := s.queue.tail })

/-- An iteration writes neither the configuration (R20) nor the input RAM (R41), nor the parameters, nor anything of the host's. -/
def Obligations.IterationKeepsConfigurationAndInput : Prop :=
  ∀ s t : State, encoderTurn s = .next t →
    t.params = s.params ∧ t.target = s.target ∧ t.hint = s.hint ∧ t.inLen = s.inLen ∧ t.inMem = s.inMem ∧
    t.queue = s.queue ∧ t.returned = s.returned ∧ t.freeCtr = s.freeCtr ∧ t.draw = s.draw

/-- What an iteration does depends on nothing the host's reads leave behind, so host accesses between two iterations do not change
an encode (R54, R309). -/
def Obligations.IterationIgnoresTheHostSide : Prop :=
  ∀ s u : State, encoderView s = encoderView u →
    (∀ s', encoderTurn s = .next s' → ∃ u', encoderTurn u = .next u' ∧ encoderView u' = encoderView s') ∧
    (∀ f, encoderTurn s = .fault f → encoderTurn u = .fault f)

/-- The machine invariant holds after reset. -/
def Obligations.ResetMeetsTheMachineInvariant : Prop := MachineInv State.reset ∧ outcomeConsistent State.reset

/-- Every step keeps the machine invariant: legal parameters, canonical RAMs, and, while an encode runs, the ranges of R12 and R13, the
counter relations of R24, the empty CTX buffer of R21 and the scheme of R106. -/
def Obligations.EveryStepKeepsTheMachineInvariant : Prop :=
  ∀ s t : State, MachineInv s → step s = .next t → MachineInv t

/-- Every step keeps the outcome registers consistent; so the reasons R271 and R272 call unreachable are never raised, a failure has
no size, and a completed output fills its symbol (R63, R104, R112). -/
def Obligations.EveryStepKeepsTheOutcomeConsistent : Prop :=
  ∀ s t : State, MachineInv s → outcomeConsistent s → step s = .next t → outcomeConsistent t

/-- Under the invariant no step faults and none refuses: no address traps (R49) and the encoder never stands still. -/
def Obligations.NoStepStops : Prop := ∀ s : State, MachineInv s → stepIsSafe s

/-- What an iteration is made of, and that it consumes input or ends the encode.
The scheme step comes first: in the target scheme it sets `latched`; in Ascii before the first latch it changes to the target; elsewhere
it is one of its two Fatal guards (R105, R106).
Then the pre-check, chunk and completion of the target's own scheme run, EDIFACT's end test before its chunk as well as after
it (R107, R108, R109).
Under the invariant an iteration that does not end the encode consumes input (R113). -/
def Obligations.IterationConsumesInputOrEnds : Prop :=
  (∀ (s : State) (goal : Scheme), s.status = .encoding → startCheck s = none → schemeOfCode s.target = some goal →
    (s.scheme = goal → encoderTurn s = .next (schemeTurn goal { s with latched := true }).state) ∧
    (s.scheme ≠ goal → s.latched = false → s.scheme = .ascii → encoderTurn s =
      .next ((changeScheme goal .explicit s).andThen fun u => schemeTurn goal { u with latched := true }).state) ∧
    (s.scheme ≠ goal → s.latched = true → encoderTurn s = .next { s with status := .fatal, reason := .relatch }) ∧
    (s.scheme ≠ goal → s.latched = false → s.scheme ≠ .ascii →
      encoderTurn s = .next { s with status := .fatal, reason := .entryScheme })) ∧
  (∀ s t : State, MachineInv s → s.status = .encoding → encoderTurn s = .next t → t.status = .encoding →
    s.inNext.toNat < t.inNext.toNat)

/-- An encode ends within `in_len + 1` iterations (R113); here, within one more than the input that remains. -/
def Obligations.EncodeEndsWithinTheBound : Prop :=
  ∀ s : State, MachineInv s → s.status = .encoding → s.queue = [] →
    ∃ t : State, Host.Core.run Sys2Proof.core (s.inLen.toNat - s.inNext.toNat + 1) s = .next t ∧ t.status ≠ .encoding

/-- When an iteration completes the encode, all input is consumed and the output has exactly the data words of its size
(R112, R114). -/
def Obligations.CompletionConsumesInputAndFillsTheSymbol : Prop :=
  ∀ s t : State, MachineInv s → s.status = .encoding → encoderTurn s = .next t → t.status = .complete →
    t.inNext = t.inLen ∧ t.sizeIdx.toNat < t.params.nSizes ∧ t.outLen.toNat = dw t.params t.sizeIdx.toNat

/-- The first codeword of an encode to a scheme other than Ascii is that scheme's latch, from the first iteration to the end, whatever
the end path (R106, R118). -/
def Obligations.LatchIsTheFirstCodeword : Prop :=
  ∀ (s t : State) (goal : Scheme) (c : Byte), MachineInv s → s.status = .encoding →
    schemeOfCode s.target = some goal → latchCodeword goal = some c → (s.latched = true → readOut s 0 = c) →
    encoderTurn s = .next t → 0 < t.outLen.toNat ∧ readOut t 0 = c

/-! ### The scheme change and its rows -/

/-- The latch rows in a running Ascii chain with room: the latch is appended, the scheme is entered and a new chain begins
(R115, R118); the Base256 latch also appends its placeholder header (R119).
Without room for the latch nothing is written before the Invalid(OUT_OVERFLOW), and without room for the placeholder the latch and the
scheme stay (R43, R110).
That a latch row handed over alone is the whole scheme change (log 5) and leaves `latched` as it is (log 17) are the model's choices. -/
def Obligations.LatchRowsEnterTheirScheme : Prop :=
  ∀ s : State, s.params.ok → s.status = .encoding → s.scheme = .ascii →
    (s.outLen.toNat < s.params.outCap →
      ∀ row ∈ [(Instr.cwLatchC40, Scheme.c40, 230#8), (.cwLatchText, .text, 239#8), (.cwLatchX12, .x12, 238#8),
        (.cwLatchEdifact, .edifact, 240#8)],
        ∃ t, exec row.1 s = .next t ∧
          t = { s with outMem := t.outMem, outLen := s.outLen + 1#16, scheme := row.2.1, chainWords := 0#16, chainValues := 0#16 } ∧
          readOut t s.outLen.toNat = row.2.2 ∧ ∀ a, a ≠ s.outLen.toNat → readOut t a = readOut s a) ∧
    (s.outLen.toNat + 2 ≤ s.params.outCap →
      ∃ t, exec .cwLatchBase256 s = .next t ∧
        t = { s with outMem := t.outMem, outLen := s.outLen + 2#16, scheme := .base256, chainWords := 1#16, chainValues := 0#16 } ∧
        readOut t s.outLen.toNat = 231#8 ∧
        readOut t (s.outLen.toNat + 1) = BitVec.ofNat 8 ((149 * (s.outLen.toNat + 2)) % 255 + 1) ∧
        ∀ a, a ≠ s.outLen.toNat → a ≠ s.outLen.toNat + 1 → readOut t a = readOut s a) ∧
    (s.outLen.toNat = s.params.outCap →
      ∀ i ∈ [Instr.cwLatchC40, .cwLatchText, .cwLatchX12, .cwLatchEdifact, .cwLatchBase256],
        exec i s = .next { s with status := .invalid, reason := .outOverflow }) ∧
    (s.outLen.toNat + 1 = s.params.outCap →
      ∃ t, exec .cwLatchBase256 s = .next t ∧
        t = { s with
          outMem := t.outMem
          outLen := s.outLen + 1#16
          scheme := .base256
          chainWords := 0#16
          chainValues := 0#16
          status := .invalid
          reason := .outOverflow } ∧
        readOut t s.outLen.toNat = 231#8 ∧ ∀ a, a ≠ s.outLen.toNat → readOut t a = readOut s a)

/-- The CTX unlatch row: in a CTX chain of whole triplets it appends 254 and returns to Ascii with a new chain; off a triplet boundary
it is Invalid(CTX_UNLATCH_BOUNDARY) and writes nothing else, and so is
Invalid(OUT_OVERFLOW) at a boundary without room (R116, R115, R43, R110).
That the row handed over alone is the whole scheme change to Ascii (log 5), after which the encode goes on running without the finish of
R120 (log 17), and that values waiting in the buffer stay there (log 19), are the model's choices. -/
def Obligations.CtxUnlatchRow : Prop :=
  ∀ s : State, s.status = .encoding → (s.scheme = .c40 ∨ s.scheme = .text ∨ s.scheme = .x12) →
    (s.chainValues.toNat % 3 = 0 → s.outLen.toNat < s.params.outCap →
      ∃ t, exec .ctxUnlatch s = .next t ∧
        t = { s with outMem := t.outMem, outLen := s.outLen + 1#16, scheme := .ascii, chainWords := 0#16, chainValues := 0#16 } ∧
        readOut t s.outLen.toNat = 254#8 ∧ ∀ a, a ≠ s.outLen.toNat → readOut t a = readOut s a) ∧
    (s.chainValues.toNat % 3 ≠ 0 →
      exec .ctxUnlatch s = .next { s with status := .invalid, reason := .ctxUnlatchBoundary }) ∧
    (s.chainValues.toNat % 3 = 0 → s.outLen.toNat = s.params.outCap →
      exec .ctxUnlatch s = .next { s with status := .invalid, reason := .outOverflow })

/-- The EDIFACT unlatch row at each phase: 31 is packed into the bits in flight; phase 3 adds no codeword, the others add one with
its unused bits 0; the scheme is then Ascii with a new chain (R117, R192, R115).
Without room for the codeword of phases 0 to 2, the bits set in the last one stay and the rest is Invalid(OUT_OVERFLOW) (R43, R110).
That the row handed over alone is the whole scheme change to Ascii (log 5), after which the encode goes on running without the finish of
R120 (log 17), are the model's choices. -/
def Obligations.EdifactUnlatchRow : Prop :=
  ∀ s : State, s.status = .encoding → s.scheme = .edifact → 0 < s.outLen.toNat →
    let inFlight := readOut s (s.outLen.toNat - 1) |||
      (if s.chainValues.toNat % 4 = 0 then 0#8 else if s.chainValues.toNat % 4 = 1 then 1#8
        else if s.chainValues.toNat % 4 = 2 then 7#8 else 31#8)
    (s.outLen.toNat < s.params.outCap ∨ s.chainValues.toNat % 4 = 3 →
      ∃ t, exec .ediUnlatch s = .next t ∧
        t = { s with outMem := t.outMem, outLen := t.outLen, scheme := .ascii, chainWords := 0#16, chainValues := 0#16 } ∧
        t.outLen = (if s.chainValues.toNat % 4 = 3 then s.outLen else s.outLen + 1#16) ∧
        readOut t (s.outLen.toNat - 1) = inFlight ∧
        (s.chainValues.toNat % 4 ≠ 3 → readOut t s.outLen.toNat =
          if s.chainValues.toNat % 4 = 0 then 124#8 else if s.chainValues.toNat % 4 = 1 then 240#8 else 192#8) ∧
        ∀ a, a ≠ s.outLen.toNat - 1 → (a ≠ s.outLen.toNat ∨ s.chainValues.toNat % 4 = 3) → readOut t a = readOut s a) ∧
    (s.outLen.toNat = s.params.outCap → s.chainValues.toNat % 4 ≠ 3 →
      ∃ t, exec .ediUnlatch s = .next t ∧
        t = { s with outMem := t.outMem, status := .invalid, reason := .outOverflow } ∧
        readOut t (s.outLen.toNat - 1) = inFlight ∧ ∀ a, a ≠ s.outLen.toNat - 1 → readOut t a = readOut s a)

/-- A codeword unit changes nothing outside an encode (R111), and none outside the scheme it is emitted in; the latter is the model's
reading of R76 and R77 (log 5). -/
def Obligations.CodewordUnitsOutsideTheirPlace : Prop :=
  ∀ (i : Instr) (s : State), i.format ≠ .host →
    (s.status ≠ .encoding → exec i s = .next s) ∧
    (∀ t : Scheme, emittedIn i = some t → s.scheme ≠ t → (t = .c40 → ctxSetOf s.scheme = none) → exec i s = .next s)

/-! ### ASCII -/

/-- The ASCII-domain rows in a running Ascii chain: with room the codewords are appended as values and words of the chain (R132, R131,
R133, R135, R137); without room the encode ends Invalid(OUT_OVERFLOW) (R43).
That a pad value which is not the one of its position is not emitted at all (log 5), that a unit leaves `in_next` where it is
(log 14), and that a pad needs no pad before it and no exhausted input (log 20), are the model's choices. -/
def Obligations.AsciiRowsAppendTheirCodewords : Prop :=
  ∀ (c : Byte) (s : State), s.params.ok → s.status = .encoding → s.scheme = .ascii →
    (s.outLen.toNat < s.params.outCap →
      (∃ t, exec (.cwAsciiChar c) s = .next t ∧ appended s t [c] 1) ∧
      (∃ t, exec (.cwDigitPair c) s = .next t ∧ appended s t [c] 1) ∧
      (∃ t, exec .cwPadFirst s = .next t ∧ appended s t [129#8] 1) ∧
      (c = rand253 129#8 (s.outLen.toNat + 1) → ∃ t, exec (.padRandom c) s = .next t ∧ appended s t [c] 1)) ∧
    (c ≠ rand253 129#8 (s.outLen.toNat + 1) → exec (.padRandom c) s = .next s) ∧
    (s.outLen.toNat + 2 ≤ s.params.outCap →
      ∃ t, exec (.cwUpperShift c) s = .next t ∧ appended s t [235#8, c] 2) ∧
    (s.outLen.toNat = s.params.outCap →
      exec (.cwAsciiChar c) s = .next { s with status := .invalid, reason := .outOverflow } ∧
      exec (.cwDigitPair c) s = .next { s with status := .invalid, reason := .outOverflow } ∧
      exec .cwPadFirst s = .next { s with status := .invalid, reason := .outOverflow } ∧
      exec (.cwUpperShift c) s = .next { s with status := .invalid, reason := .outOverflow } ∧
      (c = rand253 129#8 (s.outLen.toNat + 1) →
        exec (.padRandom c) s = .next { s with status := .invalid, reason := .outOverflow })) ∧
    (s.outLen.toNat + 1 = s.params.outCap →
      ∃ t, exec (.cwUpperShift c) s = .next t ∧
        t = { s with
          outMem := t.outMem
          outLen := s.outLen + 1#16
          chainWords := s.chainWords + 1#16
          chainValues := s.chainValues + 1#16
          status := .invalid
          reason := .outOverflow } ∧
        readOut t s.outLen.toNat = 235#8 ∧ ∀ a, a ≠ s.outLen.toNat → readOut t a = readOut s a)

/-- ASCII_CHUNK: a digit pair is one codeword of two bytes, a plain byte one codeword, an extended byte the upper shift and one more
(R131, R132, R133, R134). -/
def Obligations.AsciiChunkEncodesOneUnit : Prop :=
  ∀ s : State, (s.inNext = s.inLen → asciiChunk s = .go s) ∧
    (s.params.ok → s.inNext.toNat < s.inLen.toNat → s.outLen.toNat + 2 ≤ s.params.outCap →
    let b := (readIn s s.inNext.toNat).toNat
    let b' := (readIn s (s.inNext.toNat + 1)).toNat
    let pair := s.inNext.toNat + 1 < s.inLen.toNat ∧ (48 ≤ b ∧ b ≤ 57) ∧ (48 ≤ b' ∧ b' ≤ 57)
    (pair → ∃ t, appended s t [BitVec.ofNat 8 (10 * (b - 48) + (b' - 48) + 130)] 1 ∧
      asciiChunk s = .go { t with inNext := s.inNext + 2#16 }) ∧
    (¬ pair → b ≤ 127 → ∃ t, appended s t [BitVec.ofNat 8 (b + 1)] 1 ∧
      asciiChunk s = .go { t with inNext := s.inNext + 1#16 }) ∧
    (¬ pair → 128 ≤ b → ∃ t, appended s t [235#8, BitVec.ofNat 8 (b - 127)] 2 ∧
      asciiChunk s = .go { t with inNext := s.inNext + 1#16 }))

/-- Repeated ASCII_CHUNKs append exactly `ascii_encode` of the input that remains (R136). -/
def Obligations.RepeatedAsciiChunksAreAsciiEncode : Prop :=
  ∀ (s : State) (n : Nat), s.params.ok → s.inNext.toNat ≤ s.inLen.toNat → s.inLen.toNat - s.inNext.toNat ≤ n →
    s.outLen.toNat + (asciiEncode (remainingInput s)).length ≤ s.params.outCap →
    ∃ t, appended s t (asciiEncode (remainingInput s)) (asciiEncode (remainingInput s)).length ∧
      asciiChunks n s = .go { t with inNext := s.inLen }

/-- The codewords `ascii_encode` gives are in 1..229 or equal 235 (R139), and at most two for a byte. -/
def Obligations.AsciiEncodeBounds : Prop :=
  ∀ xs : List Byte,
    (∀ c ∈ asciiEncode xs, (1 ≤ c.toNat ∧ c.toNat ≤ 229) ∨ c = 235#8) ∧ (asciiEncode xs).length ≤ 2 * xs.length ∧
    xs.length ≤ 2 * (asciiEncode xs).length

/-- PAD(z) fills the output up to the data words of `z`: 129, then the randomized pads of their positions, each a value and a word of
the chain; nothing else is touched, and nothing at all if the output is already that long (R137). -/
def Obligations.PadFillsTheSymbol : Prop :=
  ∀ (s : State) (z : Nat), (dw s.params z ≤ s.outLen.toNat → pad z s = .go s) ∧
    (s.params.ok → z < s.params.nSizes → s.outLen.toNat ≤ dw s.params z →
    ∃ t, pad z s = .go t ∧
      t = { s with
        outMem := t.outMem
        outLen := BitVec.ofNat 16 (dw s.params z)
        chainWords := s.chainWords + BitVec.ofNat 16 (dw s.params z - s.outLen.toNat)
        chainValues := s.chainValues + BitVec.ofNat 16 (dw s.params z - s.outLen.toNat) } ∧
      paddedRun t s.outLen.toNat (dw s.params z) ∧
      ∀ a, (a < s.outLen.toNat ∨ dw s.params z ≤ a) → readOut t a = readOut s a)

/-- ASCII_COMPLETE does nothing while input remains; with the input exhausted: without a size Invalid(SIZE_UNDEFINED); else pads, and Complete in that size (R138). -/
def Obligations.AsciiCompletion : Prop :=
  ∀ s : State, (s.inNext.toNat < s.inLen.toNat → asciiComplete s = .go s) ∧
    (s.params.ok → s.inNext = s.inLen →
    (findSize s s.outLen.toNat = none →
      asciiComplete s = .ended { s with status := .invalid, reason := .sizeUndefined }) ∧
    (∀ z, findSize s s.outLen.toNat = some z →
      ∃ t, asciiComplete s = .ended t ∧
        t = { s with
          outMem := t.outMem
          outLen := BitVec.ofNat 16 (dw s.params z)
          chainWords := s.chainWords + BitVec.ofNat 16 (dw s.params z - s.outLen.toNat)
          chainValues := s.chainValues + BitVec.ofNat 16 (dw s.params z - s.outLen.toNat)
          status := .complete
          sizeIdx := BitVec.ofNat 8 z } ∧
        paddedRun t s.outLen.toNat (dw s.params z) ∧ ∀ a, a < s.outLen.toNat → readOut t a = readOut s a))

/-! ### C40, Text and X12 -/

/-- EXPAND gives 1 to 4 values, each 0..39, or an Invalid reason, which only X12 raises: X12_EXTENDED exactly from 128 on, X12_CHAR for
the other bytes outside its set; in X12 a byte of the set is one value (R150, R152, R157).
And the values are those of the tables: X12 (R152), the common part of C40 and Text (R153), the letters of C40 (R154) and of Text
(R155), and Shift2, 30 before an extended byte (R156). -/
def Obligations.ExpandShape : Prop :=
  (∀ (k : CtxSet) (b : Byte),
    match expand k b with
    | .ok vals => 1 ≤ vals.length ∧ vals.length ≤ 4 ∧ (∀ v ∈ vals, v.toNat ≤ 39) ∧ (k = .x12 → vals.length = 1 ∧
        (b ∈ [13#8, 42#8, 62#8, 32#8] ∨ (48 ≤ b.toNat ∧ b.toNat ≤ 57) ∨ (65 ≤ b.toNat ∧ b.toNat ≤ 90)))
    | .error r => k = .x12 ∧ (r = .x12Extended ∧ 128 ≤ b.toNat ∨ r = .x12Char ∧ b.toNat ≤ 127 ∧
        b ∉ [13#8, 42#8, 62#8, 32#8] ∧ ¬ (48 ≤ b.toNat ∧ b.toNat ≤ 57) ∧ ¬ (65 ≤ b.toNat ∧ b.toNat ≤ 90))) ∧
  (expand .x12 13#8 = .ok [0#6] ∧ expand .x12 42#8 = .ok [1#6] ∧ expand .x12 62#8 = .ok [2#6] ∧ expand .x12 32#8 = .ok [3#6]) ∧
  (∀ b : Byte,
    (48 ≤ b.toNat → b.toNat ≤ 57 → expand .x12 b = .ok [BitVec.ofNat 6 (b.toNat - 44)]) ∧
    (65 ≤ b.toNat → b.toNat ≤ 90 → expand .x12 b = .ok [BitVec.ofNat 6 (b.toNat - 51)])) ∧
  (∀ (k : CtxSet) (b : Byte), k ≠ .x12 →
    (b.toNat ≤ 31 → expand k b = .ok [0#6, BitVec.ofNat 6 b.toNat]) ∧
    (b.toNat = 32 → expand k b = .ok [3#6]) ∧
    (33 ≤ b.toNat → b.toNat ≤ 47 → expand k b = .ok [1#6, BitVec.ofNat 6 (b.toNat - 33)]) ∧
    (48 ≤ b.toNat → b.toNat ≤ 57 → expand k b = .ok [BitVec.ofNat 6 (b.toNat - 44)]) ∧
    (58 ≤ b.toNat → b.toNat ≤ 64 → expand k b = .ok [1#6, BitVec.ofNat 6 (b.toNat - 43)]) ∧
    (91 ≤ b.toNat → b.toNat ≤ 95 → expand k b = .ok [1#6, BitVec.ofNat 6 (b.toNat - 69)]) ∧
    (128 ≤ b.toNat → ∃ vals, expand k (b - 128#8) = .ok vals ∧ expand k b = .ok ([1#6, 30#6] ++ vals))) ∧
  (∀ b : Byte,
    (65 ≤ b.toNat → b.toNat ≤ 90 → expand .c40 b = .ok [BitVec.ofNat 6 (b.toNat - 51)] ∧
      expand .text b = .ok [2#6, BitVec.ofNat 6 (b.toNat - 64)]) ∧
    (96 ≤ b.toNat → b.toNat ≤ 127 → expand .c40 b = .ok [2#6, BitVec.ofNat 6 (b.toNat - 96)]) ∧
    (b.toNat = 96 → expand .text b = .ok [2#6, 0#6]) ∧
    (97 ≤ b.toNat → b.toNat ≤ 122 → expand .text b = .ok [BitVec.ofNat 6 (b.toNat - 83)]) ∧
    (123 ≤ b.toNat → b.toNat ≤ 127 → expand .text b = .ok [2#6, BitVec.ofNat 6 (b.toNat - 96)]))

/-- No two bytes of a character set have the same values, and none has values that begin another's: the value stream reads back in
one way (R151 to R158). -/
def Obligations.ExpandIsUniquelyReadable : Prop :=
  ∀ (k : CtxSet) (b b' : Byte) (vals more : List CtxValue), expand k b = .ok vals → expand k b' = .ok (vals ++ more) →
    b = b' ∧ more = []

/-- Three CTX values pack into `P` of 1..64000, whose first codeword is at most 250, and `P` gives them back (R70). -/
def Obligations.CtxPairBounds : Prop :=
  ∀ v0 v1 v2 : CtxValue, v0.toNat ≤ 39 → v1.toNat ≤ 39 → v2.toNat ≤ 39 →
    let p := (ctxPair v0 v1 v2).toNat
    p = 1600 * v0.toNat + 40 * v1.toNat + v2.toNat + 1 ∧ 1 ≤ p ∧ p ≤ 64000 ∧ p / 256 ≤ 250 ∧
    (p - 1) / 1600 = v0.toNat ∧ (p - 1) / 40 % 40 = v1.toNat ∧ (p - 1) % 40 = v2.toNat

/-- The triplet row in a running CTX chain: with room for both, the pair's two codewords, high byte first, two words and three values of
the chain, and an empty buffer (R160), whatever it held (log 19, the model's choice); with room for one, only the first codeword is appended before the Invalid(OUT_OVERFLOW), and
with none nothing is (R43, R110).
That the unit leaves `in_next` where it is is the model's choice (log 14). -/
def Obligations.CtxTripletRow : Prop :=
  ∀ (p : BitVec 16) (s : State), s.params.ok → s.status = .encoding →
    (s.scheme = .c40 ∨ s.scheme = .text ∨ s.scheme = .x12) →
    (s.outLen.toNat + 2 ≤ s.params.outCap →
      ∃ t, appended s t [BitVec.ofNat 8 (p.toNat / 256), BitVec.ofNat 8 (p.toNat % 256)] 3 ∧
        exec (.ctx16Triplet p) s = .next { t with ctxN := 0#3, ctxLastn := 0#3 }) ∧
    (s.outLen.toNat + 1 = s.params.outCap →
      ∃ t, exec (.ctx16Triplet p) s = .next t ∧
        t = { s with
          outMem := t.outMem
          outLen := s.outLen + 1#16
          chainWords := s.chainWords + 1#16
          status := .invalid
          reason := .outOverflow } ∧
        readOut t s.outLen.toNat = BitVec.ofNat 8 (p.toNat / 256) ∧ ∀ a, a ≠ s.outLen.toNat → readOut t a = readOut s a) ∧
    (s.outLen.toNat = s.params.outCap →
      exec (.ctx16Triplet p) s = .next { s with status := .invalid, reason := .outOverflow })

/-- Three pushes into an empty buffer emit the pair of the three values and leave the buffer empty, with its fourth entry
untouched (R159, R160, R161). -/
def Obligations.ThreePushesEmitOnePair : Prop :=
  ∀ (v0 v1 v2 : CtxValue) (s : State), s.params.ok → s.ctxN = 0#3 → s.outLen.toNat + 2 ≤ s.params.outCap →
    ∃ t u, ctxPushAll [v0, v1, v2] s = .go u ∧
      appended s t [BitVec.ofNat 8 ((1600 * v0.toNat + 40 * v1.toNat + v2.toNat + 1) / 256),
        BitVec.ofNat 8 ((1600 * v0.toNat + 40 * v1.toNat + v2.toNat + 1) % 256)] 3 ∧
      u = { t with ctxN := 0#3, ctxLastn := 0#3, ctxBuf := u.ctxBuf } ∧ u.ctxBuf[3] = s.ctxBuf[3]

/-- What a CTX chunk does from an empty buffer (R162): with no input left nothing; else it takes bytes up to the first triplet boundary
or the end of the input, pushes their EXPAND values in order, and moves `in_next` by those bytes.
At a boundary it goes on, its buffer empty; at the end of the input off a boundary it is CTX_PARTIAL (R163); a byte with no value ends it
there, `in_next` at that byte; an overflow of a push ends it with what the push left.
A chunk that goes on has emptied its buffer, whatever it took. -/
def Obligations.CtxChunkEndsWithAnEmptyBuffer : Prop :=
  ∀ (k : CtxSet) (s : State), s.ctxN = 0#3 → s.inNext.toNat ≤ s.inLen.toNat →
    (s.inNext = s.inLen → ctxChunk k s = .go s) ∧
    (∀ n vals t, 1 ≤ n → ctxTakes k s n vals → vals.length % 3 = 0 → ctxPushAll vals s = .go t →
      ctxChunk k s = .go { t with inNext := s.inNext + BitVec.ofNat 16 n }) ∧
    (∀ n vals t, 1 ≤ n → ctxTakes k s n vals → vals.length % 3 ≠ 0 → s.inNext.toNat + n = s.inLen.toNat →
      ctxPushAll vals s = .go t →
      ctxChunk k s = ctxPartial k { t with inNext := s.inLen, ctxLastn := ctxLastCount k s n t.ctxN.toNat }) ∧
    (∀ n vals t r, ctxTakes k s n vals → (n = 0 ∨ vals.length % 3 ≠ 0) → s.inNext.toNat + n < s.inLen.toNat →
      expand k (readIn s (s.inNext.toNat + n)) = .error r → ctxPushAll vals s = .go t →
      ctxChunk k s = .ended { t with
        inNext := s.inNext + BitVec.ofNat 16 n
        ctxLastn := if n = 0 then s.ctxLastn else ctxLastCount k s n t.ctxN.toNat
        status := .invalid
        reason := r }) ∧
    (∀ n vals t, 1 ≤ n → ctxTakes k s n vals → ctxPushAll vals s = .ended t →
      ∃ u, ctxChunk k s = .ended u ∧ u = { t with inNext := u.inNext, ctxLastn := u.ctxLastn }) ∧
    (∀ t, ctxChunk k s = .go t → t.ctxN = 0#3)

/-- A character error at the first byte of a chunk ends the encode with nothing written but status and reason, so `in_next` is the
index of the offending byte (R110, R162, R271). -/
def Obligations.CtxCharacterErrorIsPrecise : Prop :=
  ∀ (k : CtxSet) (s : State) (r : Reason), s.inNext.toNat < s.inLen.toNat →
    expand k (readIn s s.inNext.toNat) = .error r → ctxChunk k s = .ended { s with status := .invalid, reason := r }

/-- Case (b): two values left in C40 or Text and a symbol with exactly room for the pair: the triplet is padded with Shift1 and the
encode completes in that symbol, with no unlatch (R164). -/
def Obligations.CtxShiftPaddedTriplet : Prop :=
  ∀ (k : CtxSet) (s : State) (z : Nat), s.params.ok → k ≠ .x12 → s.ctxN = 2#3 → s.inNext = s.inLen →
    findSize s (s.outLen.toNat + 2) = some z → dw s.params z = s.outLen.toNat + 2 →
    ∃ t, ctxPartial k s = .ended t ∧
      t = { s with
        outMem := t.outMem
        outLen := s.outLen + 2#16
        chainWords := s.chainWords + 2#16
        chainValues := s.chainValues + 3#16
        ctxBuf := t.ctxBuf
        ctxN := 0#3
        ctxLastn := 0#3
        status := .complete
        sizeIdx := BitVec.ofNat 8 z } ∧
      readOut t s.outLen.toNat = (ctxPair s.ctxBuf[0] s.ctxBuf[1] 0#6).extractLsb' 8 8 ∧
      readOut t (s.outLen.toNat + 1) = (ctxPair s.ctxBuf[0] s.ctxBuf[1] 0#6).extractLsb' 0 8 ∧
      ∀ a, a < s.outLen.toNat → readOut t a = readOut s a

/-- The two ends after the rollback (R166), where case (b) does not apply.
Case (d): the rolled-back input is one ASCII codeword and a symbol has exactly room for it: it is emitted with no unlatch and the
encode completes (R167).
Case (c), otherwise: the unlatch 254, the ASCII codewords of the rolled-back input, then the size resolved after them: no size is
Invalid(SIZE_UNDEFINED), and a size is padded and completes; without room for them Invalid(OUT_OVERFLOW) (R168, R43). -/
def Obligations.CtxImplicitUnlatch : Prop :=
  ∀ (k : CtxSet) (s : State), s.params.ok →
    (s.ctxN = 1#3 ∨ (s.ctxN = 2#3 ∧
      (k = .x12 ∨ ∀ y, findSize s (s.outLen.toNat + 2) = some y → dw s.params y ≠ s.outLen.toNat + 2))) →
    let tail := asciiEncode (remainingInput { s with inNext := s.inNext -
      (if s.ctxN = 2#3 ∧ s.ctxLastn = 1#3 then 2#16 else 1#16) })
    let len := s.outLen.toNat + 1 + tail.length
    (∀ (z : Nat) (c : Byte), tail = [c] → findSize s (s.outLen.toNat + 1) = some z → dw s.params z = s.outLen.toNat + 1 →
      ∃ t, ctxPartial k s = .ended t ∧
        t = { s with
          outMem := t.outMem
          outLen := s.outLen + 1#16
          inNext := s.inLen
          scheme := .ascii
          chainWords := 1#16
          chainValues := 1#16
          ctxN := 0#3
          ctxLastn := 0#3
          status := .complete
          sizeIdx := BitVec.ofNat 8 z } ∧
        readOut t s.outLen.toNat = c ∧ ∀ a, a ≠ s.outLen.toNat → readOut t a = readOut s a) ∧
    ((s.scheme = .c40 ∨ s.scheme = .text ∨ s.scheme = .x12) → s.chainValues.toNat % 3 = 0 →
      s.outLen.toNat ≤ s.params.outCap →
      (tail.length ≠ 1 ∨ ∀ y, findSize s (s.outLen.toNat + 1) = some y → dw s.params y ≠ s.outLen.toNat + 1) →
      (s.params.outCap < len →
        ∃ t, ctxPartial k s = .ended t ∧ t.status = .invalid ∧ t.reason = .outOverflow ∧ t.outLen.toNat = s.params.outCap) ∧
      (len ≤ s.params.outCap → findSize s len = none →
        ∃ t, ctxPartial k s = .ended t ∧
          t = { s with
            outMem := t.outMem
            outLen := BitVec.ofNat 16 len
            inNext := s.inLen
            scheme := .ascii
            chainWords := BitVec.ofNat 16 tail.length
            chainValues := BitVec.ofNat 16 tail.length
            ctxN := 0#3
            ctxLastn := 0#3
            status := .invalid
            reason := .sizeUndefined } ∧
          readOut t s.outLen.toNat = 254#8 ∧ (∀ j, j < tail.length → readOut t (s.outLen.toNat + 1 + j) = tail.getD j 0#8) ∧
          ∀ a, (a < s.outLen.toNat ∨ len ≤ a) → readOut t a = readOut s a) ∧
      (∀ z, findSize s len = some z →
        ∃ t, ctxPartial k s = .ended t ∧
          t = { s with
            outMem := t.outMem
            outLen := BitVec.ofNat 16 (dw s.params z)
            inNext := s.inLen
            scheme := .ascii
            chainWords := BitVec.ofNat 16 (dw s.params z - (s.outLen.toNat + 1))
            chainValues := BitVec.ofNat 16 (dw s.params z - (s.outLen.toNat + 1))
            ctxN := 0#3
            ctxLastn := 0#3
            status := .complete
            sizeIdx := BitVec.ofNat 8 z } ∧
          readOut t s.outLen.toNat = 254#8 ∧ (∀ j, j < tail.length → readOut t (s.outLen.toNat + 1 + j) = tail.getD j 0#8) ∧
          paddedRun t len (dw s.params z) ∧
          ∀ a, (a < s.outLen.toNat ∨ dw s.params z ≤ a) → readOut t a = readOut s a))

/-- CTX_COMPLETE does nothing while input remains; with the input exhausted: no size is Invalid(SIZE_UNDEFINED); an exact fit completes with nothing more; else the
unlatch 254 and pads fill the symbol (R170). -/
def Obligations.CtxCompletion : Prop :=
  ∀ s : State, (s.inNext.toNat < s.inLen.toNat → ctxComplete s = .go s) ∧
    (s.params.ok → (s.scheme = .c40 ∨ s.scheme = .text ∨ s.scheme = .x12) → s.inNext = s.inLen →
    s.chainValues.toNat % 3 = 0 →
    (findSize s s.outLen.toNat = none →
      ctxComplete s = .ended { s with status := .invalid, reason := .sizeUndefined }) ∧
    (∀ z, findSize s s.outLen.toNat = some z → dw s.params z = s.outLen.toNat →
      ctxComplete s = .ended { s with status := .complete, sizeIdx := BitVec.ofNat 8 z }) ∧
    (∀ z, findSize s s.outLen.toNat = some z → dw s.params z ≠ s.outLen.toNat →
      ∃ t, ctxComplete s = .ended t ∧
        t = { s with
          outMem := t.outMem
          outLen := BitVec.ofNat 16 (dw s.params z)
          scheme := .ascii
          chainWords := BitVec.ofNat 16 (dw s.params z - (s.outLen.toNat + 1))
          chainValues := BitVec.ofNat 16 (dw s.params z - (s.outLen.toNat + 1))
          status := .complete
          sizeIdx := BitVec.ofNat 8 z } ∧
        readOut t s.outLen.toNat = 254#8 ∧
        paddedRun t (s.outLen.toNat + 1) (dw s.params z) ∧ ∀ a, a < s.outLen.toNat → readOut t a = readOut s a))

/-! ### EDIFACT -/

/-- The four-value row at a clean boundary: with room, three codewords that hold the four values most significant bit first
(R71, R192, R193); with room for `m < 3` codewords, `m` values are counted and their `m` codewords stand complete before the
Invalid(OUT_OVERFLOW) (R43, R110, R192).
That the unit leaves `in_next` where it is (log 14), and that 31 is packed like any other value (log 15), are the model's choices. -/
def Obligations.EdifactQuadRow : Prop :=
  ∀ (e0 e1 e2 e3 : BitVec 6) (s : State), s.params.ok → s.status = .encoding → s.scheme = .edifact →
    s.chainValues.toNat % 4 = 0 →
    (s.outLen.toNat + 3 ≤ s.params.outCap →
      ∃ (t : State) (c0 c1 c2 : Byte), exec (.edi24Quad e0 e1 e2 e3) s = .next t ∧ appended s t [c0, c1, c2] 4 ∧
        c0.toNat * 65536 + c1.toNat * 256 + c2.toNat =
          e0.toNat * 2 ^ 18 + e1.toNat * 2 ^ 12 + e2.toNat * 2 ^ 6 + e3.toNat) ∧
    (∀ m, m < 3 → s.outLen.toNat + m = s.params.outCap →
      ∃ t, exec (.edi24Quad e0 e1 e2 e3) s = .next t ∧
        t = { s with
          outMem := t.outMem
          outLen := s.outLen + BitVec.ofNat 16 m
          chainWords := s.chainWords + BitVec.ofNat 16 m
          chainValues := s.chainValues + BitVec.ofNat 16 m
          status := .invalid
          reason := .outOverflow } ∧
        (1 ≤ m → readOut t s.outLen.toNat = BitVec.ofNat 8 (e0.toNat * 4 + e1.toNat / 16)) ∧
        (m = 2 → readOut t (s.outLen.toNat + 1) = BitVec.ofNat 8 (e1.toNat % 16 * 16 + e2.toNat / 4)) ∧
        ∀ a, (a < s.outLen.toNat ∨ s.outLen.toNat + m ≤ a) → readOut t a = readOut s a)

/-- EDI_CHUNK does nothing with no input left; a byte outside `[EDI_LO, 94]` is Invalid(EDIFACT_CHAR) with nothing else written; a byte inside is packed as its low six
bits and consumed (R191, R194). -/
def Obligations.EdifactChunkJudgesItsByte : Prop :=
  ∀ s : State, (s.inNext = s.inLen → ediChunk s = .go s) ∧
    (s.inNext.toNat < s.inLen.toNat →
    let b := readIn s s.inNext.toNat
    (b.toNat < s.params.ediLo ∨ 94 < b.toNat → ediChunk s = .ended { s with status := .invalid, reason := .edifactChar }) ∧
    (s.params.ediLo ≤ b.toNat → b.toNat ≤ 94 →
      (∀ t, ediPack (BitVec.ofNat 6 (b.toNat % 64)) s = .go t → ediChunk s = .go { t with inNext := t.inNext + 1#16 }) ∧
      (∀ t, ediPack (BitVec.ofNat 6 (b.toNat % 64)) s = .ended t → ediChunk s = .ended t)))

/-- EDI_PROBE passes iff `ascii_encode` of the remaining input has at most three codewords, and then gives them (R257). -/
def Obligations.EdifactProbeIsBoundedAsciiEncode : Prop :=
  ∀ s : State, s.inNext.toNat ≤ s.inLen.toNat →
    ((ediProbe s).1 = true ↔ (asciiEncode (remainingInput s)).length ≤ 3) ∧
    ((ediProbe s).1 = true → (ediProbe s).2 = asciiEncode (remainingInput s))

/-- At a clean boundary with no input left and an output that fills its symbol, the encode completes with nothing more, in Edifact
(R197). -/
def Obligations.EdifactExactEnd : Prop :=
  ∀ (s : State) (z : Nat), s.params.ok → s.chainValues.toNat % 4 = 0 → s.inNext = s.inLen →
    findSize s s.outLen.toNat = some z → dw s.params z = s.outLen.toNat →
    ediEnd s = .ended { s with status := .complete, sizeIdx := BitVec.ofNat 8 z }

/-- EDI_END where it does not end exactly (R196, R198, R199).
At a clean boundary whose remaining input is at most two ASCII codewords, in a symbol with at most two codewords left, the encode
finishes in ASCII without an unlatch: the codewords, then pads (R196).
Where that does not apply and input is left, EDI_END changes nothing (R199).
Where it does not apply and no input is left: the unlatch, exactly as the EDI_UNLATCH row emits it, an overflow of which ends the encode;
then the size resolved after it: no size is Invalid(SIZE_UNDEFINED), and a size is padded and completes (R198). -/
def Obligations.EdifactImplicitEnd : Prop :=
  ∀ s : State, s.params.ok → s.inNext.toNat ≤ s.inLen.toNat →
    let tail := asciiEncode (remainingInput s)
    let endsInAscii : Nat → Prop := fun z => s.chainValues.toNat % 4 = 0 ∧ tail.length ≤ 2 ∧
      findSize s (s.outLen.toNat + tail.length) = some z ∧ dw s.params z ≤ s.outLen.toNat + 2
    (∀ z, endsInAscii z → ¬ (tail = [] ∧ dw s.params z = s.outLen.toNat) →
      ∃ t, ediEnd s = .ended t ∧
        t = { s with
          outMem := t.outMem
          outLen := BitVec.ofNat 16 (dw s.params z)
          inNext := s.inLen
          scheme := .ascii
          chainWords := BitVec.ofNat 16 (dw s.params z - s.outLen.toNat)
          chainValues := BitVec.ofNat 16 (dw s.params z - s.outLen.toNat)
          status := .complete
          sizeIdx := BitVec.ofNat 8 z } ∧
        (∀ j, j < tail.length → readOut t (s.outLen.toNat + j) = tail.getD j 0#8) ∧
        paddedRun t (s.outLen.toNat + tail.length) (dw s.params z) ∧
        ∀ a, a < s.outLen.toNat → readOut t a = readOut s a) ∧
    ((∀ z, ¬ endsInAscii z) →
      (s.inNext ≠ s.inLen → ediEnd s = .go s) ∧
      (s.inNext = s.inLen → s.status = .encoding → s.scheme = .edifact → ∀ u, exec .ediUnlatch s = .next u →
        (u.status = .invalid → u.reason = .outOverflow ∧ ediEnd s = .ended u) ∧
        (u.status ≠ .invalid → findSize u u.outLen.toNat = none →
          ediEnd s = .ended { u with status := .invalid, reason := .sizeUndefined }) ∧
        (u.status ≠ .invalid → ∀ z, findSize u u.outLen.toNat = some z →
          ∃ t, ediEnd s = .ended t ∧
            t = { u with
              outMem := t.outMem
              outLen := BitVec.ofNat 16 (dw s.params z)
              chainWords := BitVec.ofNat 16 (dw s.params z - u.outLen.toNat)
              chainValues := BitVec.ofNat 16 (dw s.params z - u.outLen.toNat)
              status := .complete
              sizeIdx := BitVec.ofNat 8 z } ∧
            paddedRun t u.outLen.toNat (dw s.params z) ∧ ∀ a, a < u.outLen.toNat → readOut t a = readOut u a)))

/-! ### Base256 -/

/-- The second header byte at the 250th payload byte: one slot is opened after the header, every payload byte keeps its nominal value
at its new position, and both header bytes are written (R225, R226, R227, R228). -/
def Obligations.HeaderGrowsKeepingThePayload : Prop :=
  ∀ s : State, s.params.ok → s.outLen.toNat < s.params.outCap → s.chainWords.toNat < s.outLen.toNat →
    s.chainWords.toNat = s.chainValues.toNat + 1 → 250 ≤ s.chainValues.toNat → s.chainValues.toNat ≤ 1749 →
    ∃ t, b256UpdateNormal s = .go t ∧
      t = { s with outMem := t.outMem, outLen := s.outLen + 1#16, chainWords := s.chainWords + 1#16 } ∧
      (nominal t (headerIndex s)).toNat = s.chainValues.toNat / 250 + 249 ∧
      (nominal t (headerIndex s + 1)).toNat = s.chainValues.toNat % 250 ∧
      (∀ j, headerIndex s + 1 ≤ j → j < s.outLen.toNat → nominal t (j + 1) = nominal s j) ∧
      ∀ a, (a < headerIndex s ∨ s.outLen.toNat < a) → readOut t a = readOut s a

/-- The exact-fit collapse: the second header byte is removed, the header becomes nominal 0, and every payload byte keeps its nominal
value at its new position (R225, R226, R229). -/
def Obligations.ExactFitKeepsThePayload : Prop :=
  ∀ (s : State) (z : Nat), s.params.ok → s.outLen.toNat ≤ s.params.outCap → s.chainWords.toNat < s.outLen.toNat →
    s.chainWords.toNat = s.chainValues.toNat + 2 → s.outLen.toNat = dw s.params z + 1 →
    ∃ t, b256UpdatePerfect z s = .go t ∧
      t = { s with outMem := t.outMem, outLen := s.outLen - 1#16, chainWords := s.chainWords - 1#16 } ∧
      nominal t (headerIndex s) = 0#8 ∧
      (∀ j, headerIndex s + 2 ≤ j → j < s.outLen.toNat → nominal t (j - 1) = nominal s j) ∧
      ∀ a, (a < headerIndex s ∨ s.outLen.toNat ≤ a + 1) → readOut t a = readOut s a

/-- The payload row in a running Base256 chain with room: the codeword is appended, one value counted, and the header rewritten for the
new length, in one byte up to 249 and in two from 250 to 1749; the 250th payload byte makes room for the second header byte, and
the 1750th is Invalid(B256_TOO_LONG) (R224, R227, R228, R230).
Without room for the codeword nothing is appended before the Invalid(OUT_OVERFLOW); without room for the second header byte the payload
codeword stays appended and the header stays as it was (R43, R45, R110).
That the unit leaves `in_next`, which B256_CHUNK moves, where it is is the model's choice (log 14).
B256_CHUNK with input left stores `rand255` of the next byte at its position, moves `in_next` by 1 and runs the same header update, so
it leaves what the row of that codeword leaves; with no input left it does nothing (R224). -/
def Obligations.Base256PayloadRow : Prop :=
  ∀ (d : Byte) (s : State), s.params.ok → s.status = .encoding → s.scheme = .base256 →
    s.chainWords.toNat < s.outLen.toNat →
    (s.outLen.toNat = s.params.outCap → exec (.b256D d) s = .next { s with status := .invalid, reason := .outOverflow }) ∧
    (s.outLen.toNat < s.params.outCap →
    (s.chainWords.toNat = s.chainValues.toNat + 1 → s.chainValues.toNat < 249 →
      ∃ t, exec (.b256D d) s = .next t ∧
        t = { s with
          outMem := t.outMem
          outLen := s.outLen + 1#16
          chainWords := s.chainWords + 1#16
          chainValues := s.chainValues + 1#16 } ∧
        readOut t s.outLen.toNat = d ∧ (nominal t (headerIndex s)).toNat = s.chainValues.toNat + 1 ∧
        ∀ a, a ≠ headerIndex s → a ≠ s.outLen.toNat → readOut t a = readOut s a) ∧
    (s.chainWords.toNat = s.chainValues.toNat + 2 → 250 ≤ s.chainValues.toNat → s.chainValues.toNat < 1749 →
      ∃ t, exec (.b256D d) s = .next t ∧
        t = { s with
          outMem := t.outMem
          outLen := s.outLen + 1#16
          chainWords := s.chainWords + 1#16
          chainValues := s.chainValues + 1#16 } ∧
        readOut t s.outLen.toNat = d ∧
        (nominal t (headerIndex s)).toNat = (s.chainValues.toNat + 1) / 250 + 249 ∧
        (nominal t (headerIndex s + 1)).toNat = (s.chainValues.toNat + 1) % 250 ∧
        ∀ a, a ≠ headerIndex s → a ≠ headerIndex s + 1 → a ≠ s.outLen.toNat → readOut t a = readOut s a) ∧
    (s.chainWords.toNat = s.chainValues.toNat + 1 → s.chainValues.toNat = 249 → s.outLen.toNat + 2 ≤ s.params.outCap →
      ∃ t, exec (.b256D d) s = .next t ∧
        t = { s with
          outMem := t.outMem
          outLen := s.outLen + 2#16
          chainWords := s.chainWords + 2#16
          chainValues := s.chainValues + 1#16 } ∧
        nominal t (s.outLen.toNat + 1) = unrand255 d (s.outLen.toNat + 1) ∧
        (nominal t (headerIndex s)).toNat = 250 ∧ nominal t (headerIndex s + 1) = 0#8 ∧
        (∀ j, headerIndex s + 1 ≤ j → j < s.outLen.toNat → nominal t (j + 1) = nominal s j) ∧
        ∀ a, (a < headerIndex s ∨ s.outLen.toNat + 1 < a) → readOut t a = readOut s a) ∧
    (s.chainWords.toNat = s.chainValues.toNat + 2 → s.chainValues.toNat = 1749 →
      ∃ t, exec (.b256D d) s = .next t ∧
        t = { s with
          outMem := t.outMem
          outLen := s.outLen + 1#16
          chainWords := s.chainWords + 1#16
          chainValues := s.chainValues + 1#16
          status := .invalid
          reason := .b256TooLong } ∧
        readOut t s.outLen.toNat = d ∧ ∀ a, a ≠ s.outLen.toNat → readOut t a = readOut s a) ∧
    (s.chainWords.toNat = s.chainValues.toNat + 1 → s.chainValues.toNat = 249 → s.outLen.toNat + 1 = s.params.outCap →
      ∃ t, exec (.b256D d) s = .next t ∧
        t = { s with
          outMem := t.outMem
          outLen := s.outLen + 1#16
          chainWords := s.chainWords + 1#16
          chainValues := s.chainValues + 1#16
          status := .invalid
          reason := .outOverflow } ∧
        readOut t s.outLen.toNat = d ∧ ∀ a, a ≠ s.outLen.toNat → readOut t a = readOut s a)) ∧
    (s.inNext = s.inLen → b256Chunk s = .go s) ∧
    (s.inNext ≠ s.inLen → s.outLen.toNat = s.params.outCap →
      b256Chunk s = .ended { s with status := .invalid, reason := .outOverflow }) ∧
    (s.inNext ≠ s.inLen → s.outLen.toNat < s.params.outCap →
      (∃ t, appended s t [rand255 (readIn s s.inNext.toNat) (s.outLen.toNat + 1)] 1 ∧
        b256Chunk s = b256UpdateNormal { t with inNext := s.inNext + 1#16 }) ∧
      ∀ u, exec (.b256D (rand255 (readIn s s.inNext.toNat) (s.outLen.toNat + 1))) s = .next u →
        (b256Chunk s).state = { u with inNext := s.inNext + 1#16 })

/-- The header rows in a running Base256 chain: the header codewords that stand for the payload length are written in place, one
up to 249 and two from 250 to 1749, and nothing else changes (R73, R228); the exact-fit header, nominal 0, ends the
encode with every payload byte at its nominal value one index lower (R226, R229, R231).
That the rows run the header update at all is the model's choice (log 5). -/
def Obligations.Base256HeaderRows : Prop :=
  ∀ (h l : Byte) (s : State), s.status = .encoding → s.scheme = .base256 → s.chainWords.toNat < s.outLen.toNat →
    (s.chainWords.toNat = s.chainValues.toNat + 1 → s.chainValues.toNat ≤ 249 →
      (unrand255 h (headerIndex s + 1)).toNat = s.chainValues.toNat →
      ∃ t, exec (.b256H1 h) s = .next t ∧ t = { s with outMem := t.outMem } ∧ readOut t (headerIndex s) = h ∧
        ∀ a, a ≠ headerIndex s → readOut t a = readOut s a) ∧
    (s.chainWords.toNat = s.chainValues.toNat + 2 → 250 ≤ s.chainValues.toNat → s.chainValues.toNat ≤ 1749 →
      (unrand255 h (headerIndex s + 1)).toNat = s.chainValues.toNat / 250 + 249 →
      (unrand255 l (headerIndex s + 2)).toNat = s.chainValues.toNat % 250 →
      ∃ t, exec (.b256H2 h l) s = .next t ∧ t = { s with outMem := t.outMem } ∧ readOut t (headerIndex s) = h ∧
        readOut t (headerIndex s + 1) = l ∧
        ∀ a, a ≠ headerIndex s → a ≠ headerIndex s + 1 → readOut t a = readOut s a) ∧
    (∀ z, s.params.ok → s.chainWords.toNat = s.chainValues.toNat + 2 → s.inNext = s.inLen →
      findSize s (s.outLen.toNat - 1) = some z → dw s.params z = s.outLen.toNat - 1 →
      unrand255 h (headerIndex s + 1) = 0#8 →
      ∃ t, exec (.b256H1 h) s = .next t ∧
        t = { s with
          outMem := t.outMem
          outLen := s.outLen - 1#16
          chainWords := s.chainWords - 1#16
          status := .complete
          sizeIdx := BitVec.ofNat 8 z } ∧
        readOut t (headerIndex s) = h ∧
        (∀ j, headerIndex s + 2 ≤ j → j < s.outLen.toNat → nominal t (j - 1) = nominal s j) ∧
        ∀ a, (a < headerIndex s ∨ s.outLen.toNat ≤ a + 1) → readOut t a = readOut s a)

/-- B256_COMPLETE does nothing while input remains; with the input exhausted, a two-byte header and a symbol that holds exactly one
codeword less, the header collapses to nominal 0 and the encode completes in Base256; else no size is Invalid(SIZE_UNDEFINED), and
a size is filled with pads after an implicit change to Ascii, which emits nothing (R231). -/
def Obligations.Base256Completion : Prop :=
  ∀ s : State, (s.inNext.toNat < s.inLen.toNat → b256Complete s = .go s) ∧
    (s.params.ok → s.scheme = .base256 → s.inNext = s.inLen → s.chainWords.toNat < s.outLen.toNat →
    (∀ z, s.chainWords.toNat = s.chainValues.toNat + 2 → findSize s (s.outLen.toNat - 1) = some z →
      dw s.params z = s.outLen.toNat - 1 →
      ∃ t, b256Complete s = .ended t ∧
        t = { s with
          outMem := t.outMem
          outLen := s.outLen - 1#16
          chainWords := s.chainWords - 1#16
          status := .complete
          sizeIdx := BitVec.ofNat 8 z } ∧
        nominal t (headerIndex s) = 0#8 ∧
        (∀ j, headerIndex s + 2 ≤ j → j < s.outLen.toNat → nominal t (j - 1) = nominal s j) ∧
        ∀ a, (a < headerIndex s ∨ s.outLen.toNat ≤ a + 1) → readOut t a = readOut s a) ∧
    ((s.chainWords.toNat ≠ s.chainValues.toNat + 2 ∨
      ∀ z, findSize s (s.outLen.toNat - 1) = some z → dw s.params z ≠ s.outLen.toNat - 1) →
      (findSize s s.outLen.toNat = none →
        b256Complete s = .ended { s with status := .invalid, reason := .sizeUndefined }) ∧
      (∀ z, findSize s s.outLen.toNat = some z →
        ∃ t, b256Complete s = .ended t ∧
          t = { s with
            outMem := t.outMem
            outLen := BitVec.ofNat 16 (dw s.params z)
            scheme := .ascii
            chainWords := BitVec.ofNat 16 (dw s.params z - s.outLen.toNat)
            chainValues := BitVec.ofNat 16 (dw s.params z - s.outLen.toNat)
            status := .complete
            sizeIdx := BitVec.ofNat 8 z } ∧
          paddedRun t s.outLen.toNat (dw s.params z) ∧
          ∀ a, a < s.outLen.toNat → readOut t a = readOut s a)))

/-! ### Randomizers and the symbol-size port -/

/-- `rand253` is the formula of R250, and so in 1..254 for every byte and position (R251). -/
def Obligations.PadRandomizerRange : Prop :=
  ∀ (v : Byte) (p : Nat), (rand253 v p).toNat = (v.toNat + 149 * p % 253) % 254 + 1 ∧
    1 ≤ (rand253 v p).toNat ∧ (rand253 v p).toNat ≤ 254

/-- `rand255` is the formula of R252, and `unrand255` its inverse at every position (R253, R259). -/
def Obligations.Base256RandomizerInverse : Prop :=
  ∀ (v c : Byte) (p : Nat), (rand255 v p).toNat = (v.toNat + 149 * p % 255 + 1) % 256 ∧
    rand255 (unrand255 c p) p = c ∧ unrand255 (rand255 v p) p = v

/-- `find`: under Auto the least allowed symbol that holds the codewords, the lower index among equals, and UNDEF if none does; under a
specific size that size or UNDEF (R255). -/
def Obligations.FindIsTheSmallestAllowedSymbol : Prop :=
  ∀ (p : Config.Params) (n : Nat),
    (∀ z, find p 0xFF#8 n = some z → z ∈ p.autoSet ∧ n ≤ dw p z ∧
      ∀ y ∈ p.autoSet, n ≤ dw p y → dw p z < dw p y ∨ (dw p z = dw p y ∧ z ≤ y)) ∧
    (find p 0xFF#8 n = none → ∀ y ∈ p.autoSet, dw p y < n) ∧
    (∀ h : BitVec 8, h ≠ 0xFF#8 → h.toNat < p.nSizes →
      find p h n = if n ≤ dw p h.toNat then some h.toNat else none)
end

