-- ==== Sys2Proof/Laws/State.lean ====
section
/-! SUPPORT. Laws/State.lean: one lemma per field per update of State, true by definition, so that no later proof unfolds a record
update. -/

namespace Sys2Proof.Machine

/-! ### The RAM writes (spec R66, R7, R44) -/

@[simp] theorem writeIn_params (i : Nat) (v : Byte) (s : State) : (writeIn i v s).params = s.params := rfl
@[simp] theorem writeIn_target (i : Nat) (v : Byte) (s : State) : (writeIn i v s).target = s.target := rfl
@[simp] theorem writeIn_hint (i : Nat) (v : Byte) (s : State) : (writeIn i v s).hint = s.hint := rfl
@[simp] theorem writeIn_inLen (i : Nat) (v : Byte) (s : State) : (writeIn i v s).inLen = s.inLen := rfl
@[simp] theorem writeIn_inNext (i : Nat) (v : Byte) (s : State) : (writeIn i v s).inNext = s.inNext := rfl
@[simp] theorem writeIn_outLen (i : Nat) (v : Byte) (s : State) : (writeIn i v s).outLen = s.outLen := rfl
@[simp] theorem writeIn_scheme (i : Nat) (v : Byte) (s : State) : (writeIn i v s).scheme = s.scheme := rfl
@[simp] theorem writeIn_chainWords (i : Nat) (v : Byte) (s : State) : (writeIn i v s).chainWords = s.chainWords := rfl
@[simp] theorem writeIn_chainValues (i : Nat) (v : Byte) (s : State) : (writeIn i v s).chainValues = s.chainValues := rfl
@[simp] theorem writeIn_status (i : Nat) (v : Byte) (s : State) : (writeIn i v s).status = s.status := rfl
@[simp] theorem writeIn_reason (i : Nat) (v : Byte) (s : State) : (writeIn i v s).reason = s.reason := rfl
@[simp] theorem writeIn_sizeIdx (i : Nat) (v : Byte) (s : State) : (writeIn i v s).sizeIdx = s.sizeIdx := rfl
@[simp] theorem writeIn_ctxBuf (i : Nat) (v : Byte) (s : State) : (writeIn i v s).ctxBuf = s.ctxBuf := rfl
@[simp] theorem writeIn_ctxN (i : Nat) (v : Byte) (s : State) : (writeIn i v s).ctxN = s.ctxN := rfl
@[simp] theorem writeIn_ctxLastn (i : Nat) (v : Byte) (s : State) : (writeIn i v s).ctxLastn = s.ctxLastn := rfl
@[simp] theorem writeIn_latched (i : Nat) (v : Byte) (s : State) : (writeIn i v s).latched = s.latched := rfl
@[simp] theorem writeIn_inMem (i : Nat) (v : Byte) (s : State) : (writeIn i v s).inMem = memSet i v s.inMem := rfl
@[simp] theorem writeIn_outMem (i : Nat) (v : Byte) (s : State) : (writeIn i v s).outMem = s.outMem := rfl
@[simp] theorem writeIn_queue (i : Nat) (v : Byte) (s : State) : (writeIn i v s).queue = s.queue := rfl
@[simp] theorem writeIn_returned (i : Nat) (v : Byte) (s : State) : (writeIn i v s).returned = s.returned := rfl
@[simp] theorem writeIn_freeCtr (i : Nat) (v : Byte) (s : State) : (writeIn i v s).freeCtr = s.freeCtr := rfl
@[simp] theorem writeIn_draw (i : Nat) (v : Byte) (s : State) : (writeIn i v s).draw = s.draw := rfl

@[simp] theorem writeOut_params (i : Nat) (v : Byte) (s : State) : (writeOut i v s).params = s.params := rfl
@[simp] theorem writeOut_target (i : Nat) (v : Byte) (s : State) : (writeOut i v s).target = s.target := rfl
@[simp] theorem writeOut_hint (i : Nat) (v : Byte) (s : State) : (writeOut i v s).hint = s.hint := rfl
@[simp] theorem writeOut_inLen (i : Nat) (v : Byte) (s : State) : (writeOut i v s).inLen = s.inLen := rfl
@[simp] theorem writeOut_inNext (i : Nat) (v : Byte) (s : State) : (writeOut i v s).inNext = s.inNext := rfl
@[simp] theorem writeOut_outLen (i : Nat) (v : Byte) (s : State) : (writeOut i v s).outLen = s.outLen := rfl
@[simp] theorem writeOut_scheme (i : Nat) (v : Byte) (s : State) : (writeOut i v s).scheme = s.scheme := rfl
@[simp] theorem writeOut_chainWords (i : Nat) (v : Byte) (s : State) : (writeOut i v s).chainWords = s.chainWords := rfl
@[simp] theorem writeOut_chainValues (i : Nat) (v : Byte) (s : State) : (writeOut i v s).chainValues = s.chainValues := rfl
@[simp] theorem writeOut_status (i : Nat) (v : Byte) (s : State) : (writeOut i v s).status = s.status := rfl
@[simp] theorem writeOut_reason (i : Nat) (v : Byte) (s : State) : (writeOut i v s).reason = s.reason := rfl
@[simp] theorem writeOut_sizeIdx (i : Nat) (v : Byte) (s : State) : (writeOut i v s).sizeIdx = s.sizeIdx := rfl
@[simp] theorem writeOut_ctxBuf (i : Nat) (v : Byte) (s : State) : (writeOut i v s).ctxBuf = s.ctxBuf := rfl
@[simp] theorem writeOut_ctxN (i : Nat) (v : Byte) (s : State) : (writeOut i v s).ctxN = s.ctxN := rfl
@[simp] theorem writeOut_ctxLastn (i : Nat) (v : Byte) (s : State) : (writeOut i v s).ctxLastn = s.ctxLastn := rfl
@[simp] theorem writeOut_latched (i : Nat) (v : Byte) (s : State) : (writeOut i v s).latched = s.latched := rfl
@[simp] theorem writeOut_inMem (i : Nat) (v : Byte) (s : State) : (writeOut i v s).inMem = s.inMem := rfl
@[simp] theorem writeOut_outMem (i : Nat) (v : Byte) (s : State) : (writeOut i v s).outMem = memSet i v s.outMem := rfl
@[simp] theorem writeOut_queue (i : Nat) (v : Byte) (s : State) : (writeOut i v s).queue = s.queue := rfl
@[simp] theorem writeOut_returned (i : Nat) (v : Byte) (s : State) : (writeOut i v s).returned = s.returned := rfl
@[simp] theorem writeOut_freeCtr (i : Nat) (v : Byte) (s : State) : (writeOut i v s).freeCtr = s.freeCtr := rfl
@[simp] theorem writeOut_draw (i : Nat) (v : Byte) (s : State) : (writeOut i v s).draw = s.draw := rfl

/-- `Set(i, v)` is the plain write of one codeword (R44). -/
@[simp] theorem setOut_eq (i : Nat) (v : Byte) (s : State) : setOut i v s = writeOut i v s := rfl

/-! ### Answers to reads (R51, R65, R305) -/

@[simp] theorem answer_params (w : Word) (s : State) : (answer w s).params = s.params := rfl
@[simp] theorem answer_target (w : Word) (s : State) : (answer w s).target = s.target := rfl
@[simp] theorem answer_hint (w : Word) (s : State) : (answer w s).hint = s.hint := rfl
@[simp] theorem answer_inLen (w : Word) (s : State) : (answer w s).inLen = s.inLen := rfl
@[simp] theorem answer_inNext (w : Word) (s : State) : (answer w s).inNext = s.inNext := rfl
@[simp] theorem answer_outLen (w : Word) (s : State) : (answer w s).outLen = s.outLen := rfl
@[simp] theorem answer_scheme (w : Word) (s : State) : (answer w s).scheme = s.scheme := rfl
@[simp] theorem answer_chainWords (w : Word) (s : State) : (answer w s).chainWords = s.chainWords := rfl
@[simp] theorem answer_chainValues (w : Word) (s : State) : (answer w s).chainValues = s.chainValues := rfl
@[simp] theorem answer_status (w : Word) (s : State) : (answer w s).status = s.status := rfl
@[simp] theorem answer_reason (w : Word) (s : State) : (answer w s).reason = s.reason := rfl
@[simp] theorem answer_sizeIdx (w : Word) (s : State) : (answer w s).sizeIdx = s.sizeIdx := rfl
@[simp] theorem answer_ctxBuf (w : Word) (s : State) : (answer w s).ctxBuf = s.ctxBuf := rfl
@[simp] theorem answer_ctxN (w : Word) (s : State) : (answer w s).ctxN = s.ctxN := rfl
@[simp] theorem answer_ctxLastn (w : Word) (s : State) : (answer w s).ctxLastn = s.ctxLastn := rfl
@[simp] theorem answer_latched (w : Word) (s : State) : (answer w s).latched = s.latched := rfl
@[simp] theorem answer_inMem (w : Word) (s : State) : (answer w s).inMem = s.inMem := rfl
@[simp] theorem answer_outMem (w : Word) (s : State) : (answer w s).outMem = s.outMem := rfl
@[simp] theorem answer_queue (w : Word) (s : State) : (answer w s).queue = s.queue := rfl
@[simp] theorem answer_returned (w : Word) (s : State) : (answer w s).returned = w :: s.returned := rfl
@[simp] theorem answer_freeCtr (w : Word) (s : State) : (answer w s).freeCtr = s.freeCtr := rfl
@[simp] theorem answer_draw (w : Word) (s : State) : (answer w s).draw = s.draw := rfl

@[simp] theorem answerFree_params (m : Word) (s : State) : (answerFree m s).params = s.params := rfl
@[simp] theorem answerFree_target (m : Word) (s : State) : (answerFree m s).target = s.target := rfl
@[simp] theorem answerFree_hint (m : Word) (s : State) : (answerFree m s).hint = s.hint := rfl
@[simp] theorem answerFree_inLen (m : Word) (s : State) : (answerFree m s).inLen = s.inLen := rfl
@[simp] theorem answerFree_inNext (m : Word) (s : State) : (answerFree m s).inNext = s.inNext := rfl
@[simp] theorem answerFree_outLen (m : Word) (s : State) : (answerFree m s).outLen = s.outLen := rfl
@[simp] theorem answerFree_scheme (m : Word) (s : State) : (answerFree m s).scheme = s.scheme := rfl
@[simp] theorem answerFree_chainWords (m : Word) (s : State) : (answerFree m s).chainWords = s.chainWords := rfl
@[simp] theorem answerFree_chainValues (m : Word) (s : State) : (answerFree m s).chainValues = s.chainValues := rfl
@[simp] theorem answerFree_status (m : Word) (s : State) : (answerFree m s).status = s.status := rfl
@[simp] theorem answerFree_reason (m : Word) (s : State) : (answerFree m s).reason = s.reason := rfl
@[simp] theorem answerFree_sizeIdx (m : Word) (s : State) : (answerFree m s).sizeIdx = s.sizeIdx := rfl
@[simp] theorem answerFree_ctxBuf (m : Word) (s : State) : (answerFree m s).ctxBuf = s.ctxBuf := rfl
@[simp] theorem answerFree_ctxN (m : Word) (s : State) : (answerFree m s).ctxN = s.ctxN := rfl
@[simp] theorem answerFree_ctxLastn (m : Word) (s : State) : (answerFree m s).ctxLastn = s.ctxLastn := rfl
@[simp] theorem answerFree_latched (m : Word) (s : State) : (answerFree m s).latched = s.latched := rfl
@[simp] theorem answerFree_inMem (m : Word) (s : State) : (answerFree m s).inMem = s.inMem := rfl
@[simp] theorem answerFree_outMem (m : Word) (s : State) : (answerFree m s).outMem = s.outMem := rfl
@[simp] theorem answerFree_queue (m : Word) (s : State) : (answerFree m s).queue = s.queue := rfl
@[simp] theorem answerFree_returned (m : Word) (s : State) : (answerFree m s).returned = (Config.freeRead s.freeCtr &&& m) :: s.returned := rfl
@[simp] theorem answerFree_freeCtr (m : Word) (s : State) : (answerFree m s).freeCtr = s.freeCtr + 1 := rfl
@[simp] theorem answerFree_draw (m : Word) (s : State) : (answerFree m s).draw = s.draw := rfl

/-! ### START and the rollback (R100, R166) -/

@[simp] theorem startState_params (s : State) : (startState s).params = s.params := rfl
@[simp] theorem startState_target (s : State) : (startState s).target = s.target := rfl
@[simp] theorem startState_hint (s : State) : (startState s).hint = s.hint := rfl
@[simp] theorem startState_inLen (s : State) : (startState s).inLen = s.inLen := rfl
@[simp] theorem startState_inNext (s : State) : (startState s).inNext = 0#16 := rfl
@[simp] theorem startState_outLen (s : State) : (startState s).outLen = 0#16 := rfl
@[simp] theorem startState_scheme (s : State) : (startState s).scheme = .ascii := rfl
@[simp] theorem startState_chainWords (s : State) : (startState s).chainWords = 0#16 := rfl
@[simp] theorem startState_chainValues (s : State) : (startState s).chainValues = 0#16 := rfl
@[simp] theorem startState_status (s : State) : (startState s).status = .encoding := rfl
@[simp] theorem startState_reason (s : State) : (startState s).reason = .none := rfl
@[simp] theorem startState_sizeIdx (s : State) : (startState s).sizeIdx = Config.undefCode := rfl
@[simp] theorem startState_ctxBuf (s : State) : (startState s).ctxBuf = #v[0#6, 0#6, 0#6, 0#6] := rfl
@[simp] theorem startState_ctxN (s : State) : (startState s).ctxN = 0#3 := rfl
@[simp] theorem startState_ctxLastn (s : State) : (startState s).ctxLastn = 0#3 := rfl
@[simp] theorem startState_latched (s : State) : (startState s).latched = false := rfl
@[simp] theorem startState_inMem (s : State) : (startState s).inMem = s.inMem := rfl
@[simp] theorem startState_outMem (s : State) : (startState s).outMem = s.outMem := rfl
@[simp] theorem startState_queue (s : State) : (startState s).queue = s.queue := rfl
@[simp] theorem startState_returned (s : State) : (startState s).returned = s.returned := rfl
@[simp] theorem startState_freeCtr (s : State) : (startState s).freeCtr = s.freeCtr := rfl
@[simp] theorem startState_draw (s : State) : (startState s).draw = s.draw := rfl

@[simp] theorem ctxRollback_params (s : State) : (ctxRollback s).params = s.params := rfl
@[simp] theorem ctxRollback_target (s : State) : (ctxRollback s).target = s.target := rfl
@[simp] theorem ctxRollback_hint (s : State) : (ctxRollback s).hint = s.hint := rfl
@[simp] theorem ctxRollback_inLen (s : State) : (ctxRollback s).inLen = s.inLen := rfl
@[simp] theorem ctxRollback_inNext (s : State) : (ctxRollback s).inNext = s.inNext - BitVec.ofNat 16 (ctxRollbackBytes s) := rfl
@[simp] theorem ctxRollback_outLen (s : State) : (ctxRollback s).outLen = s.outLen := rfl
@[simp] theorem ctxRollback_scheme (s : State) : (ctxRollback s).scheme = s.scheme := rfl
@[simp] theorem ctxRollback_chainWords (s : State) : (ctxRollback s).chainWords = s.chainWords := rfl
@[simp] theorem ctxRollback_chainValues (s : State) : (ctxRollback s).chainValues = s.chainValues := rfl
@[simp] theorem ctxRollback_status (s : State) : (ctxRollback s).status = s.status := rfl
@[simp] theorem ctxRollback_reason (s : State) : (ctxRollback s).reason = s.reason := rfl
@[simp] theorem ctxRollback_sizeIdx (s : State) : (ctxRollback s).sizeIdx = s.sizeIdx := rfl
@[simp] theorem ctxRollback_ctxBuf (s : State) : (ctxRollback s).ctxBuf = s.ctxBuf := rfl
@[simp] theorem ctxRollback_ctxN (s : State) : (ctxRollback s).ctxN = 0#3 := rfl
@[simp] theorem ctxRollback_ctxLastn (s : State) : (ctxRollback s).ctxLastn = 0#3 := rfl
@[simp] theorem ctxRollback_latched (s : State) : (ctxRollback s).latched = s.latched := rfl
@[simp] theorem ctxRollback_inMem (s : State) : (ctxRollback s).inMem = s.inMem := rfl
@[simp] theorem ctxRollback_outMem (s : State) : (ctxRollback s).outMem = s.outMem := rfl
@[simp] theorem ctxRollback_queue (s : State) : (ctxRollback s).queue = s.queue := rfl
@[simp] theorem ctxRollback_returned (s : State) : (ctxRollback s).returned = s.returned := rfl
@[simp] theorem ctxRollback_freeCtr (s : State) : (ctxRollback s).freeCtr = s.freeCtr := rfl
@[simp] theorem ctxRollback_draw (s : State) : (ctxRollback s).draw = s.draw := rfl

/-! ### Hardware reset (R300) -/

@[simp] theorem hardReset_params (s : State) : (hardReset s).params = s.params := rfl
@[simp] theorem hardReset_target (s : State) : (hardReset s).target = 0#3 := rfl
@[simp] theorem hardReset_hint (s : State) : (hardReset s).hint = 0xFF#8 := rfl
@[simp] theorem hardReset_inLen (s : State) : (hardReset s).inLen = 0#16 := rfl
@[simp] theorem hardReset_inNext (s : State) : (hardReset s).inNext = 0#16 := rfl
@[simp] theorem hardReset_outLen (s : State) : (hardReset s).outLen = 0#16 := rfl
@[simp] theorem hardReset_scheme (s : State) : (hardReset s).scheme = .ascii := rfl
@[simp] theorem hardReset_chainWords (s : State) : (hardReset s).chainWords = 0#16 := rfl
@[simp] theorem hardReset_chainValues (s : State) : (hardReset s).chainValues = 0#16 := rfl
@[simp] theorem hardReset_status (s : State) : (hardReset s).status = .idle := rfl
@[simp] theorem hardReset_reason (s : State) : (hardReset s).reason = .none := rfl
@[simp] theorem hardReset_sizeIdx (s : State) : (hardReset s).sizeIdx = Config.undefCode := rfl
@[simp] theorem hardReset_ctxBuf (s : State) : (hardReset s).ctxBuf = #v[0#6, 0#6, 0#6, 0#6] := rfl
@[simp] theorem hardReset_ctxN (s : State) : (hardReset s).ctxN = 0#3 := rfl
@[simp] theorem hardReset_ctxLastn (s : State) : (hardReset s).ctxLastn = 0#3 := rfl
@[simp] theorem hardReset_latched (s : State) : (hardReset s).latched = false := rfl
@[simp] theorem hardReset_inMem (s : State) : (hardReset s).inMem = [] := rfl
@[simp] theorem hardReset_outMem (s : State) : (hardReset s).outMem = [] := rfl
@[simp] theorem hardReset_queue (s : State) : (hardReset s).queue = s.queue := rfl
@[simp] theorem hardReset_returned (s : State) : (hardReset s).returned = s.returned := rfl
@[simp] theorem hardReset_freeCtr (s : State) : (hardReset s).freeCtr = s.freeCtr := rfl
@[simp] theorem hardReset_draw (s : State) : (hardReset s).draw = s.draw + 1 := rfl

/-! ### What the reads of the RAMs see -/

/-- `IN[i]` depends on the input RAM and the draw of its reset bytes alone (R41). -/
theorem readIn_congr {s t : State} (hm : t.inMem = s.inMem) (hd : t.draw = s.draw) (i : Nat) : readIn t i = readIn s i := by
  simp [readIn, hm, hd]

/-- `OUT[i]` depends on the output RAM and the draw of its reset bytes alone (R42). -/
theorem readOut_congr {s t : State} (hm : t.outMem = s.outMem) (hd : t.draw = s.draw) (i : Nat) : readOut t i = readOut s i := by
  simp [readOut, hm, hd]

@[simp] theorem readIn_writeOut (i j : Nat) (v : Byte) (s : State) : readIn (writeOut i v s) j = readIn s j := rfl

@[simp] theorem readOut_writeIn (i j : Nat) (v : Byte) (s : State) : readOut (writeIn i v s) j = readOut s j := rfl

end Sys2Proof.Machine
end

