-- ==== Sys2Proof/Laws/Memory.lean ====
section
/-! SUPPORT. Laws/Memory.lean: the byte RAMs (spec R41, R42): a read after a write, and the canonical form, which every memory
operation keeps. -/

namespace Sys2Proof.Machine

/-! ### Read after write -/

/-- A read at the written address gives the written byte. -/
@[simp] theorem memGet_memSet_same (a : Nat) (v : Byte) (m : Memory) : memGet a (memSet a v m) = some v := by
  induction m with
  | nil => simp [memSet, memGet]
  | cons c m ih =>
    simp only [memSet]
    split
    · simp [memGet]
    · split
      · simp [memGet]
      · simp [memGet, *]

/-- A write leaves every other address alone. -/
theorem memGet_memSet_other {a b : Nat} (h : b ≠ a) (v : Byte) (m : Memory) : memGet b (memSet a v m) = memGet b m := by
  induction m with
  | nil => simp [memSet, memGet, h]
  | cons c m ih =>
    simp only [memSet]
    split
    · simp [memGet, h]
    · split
      · subst_vars; simp [memGet, h]
      · simp [memGet, ih]

@[simp] theorem readOut_writeOut_same (i : Nat) (v : Byte) (s : State) : readOut (writeOut i v s) i = v := by
  simp [readOut]

theorem readOut_writeOut_other {i j : Nat} (h : j ≠ i) (v : Byte) (s : State) : readOut (writeOut i v s) j = readOut s j := by
  simp [readOut, memGet_memSet_other h]

/-- A read of `OUT` after a write of one codeword. -/
theorem readOut_writeOut (i j : Nat) (v : Byte) (s : State) :
    readOut (writeOut i v s) j = if j = i then v else readOut s j := by
  split
  · subst_vars; exact readOut_writeOut_same ..
  · exact readOut_writeOut_other ‹_› v s

@[simp] theorem readIn_writeIn_same (i : Nat) (v : Byte) (s : State) : readIn (writeIn i v s) i = v := by
  simp [readIn]

theorem readIn_writeIn_other {i j : Nat} (h : j ≠ i) (v : Byte) (s : State) : readIn (writeIn i v s) j = readIn s j := by
  simp [readIn, memGet_memSet_other h]

/-! ### The canonical form -/

/-- The addresses a write lists: its own, and those listed before. -/
theorem mem_memSet {a : Nat} {v : Byte} {m : Memory} {c : Host.Cell} (h : c ∈ memSet a v m) : c = (a, v) ∨ c ∈ m := by
  induction m with
  | nil => simpa [memSet] using h
  | cons d m ih =>
    simp only [memSet] at h
    split at h
    · simpa using h
    · split at h
      · rcases List.mem_cons.1 h with h | h
        · exact .inl h
        · exact .inr (List.mem_cons_of_mem _ h)
      · rcases List.mem_cons.1 h with h | h
        · exact .inr (h ▸ List.mem_cons_self)
        · exact (ih h).imp_right (List.mem_cons_of_mem _)

/-- A write keeps the addresses strictly rising. -/
theorem memSet_rising {a : Nat} {v : Byte} {m : Memory} (h : m.Pairwise (fun x y => x.1 < y.1)) :
    (memSet a v m).Pairwise (fun x y => x.1 < y.1) := by
  induction m with
  | nil => simp [memSet]
  | cons d m ih =>
    have hd := List.pairwise_cons.1 h
    simp only [memSet]
    split
    · refine List.pairwise_cons.2 ⟨fun c hc => ?_, h⟩
      rcases List.mem_cons.1 hc with rfl | hc
      · assumption
      · exact Nat.lt_trans ‹_› (hd.1 c hc)
    · split
      · subst_vars
        exact List.pairwise_cons.2 ⟨hd.1, hd.2⟩
      · refine List.pairwise_cons.2 ⟨fun c hc => ?_, ih hd.2⟩
        rcases mem_memSet hc with rfl | hc
        · exact Nat.lt_of_le_of_ne (Nat.le_of_not_lt ‹_›) (Ne.symm ‹_›)
        · exact hd.1 c hc

/-- A write below the RAM's depth keeps its canonical form. -/
theorem memSet_wf {cap a : Nat} {v : Byte} {m : Memory} (ha : a < cap) (h : Memory.wf cap m) :
    Memory.wf cap (memSet a v m) := by
  refine ⟨memSet_rising h.1, fun c hc => ?_⟩
  rcases mem_memSet hc with rfl | hc
  · exact ha
  · exact h.2 c hc

/-- An address below every listed one is not listed. -/
theorem memGet_below {a : Nat} {m : Memory} (h : ∀ c ∈ m, a < c.1) : memGet a m = none := by
  induction m with
  | nil => rfl
  | cons d m ih =>
    have hd := h d List.mem_cons_self
    simp [memGet, show a ≠ d.1 by omega, ih fun c hc => h c (List.mem_cons_of_mem _ hc)]

/-- In canonical form, RAMs that list the same bytes are the same data. -/
theorem memory_ext {cap : Nat} {m n : Memory} (hm : Memory.wf cap m) (hn : Memory.wf cap n)
    (h : ∀ a, memGet a m = memGet a n) : m = n := by
  replace hm := hm.1
  replace hn := hn.1
  induction m generalizing n with
  | nil =>
    cases n with
    | nil => rfl
    | cons d n => simpa [memGet] using h d.1
  | cons c m ih =>
    cases n with
    | nil => simpa [memGet] using h c.1
    | cons d n =>
      have hm' := List.pairwise_cons.1 hm
      have hn' := List.pairwise_cons.1 hn
      have hcd : c.1 = d.1 := by
        rcases Nat.lt_trichotomy c.1 d.1 with hlt | heq | hgt
        · have := h c.1
          simp [memGet, show c.1 ≠ d.1 by omega, memGet_below fun e he => Nat.lt_trans hlt (hn'.1 e he)] at this
        · exact heq
        · have := h d.1
          simp [memGet, show d.1 ≠ c.1 by omega, memGet_below fun e he => Nat.lt_trans hgt (hm'.1 e he)] at this
      have hv : c.2 = d.2 := by simpa [memGet, hcd] using h c.1
      have ht : m = n := ih (fun a => by
        by_cases ha : a = c.1
        · subst ha
          rw [memGet_below fun e he => hm'.1 e he, memGet_below fun e he => hcd ▸ hn'.1 e he]
        · have := h a
          simpa [memGet, ha, hcd ▸ ha] using this) hm'.2 hn'.2
      rw [ht, Prod.ext hcd hv]

/-- Both RAMs of a state are in canonical form (R41, R42). -/
abbrev ramsWf (s : State) : Prop := Memory.wf s.params.inCap s.inMem ∧ Memory.wf s.params.outCap s.outMem

theorem reset_ramsWf : ramsWf State.reset := by decide

theorem hardReset_ramsWf (s : State) : ramsWf (hardReset s) := by simp [ramsWf, Memory.wf]

theorem writeIn_ramsWf {i : Nat} {v : Byte} {s : State} (hi : i < s.params.inCap) (h : ramsWf s) : ramsWf (writeIn i v s) :=
  ⟨memSet_wf hi h.1, h.2⟩

theorem writeOut_ramsWf {i : Nat} {v : Byte} {s : State} (hi : i < s.params.outCap) (h : ramsWf s) :
    ramsWf (writeOut i v s) :=
  ⟨h.1, memSet_wf hi h.2⟩

/-- The copies of `InsertAt` keep the canonical form when the highest index written is in range (R45). -/
theorem copyUp_ramsWf {i n : Nat} : ∀ {s : State}, i + n < s.params.outCap → ramsWf s → ramsWf (copyUp i n s) := by
  induction n with
  | zero => intro s _ h; exact h
  | succ n ih => intro s hi h; exact ih (by simp; omega) (writeOut_ramsWf (by omega) h)

/-- The copies of `RemoveAt` keep the canonical form when the indices written are in range (R46). -/
theorem copyDown_ramsWf {n : Nat} : ∀ {i : Nat} {s : State}, i + n ≤ s.params.outCap → ramsWf s → ramsWf (copyDown i n s) := by
  induction n with
  | zero => intro i s _ h; exact h
  | succ n ih => intro i s hi h; exact ih (by simp; omega) (writeOut_ramsWf (by omega) h)

/-- The re-randomizing pass keeps the canonical form when the indices written are in range (R226). -/
theorem rerandomize_ramsWf {d n : Nat} :
    ∀ {j : Nat} {s : State}, j + n ≤ s.params.outCap → ramsWf s → ramsWf (rerandomize d j n s) := by
  induction n with
  | zero => intro j s _ h; exact h
  | succ n ih => intro j s hj h; exact ih (by simp; omega) (writeOut_ramsWf (by omega) h)

/-- `Append` keeps the canonical form while the output length is at most `OUT_CAP` (R13, R43). -/
theorem append_ramsWf {v : Byte} {s : State} (hl : s.outLen.toNat ≤ s.params.outCap) (h : ramsWf s) :
    ramsWf (append v s).state := by
  unfold append
  split
  · exact h
  · exact writeOut_ramsWf (v := v) (by omega) h

/-- `InsertAt` keeps the canonical form while the output length is at most `OUT_CAP` (R13, R45). -/
theorem insertAt_ramsWf {i : Nat} {s : State} (hi : i ≤ s.outLen.toNat) (hl : s.outLen.toNat ≤ s.params.outCap)
    (h : ramsWf s) : ramsWf (insertAt i s).state := by
  unfold insertAt
  split
  · exact h
  · exact copyUp_ramsWf (by omega) h

/-- `RemoveAt` keeps the canonical form while the output length is at most `OUT_CAP` (R13, R46). -/
theorem removeAt_ramsWf {i : Nat} {s : State} (hi : i < s.outLen.toNat) (hl : s.outLen.toNat ≤ s.params.outCap)
    (h : ramsWf s) : ramsWf (removeAt i s) :=
  copyDown_ramsWf (s := s) (by omega) h

end Sys2Proof.Machine
end

