-- ==== Sys2Proof/Laws/Ops.lean ====
section
/-! SUPPORT. Laws/Ops.lean: for each shared operation, one lemma that says once everything it can do, and the frame lemmas of the
copying loops (spec R43 to R47, R110, R112, R115, R135, R137, R159, R160, R192, R226 to R229). -/

namespace Sys2Proof.Machine

/-! ### Going on, or having ended (R121) -/

@[simp] theorem andThen_go (s : State) (k : State → Flow) : (Flow.go s).andThen k = k s := rfl

@[simp] theorem andThen_ended (s : State) (k : State → Flow) : (Flow.ended s).andThen k = .ended s := rfl

@[simp] theorem state_go (s : State) : (Flow.go s).state = s := rfl

@[simp] theorem state_ended (s : State) : (Flow.ended s).state = s := rfl

@[simp] theorem raise_state (st : Status) (r : Reason) (s : State) :
    (raise st r s).state = { s with status := st, reason := r } := rfl

/-- A sequence that goes on went on in both parts. -/
theorem andThen_eq_go {f : Flow} {k : State → Flow} {t : State} (h : f.andThen k = .go t) : ∃ u, f = .go u ∧ k u = .go t := by
  cases f with
  | go u => exact ⟨u, rfl, h⟩
  | ended u => exact absurd h (by simp)

/-- A sequence that ended did so in one of its parts. -/
theorem andThen_eq_ended {f : Flow} {k : State → Flow} {t : State} (h : f.andThen k = .ended t) :
    f = .ended t ∨ ∃ u, f = .go u ∧ k u = .ended t := by
  cases f with
  | go u => exact .inr ⟨u, rfl, h⟩
  | ended u => exact .inl h

/-- A property that both parts establish holds of the state a sequence leaves. -/
theorem andThen_state {P : State → Prop} {f : Flow} {k : State → Flow} (he : ∀ t, f = .ended t → P t)
    (hk : ∀ u, f = .go u → P (k u).state) : P (f.andThen k).state := by
  cases f with
  | go u => exact hk u rfl
  | ended u => exact he u rfl

/-- `complete(z)` (R112): one of its two guards raises, or the encode is complete in `z`. -/
theorem complete_cases (z : Nat) (s : State) :
    (s.outLen.toNat ≠ dw s.params z ∧ complete z s = .ended { s with status := .fatal, reason := .sizeMismatch }) ∨
    (s.outLen.toNat = dw s.params z ∧ s.inNext.toNat < s.inLen.toNat ∧
      complete z s = .ended { s with status := .fatal, reason := .inputRemains }) ∨
    (s.outLen.toNat = dw s.params z ∧ ¬ s.inNext.toNat < s.inLen.toNat ∧
      complete z s = .ended { s with sizeIdx := BitVec.ofNat 8 z, status := .complete }) := by
  unfold complete raise
  split
  · exact .inl ⟨‹_›, rfl⟩
  · split
    · exact .inr (.inl ⟨Decidable.not_not.1 ‹_›, ‹_›, rfl⟩)
    · exact .inr (.inr ⟨Decidable.not_not.1 ‹_›, ‹_›, rfl⟩)

/-! ### The appends (R43, R7, R135) -/

/-- `Append`: without room it raises OUT_OVERFLOW; else it writes one codeword and the length grows. -/
theorem append_cases (v : Byte) (s : State) :
    (s.outLen.toNat = s.params.outCap ∧ append v s = .ended { s with status := .invalid, reason := .outOverflow }) ∨
    (s.outLen.toNat ≠ s.params.outCap ∧
      append v s = .go { writeOut s.outLen.toNat v s with outLen := s.outLen + 1#16 }) := by
  unfold append raise
  split
  · exact .inl ⟨‹_›, rfl⟩
  · exact .inr ⟨‹_›, rfl⟩

/-- `ChainAppend`: as `Append`, and the chain has one word more. -/
theorem chainAppend_cases (v : Byte) (s : State) :
    (s.outLen.toNat = s.params.outCap ∧ chainAppend v s = .ended { s with status := .invalid, reason := .outOverflow }) ∨
    (s.outLen.toNat ≠ s.params.outCap ∧
      chainAppend v s = .go { writeOut s.outLen.toNat v s with
        outLen := s.outLen + 1#16
        chainWords := s.chainWords + 1#16 }) := by
  rcases append_cases v s with ⟨h, e⟩ | ⟨h, e⟩
  · exact .inl ⟨h, by simp [chainAppend, e]⟩
  · exact .inr ⟨h, by simp [chainAppend, e]⟩

/-- `AsciiAppend`: as `ChainAppend`, and the chain has one value more. -/
theorem asciiAppend_cases (v : Byte) (s : State) :
    (s.outLen.toNat = s.params.outCap ∧ asciiAppend v s = .ended { s with status := .invalid, reason := .outOverflow }) ∨
    (s.outLen.toNat ≠ s.params.outCap ∧
      asciiAppend v s = .go { writeOut s.outLen.toNat v s with
        outLen := s.outLen + 1#16
        chainWords := s.chainWords + 1#16
        chainValues := s.chainValues + 1#16 }) := by
  rcases chainAppend_cases v s with ⟨h, e⟩ | ⟨h, e⟩
  · exact .inl ⟨h, by simp [asciiAppend, e]⟩
  · exact .inr ⟨h, by simp [asciiAppend, e]⟩

/-- Appending nothing. -/
theorem appended_nil (s : State) : appended s s [] 0 := by simp [appended]

/-- One written codeword and the counts raised is an append of one codeword. -/
theorem appended_one (c : Byte) (k : Nat) (s : State) :
    appended s { writeOut s.outLen.toNat c s with
      outLen := s.outLen + 1#16
      chainWords := s.chainWords + 1#16
      chainValues := s.chainValues + BitVec.ofNat 16 k } [c] k := by
  refine ⟨rfl, fun j hj => ?_, fun a ha => ?_⟩
  · obtain rfl : j = 0 := by simpa using hj
    exact readOut_writeOut_same ..
  · exact readOut_writeOut_other (by simp at ha; omega) c s

/-- The output length after an append, below the reach of 16 bits. -/
theorem appended_outLen {s t : State} {cws : List Byte} {k : Nat} (h : appended s t cws k)
    (hb : s.outLen.toNat + cws.length < 65536) : t.outLen.toNat = s.outLen.toNat + cws.length := by
  have : t.outLen = s.outLen + BitVec.ofNat 16 cws.length := by rw [h.1]
  rw [this, BitVec.toNat_add, BitVec.toNat_ofNat]
  omega

/-- Two appends in a row are one append. -/
theorem appended_trans {s t u : State} {as bs : List Byte} {j k : Nat} (h : appended s t as j) (h' : appended t u bs k)
    (hb : s.outLen.toNat + as.length < 65536) : appended s u (as ++ bs) (j + k) := by
  have hl := appended_outLen h hb
  obtain ⟨e, hn, hf⟩ := h
  obtain ⟨e', hn', hf'⟩ := h'
  rw [hl] at hn' hf'
  refine ⟨?_, fun i hi => ?_, fun a ha => ?_⟩
  · rw [e', e]
    simp [BitVec.ofNat_add, BitVec.add_assoc]
  · simp only [List.getD_eq_getElem?_getD, List.getElem?_append] at hn hn' ⊢
    split
    · rw [hf' _ (.inl (by omega)), hn _ ‹_›]
    · simp only [List.length_append] at hi
      have := hn' (i - as.length) (by omega)
      rwa [show s.outLen.toNat + as.length + (i - as.length) = s.outLen.toNat + i by omega] at this
  · simp only [List.length_append] at ha
    rw [hf' a (by omega), hf a (by omega)]

/-- With room, `AsciiAppend` appends one codeword and counts one value. -/
theorem asciiAppend_appended {s : State} (v : Byte) (h : s.outLen.toNat ≠ s.params.outCap) :
    ∃ t, asciiAppend v s = .go t ∧ appended s t [v] 1 := by
  rcases asciiAppend_cases v s with ⟨h', _⟩ | ⟨_, e⟩
  · exact absurd h' h
  · exact ⟨_, e, appended_one v 1 s⟩

/-- With room, `ChainAppend` appends one codeword and counts no value. -/
theorem chainAppend_appended {s : State} (v : Byte) (h : s.outLen.toNat ≠ s.params.outCap) :
    ∃ t, chainAppend v s = .go t ∧ appended s t [v] 0 := by
  rcases chainAppend_cases v s with ⟨h', _⟩ | ⟨_, e⟩
  · exact absurd h' h
  · refine ⟨_, e, ?_⟩
    have := appended_one v 0 s
    simpa using this

/-- With room for all of them, `AsciiAppend` of each codeword appends the list (R168, R196). -/
theorem asciiAppendAll_appended {cws : List Byte} :
    ∀ {s : State}, s.params.outCap < 65536 → s.outLen.toNat + cws.length ≤ s.params.outCap →
      ∃ t, asciiAppendAll cws s = .go t ∧ appended s t cws cws.length := by
  induction cws with
  | nil => intro s _ _; exact ⟨s, rfl, appended_nil s⟩
  | cons c rest ih =>
    intro s hc hr
    simp only [List.length_cons] at hr
    obtain ⟨t, e, ht⟩ := asciiAppend_appended (s := s) c (by omega)
    have hl := appended_outLen ht (by simp; omega)
    have hp : t.params = s.params := by rw [ht.1]
    obtain ⟨u, e', hu⟩ := ih (s := t) (by rwa [hp]) (by rw [hp, hl]; simp; omega)
    refine ⟨u, by simp [asciiAppendAll, e, e'], ?_⟩
    simpa [Nat.add_comm] using appended_trans ht hu (by simp; omega)

/-- Without room for all of them, `AsciiAppend` of each codeword fills the output and raises OUT_OVERFLOW (R43, R168). -/
theorem asciiAppendAll_overflow {cws : List Byte} :
    ∀ {s : State}, s.params.outCap < 65536 → s.outLen.toNat ≤ s.params.outCap → s.params.outCap < s.outLen.toNat + cws.length →
      ∃ t, asciiAppendAll cws s = .ended t ∧ t.status = .invalid ∧ t.reason = .outOverflow ∧ t.outLen.toNat = s.params.outCap := by
  induction cws with
  | nil => intro s _ hl hr; simp at hr; omega
  | cons c rest ih =>
    intro s hc hl hr
    simp only [List.length_cons] at hr
    rcases asciiAppend_cases c s with ⟨h, e⟩ | ⟨h, e⟩
    · exact ⟨{ s with status := .invalid, reason := .outOverflow }, by rw [asciiAppendAll, e, andThen_ended], rfl, rfl, h⟩
    · obtain ⟨t, e', ht⟩ := asciiAppend_appended (s := s) c h
      have hlen := appended_outLen ht (by simp; omega)
      have hp : t.params = s.params := by rw [ht.1]
      simp only [List.length_singleton] at hlen
      obtain ⟨u, eu, hs, hr', hu⟩ := ih (s := t) (by rwa [hp]) (by rw [hp]; omega) (by rw [hp]; omega)
      exact ⟨u, by rw [asciiAppendAll, e', andThen_go, eu], hs, hr', by rw [hu, hp]⟩

/-- The common end of R138, R168 and R198: no size, or the pads of the size and its completion. -/
theorem finishSized_cases (s : State) :
    (findSize s s.outLen.toNat = none ∧ finishSized s = .ended { s with status := .invalid, reason := .sizeUndefined }) ∨
    ∃ z, findSize s s.outLen.toNat = some z ∧ finishSized s = (pad z s).andThen (complete z) := by
  unfold finishSized raise
  cases findSize s s.outLen.toNat with
  | none => exact .inl ⟨rfl, rfl⟩
  | some z => exact .inr ⟨z, rfl, rfl⟩

/-! ### The copying loops change the output RAM alone (R45, R46, R226) -/

theorem copyUp_frame (i n : Nat) : ∀ s : State, copyUp i n s = { s with outMem := (copyUp i n s).outMem } := by
  induction n with
  | zero => intro s; rfl
  | succ n ih => intro s; rw [copyUp, ih]; rfl

theorem copyDown_frame (n : Nat) : ∀ (i : Nat) (s : State), copyDown i n s = { s with outMem := (copyDown i n s).outMem } := by
  induction n with
  | zero => intro i s; rfl
  | succ n ih => intro i s; rw [copyDown, ih]; rfl

theorem rerandomize_frame (d n : Nat) :
    ∀ (j : Nat) (s : State), rerandomize d j n s = { s with outMem := (rerandomize d j n s).outMem } := by
  induction n with
  | zero => intro j s; rfl
  | succ n ih => intro j s; rw [rerandomize, ih]; rfl

/-- The copies of `InsertAt(i)`: the codewords from `i` on stand one index higher (R45). -/
theorem readOut_copyUp (i n : Nat) :
    ∀ (s : State) (a : Nat), readOut (copyUp i n s) a = if i < a ∧ a ≤ i + n then readOut s (a - 1) else readOut s a := by
  induction n with
  | zero => intro s a; rw [if_neg (by omega)]; rfl
  | succ n ih =>
    intro s a
    rw [copyUp, ih]
    simp only [readOut_writeOut]
    by_cases h : i < a ∧ a ≤ i + n
    · rw [if_pos h, if_neg (by omega), if_pos (by omega)]
    · rw [if_neg h]
      by_cases ha : a = i + n + 1
      · rw [if_pos ha, if_pos (by omega), show a - 1 = i + n by omega]
      · rw [if_neg ha, if_neg (by omega)]

/-- The copies of `RemoveAt(i)`: the codewords above `i` stand one index lower (R46). -/
theorem readOut_copyDown (n : Nat) :
    ∀ (i : Nat) (s : State) (a : Nat),
      readOut (copyDown i n s) a = if i ≤ a ∧ a < i + n then readOut s (a + 1) else readOut s a := by
  induction n with
  | zero => intro i s a; rw [if_neg (by omega)]; rfl
  | succ n ih =>
    intro i s a
    rw [copyDown, ih]
    simp only [readOut_writeOut]
    by_cases h : i + 1 ≤ a ∧ a < i + 1 + n
    · rw [if_pos h, if_neg (by omega), if_pos (by omega)]
    · rw [if_neg h]
      by_cases ha : a = i
      · rw [if_pos ha, if_pos (by omega), ha]
      · rw [if_neg ha, if_neg (by omega)]

/-- The re-randomizing pass: each codeword from `j` on is moved from position `a + d` to its own (R225, R226). -/
theorem readOut_rerandomize (d n : Nat) :
    ∀ (j : Nat) (s : State) (a : Nat), readOut (rerandomize d j n s) a =
      if j ≤ a ∧ a < j + n then moveCodeword (readOut s a) (a + d) (a + 1) else readOut s a := by
  induction n with
  | zero => intro j s a; rw [if_neg (by omega)]; rfl
  | succ n ih =>
    intro j s a
    rw [rerandomize, ih]
    simp only [readOut_writeOut]
    by_cases h : j + 1 ≤ a ∧ a < j + 1 + n
    · rw [if_pos h, if_neg (by omega), if_pos (by omega)]
    · rw [if_neg h]
      by_cases ha : a = j
      · rw [if_pos ha, if_pos (by omega), ha]
      · rw [if_neg ha, if_neg (by omega)]

/-- `InsertAt(i)`: without room it raises OUT_OVERFLOW; else the copies are made and the length grows (R45). -/
theorem insertAt_cases (i : Nat) (s : State) :
    (s.outLen.toNat = s.params.outCap ∧ insertAt i s = .ended { s with status := .invalid, reason := .outOverflow }) ∨
    (s.outLen.toNat ≠ s.params.outCap ∧
      insertAt i s = .go { copyUp i (s.outLen.toNat - i) s with outLen := s.outLen + 1#16 }) := by
  unfold insertAt raise
  split
  · exact .inl ⟨‹_›, rfl⟩
  · exact .inr ⟨‹_›, rfl⟩

/-- `RemoveAt` changes the output RAM and the output length alone (R46). -/
theorem removeAt_frame (i : Nat) (s : State) :
    removeAt i s = { s with outMem := (removeAt i s).outMem, outLen := s.outLen - 1#16 } := by
  unfold removeAt
  rw [copyDown_frame]

/-! ### The EDIFACT packer (R192) -/

/-- The codeword writes at each phase: one appended codeword at phases 0 to 2, and the bits in flight set at phases 1 to 3. -/
theorem ediPackBits_cases (p : Nat) (ev : Byte) (s : State) :
    (p = 0 ∧ ediPackBits p ev s = chainAppend ev s) ∨
    (p = 1 ∧ ediPackBits p ev s = chainAppend (ev <<< 2) (orLast (ev >>> 6) s)) ∨
    (p = 2 ∧ ediPackBits p ev s = chainAppend (ev <<< 4) (orLast (ev >>> 4) s)) ∨
    (p ≠ 0 ∧ p ≠ 1 ∧ p ≠ 2 ∧ ediPackBits p ev s = .go (orLast (ev >>> 2) s)) := by
  unfold ediPackBits
  split
  · exact .inl ⟨‹_›, rfl⟩
  · split
    · exact .inr (.inl ⟨‹_›, rfl⟩)
    · split
      · exact .inr (.inr (.inl ⟨‹_›, rfl⟩))
      · exact .inr (.inr (.inr ⟨‹_›, ‹_›, ‹_›, rfl⟩))

/-- Setting the bits in flight changes one codeword of the output and nothing else. -/
theorem orLast_frame (v : Byte) (s : State) : orLast v s = { s with outMem := (orLast v s).outMem } := rfl

theorem readOut_orLast (v : Byte) (s : State) (a : Nat) :
    readOut (orLast v s) a = if a = s.outLen.toNat - 1 then readOut s a ||| v else readOut s a := by
  rw [orLast, setOut_eq, readOut_writeOut]
  split
  · subst_vars; rfl
  · rfl

/-- Packing one value goes on exactly when its codeword writes do, and counts it. -/
theorem ediPack_go {e : BitVec 6} {s t : State} (h : ediPack e s = .go t) :
    ∃ u, ediPackBits (s.chainValues.toNat % 4) (e.setWidth 8 <<< 2) s = .go u ∧
      t = { u with chainValues := u.chainValues + 1#16 } := by
  obtain ⟨u, hu, ht⟩ := andThen_eq_go h
  exact ⟨u, hu, (Flow.go.inj ht).symm⟩

/-! ### The Base256 header (R227, R228, R229) -/

/-- `B256_WRITE_HEADER`: a one-byte header, a two-byte header, too long, or a header the length does not allow (R228, R230). -/
theorem b256WriteHeader_cases (hidx hl lc : Nat) (s : State) :
    (hl = 1 ∧ lc ≤ 249 ∧
      b256WriteHeader hidx hl lc s = .go (writeOut hidx (rand255 (BitVec.ofNat 8 lc) (hidx + 1)) s)) ∨
    (hl = 2 ∧ 250 ≤ lc ∧ lc < 1750 ∧ b256WriteHeader hidx hl lc s =
      .go (writeOut (hidx + 1) (rand255 (headerLow lc) (hidx + 2)) (writeOut hidx (rand255 (headerHigh lc) (hidx + 1)) s))) ∨
    (hl = 2 ∧ 1750 ≤ lc ∧ b256WriteHeader hidx hl lc s = .ended { s with status := .invalid, reason := .b256TooLong }) ∨
    (¬ (hl = 1 ∧ lc ≤ 249) ∧ ¬ (hl = 2 ∧ 250 ≤ lc) ∧
      b256WriteHeader hidx hl lc s = .ended { s with status := .fatal, reason := .b256Header }) := by
  unfold b256WriteHeader raise
  split
  · obtain ⟨h1, h2⟩ := ‹_›
    exact .inl ⟨h1, h2, rfl⟩
  · split
    · obtain ⟨h1, h2⟩ := ‹_›
      split
      · exact .inr (.inr (.inl ⟨h1, ‹_›, rfl⟩))
      · exact .inr (.inl ⟨h1, h2, by omega, rfl⟩)
    · exact .inr (.inr (.inr ⟨‹_›, ‹_›, rfl⟩))

/-! ### The scheme change (R115) -/

/-- The implicit change to Ascii emits nothing: only the scheme and the chain counters change (R115). -/
theorem changeScheme_ascii_implicit (s : State) :
    changeScheme .ascii .implicit s = .go { s with scheme := .ascii, chainWords := 0#16, chainValues := 0#16 } := rfl

/-- From Ascii and Base256 the explicit change to Ascii emits nothing either: "no exit sequence" (R115). -/
theorem changeScheme_ascii_noExit {s : State} (h : s.scheme = .ascii ∨ s.scheme = .base256) :
    changeScheme .ascii .explicit s = .go { s with scheme := .ascii, chainWords := 0#16, chainValues := 0#16 } := by
  rcases h with h | h <;> simp [changeScheme, exitSequence, h, latchInto, latchCodeword, placeholder]

/-- The exit sequence of a CTX scheme is the CTX unlatch (R115 step 1). -/
theorem exitSequence_ctx {s : State} (h : (ctxSetOf s.scheme).isSome = true) :
    exitSequence .explicit s = ctxUnlatch s := by
  revert h
  cases h : s.scheme <;> simp [exitSequence, h, ctxSetOf]

/-- The latch of a scheme other than Ascii is appended in Ascii, and the scheme is entered (R118). -/
theorem latchInto_cases (t : Scheme) (s : State) :
    (t = .ascii ∧ latchInto t s = .go s) ∨
    ∃ c, latchCodeword t = some c ∧
      latchInto t s = (asciiAppend c s).andThen fun s => .go { s with scheme := t } := by
  cases t <;> simp [latchInto, latchCodeword]

/-- The CTX unlatch at a triplet boundary appends 254; off it, it raises (R116). -/
theorem ctxUnlatch_cases (s : State) :
    (s.chainValues.toNat % 3 ≠ 0 ∧ ctxUnlatch s = .ended { s with status := .invalid, reason := .ctxUnlatchBoundary }) ∨
    (s.chainValues.toNat % 3 = 0 ∧ ctxUnlatch s = chainAppend 254#8 s) := by
  unfold ctxUnlatch raise
  split
  · exact .inl ⟨‹_›, rfl⟩
  · exact .inr ⟨Decidable.not_not.1 ‹_›, rfl⟩

/-! ### The CTX buffer (R159, R160) -/

/-- One push: the third value packs the triplet, an earlier one only fills the buffer (R159). -/
theorem ctxPush_cases (v : CtxValue) (s : State) :
    (s.ctxN = 2#3 ∧ ctxPush v s = ctxPack { s with
      ctxBuf := s.ctxBuf.setIfInBounds s.ctxN.toNat v
      ctxN := s.ctxN + 1#3
      ctxLastn := s.ctxLastn + 1#3 }) ∨
    (s.ctxN ≠ 2#3 ∧ ctxPush v s = .go { s with
      ctxBuf := s.ctxBuf.setIfInBounds s.ctxN.toNat v
      ctxN := s.ctxN + 1#3
      ctxLastn := s.ctxLastn + 1#3 }) := by
  have key : (s.ctxN + 1#3 = 3#3) ↔ s.ctxN = 2#3 := by
    constructor <;> intro h <;> bv_omega
  unfold ctxPush
  simp only [key]
  split
  · exact .inl ⟨‹_›, rfl⟩
  · exact .inr ⟨‹_›, rfl⟩

/-- Pushing one run of values and then another is pushing both (R162). -/
theorem ctxPushAll_append (as bs : List CtxValue) :
    ∀ s : State, ctxPushAll (as ++ bs) s = (ctxPushAll as s).andThen (ctxPushAll bs) := by
  induction as with
  | nil => intro s; rfl
  | cons v rest ih =>
    intro s
    simp only [List.cons_append, ctxPushAll]
    cases ctxPush v s with
    | go t => exact ih t
    | ended t => rfl

/-- One pass of the chunk loop over a byte that has values consumes it and pushes them (R162). -/
theorem ctxByte_ok {k : CtxSet} {s : State} {vals : List CtxValue} (h : expand k (readIn s s.inNext.toNat) = .ok vals) :
    ctxByte k s = ctxPushAll vals { s with inNext := s.inNext + 1#16, ctxLastn := 0#3 } := by simp [ctxByte, h]

/-- One pass over a byte without values raises its reason and leaves the cursor at it (R162). -/
theorem ctxByte_error {k : CtxSet} {s : State} {r : Reason} (h : expand k (readIn s s.inNext.toNat) = .error r) :
    ctxByte k s = raise .invalid r s := by simp [ctxByte, h]

/-- The values of one byte and of the bytes after it, together (R150). -/
theorem expandAll_cons {k : CtxSet} {b : Byte} {rest : List Byte} {vals more : List CtxValue}
    (hb : expand k b = .ok vals) (hr : expandAll k rest = some more) : expandAll k (b :: rest) = some (vals ++ more) := by
  simp [expandAll, hb, hr]

/-- Taking no byte takes no value (R162). -/
theorem ctxTakes_zero {k : CtxSet} {s : State} (h : s.inNext.toNat ≤ s.inLen.toNat) : ctxTakes k s 0 [] :=
  ⟨h, rfl, fun _ _ h1 h2 => by omega⟩

/-! ### Bus rows and codeword units -/

/-- A codeword unit always gives a next state: the operation's, or the same state where the block emits nothing (R77, R111). -/
theorem emitUnit_next (here : State → Bool) (op : State → Flow) (s : State) :
    emitUnit here op s = .next (if s.status = .encoding ∧ here s = true then (op s).state else s) := rfl

@[simp] theorem emitUnit_idle {here : State → Bool} {op : State → Flow} {s : State} (h : s.status ≠ .encoding) :
    emitUnit here op s = .next s := by simp [emitUnit, h]

@[simp] theorem unlessEncoding_busy {f : State → State} {s : State} (h : s.status = .encoding) : unlessEncoding f s = s := by
  simp [unlessEncoding, h]

@[simp] theorem unlessEncoding_idle {f : State → State} {s : State} (h : s.status ≠ .encoding) :
    unlessEncoding f s = f s := by simp [unlessEncoding, h]

/-- A settled read answers the register's word once no encode runs, and a free word under its mask while one does (R305). -/
theorem answerSettled_cases (m w : Word) (s : State) :
    (s.status = .encoding ∧ answerSettled m w s = answerFree m s) ∨
    (s.status ≠ .encoding ∧ answerSettled m w s = answer w s) := by
  unfold answerSettled
  split
  · exact .inl ⟨‹_›, rfl⟩
  · exact .inr ⟨‹_›, rfl⟩

/-! ### The encoder's turn and the step -/

/-- Everything the encoder's turn can do: nothing outside an encode, one iteration in one, or the fault of log 7. -/
theorem encoderTurn_cases (s : State) :
    (s.status ≠ .encoding ∧ encoderTurn s = .next s) ∨
    (∃ t, s.status = .encoding ∧ startCheck s = none ∧ schemeOfCode s.target = some t ∧
      encoderTurn s = .next (iterate t s).state) ∨
    (s.status = .encoding ∧ checkedTarget s = none ∧ encoderTurn s = .fault .uncheckedConfiguration) := by
  unfold encoderTurn
  split
  · cases h : checkedTarget s with
    | none => exact .inr (.inr ⟨‹_›, rfl, rfl⟩)
    | some t =>
      unfold checkedTarget at h
      split at h
      · exact .inr (.inl ⟨t, ‹_›, Option.isNone_iff_eq_none.1 ‹_›, h, rfl⟩)
      · exact absurd h (by simp)
  · exact .inl ⟨‹_›, rfl⟩

/-- A step that goes on took the encoder's turn, ran one decoded bus transaction or codeword unit, or reset the machine (R54). -/
theorem step_cases {s t : State} (h : step s = .next t) :
    (s.queue = [] ∧ encoderTurn s = .next t) ∨
    ∃ slot rest, s.queue = slot :: rest ∧
      ((slot = .quiet ∧ encoderTurn { s with queue := rest } = .next t) ∨
       (slot = .reset ∧ t = hardReset { s with queue := rest }) ∨
       (∃ w, slot = .bus w ∧ runWord .host (w.setWidth 56) { s with queue := rest } = .next t) ∨
       (∃ f w i, slot = .codeword f w ∧ f ≠ .host ∧ decode f w = .ok i ∧ exec i { s with queue := rest } = .next t)) := by
  unfold step at h
  split at h
  · exact .inl ⟨‹_›, h⟩
  · rename_i slot rest hq
    refine .inr ⟨slot, rest, hq, ?_⟩
    cases slot with
    | quiet => exact .inl ⟨rfl, h⟩
    | reset =>
      simp only [runSlot, Host.Outcome.next.injEq] at h
      exact .inr (.inl ⟨rfl, h.symm⟩)
    | bus w => exact .inr (.inr (.inl ⟨w, rfl, h⟩))
    | codeword f w =>
      simp only [runSlot] at h
      split at h
      · exact absurd h (by simp)
      · unfold runWord at h
        split at h
        · exact .inr (.inr (.inr ⟨f, w, _, rfl, ‹_›, ‹_›, h⟩))
        · exact absurd h (by simp)

end Sys2Proof.Machine
end

