-- ==== Sys2Proof/Laws/PerInstr.lean ====
section
/-! SUPPORT. Laws/PerInstr.lean: statements made of every constructor of Instr, one lemma each.
EncodeFits: the encoding of an instruction fits the width of its format (spec R60). -/

namespace Sys2Proof.Laws.EncodeFits

/-- The raw word of the instruction has no bit above its format's width. -/
def Statement (i : Instr) : Prop := (encode i).toNat < 2 ^ i.format.width

/-- A value of width `n`, put in the raw container, stays below `2 ^ n`. -/
theorem setWidth_lt {n : Nat} (v : BitVec n) : (v.setWidth 56 : Raw).toNat < 2 ^ n := by
  rw [BitVec.toNat_setWidth]
  exact Nat.lt_of_le_of_lt (Nat.mod_le _ _) v.isLt

/-- A write transaction has 49 bits (R65). -/
theorem encodeWrite_lt (p : Place) (d : Word) : (encodeWrite p d).toNat < 2 ^ 49 := setWidth_lt _

/-- A read transaction has 49 bits (R65). -/
theorem encodeRead_lt (p : Place) : (encodeRead p).toNat < 2 ^ 49 := setWidth_lt _

theorem start (hi : BitVec 31) : Statement (.start hi) := encodeWrite_lt _ _

theorem wrCtrlNop (hi : BitVec 31) : Statement (.wrCtrlNop hi) := encodeWrite_lt _ _

theorem wrTarget (data : Word) : Statement (.wrTarget data) := encodeWrite_lt _ _

theorem wrHint (data : Word) : Statement (.wrHint data) := encodeWrite_lt _ _

theorem wrInLen (data : Word) : Statement (.wrInLen data) := encodeWrite_lt _ _

theorem wrStatus (data : Word) : Statement (.wrStatus data) := encodeWrite_lt _ _

theorem wrReason (data : Word) : Statement (.wrReason data) := encodeWrite_lt _ _

theorem wrSizeIdx (data : Word) : Statement (.wrSizeIdx data) := encodeWrite_lt _ _

theorem wrOutLen (data : Word) : Statement (.wrOutLen data) := encodeWrite_lt _ _

theorem wrCaps (data : Word) : Statement (.wrCaps data) := encodeWrite_lt _ _

theorem wrNsizes (data : Word) : Statement (.wrNsizes data) := encodeWrite_lt _ _

theorem wrDbgCursor (data : Word) : Statement (.wrDbgCursor data) := encodeWrite_lt _ _

theorem wrDbgScheme (data : Word) : Statement (.wrDbgScheme data) := encodeWrite_lt _ _

theorem wrDbgChain (data : Word) : Statement (.wrDbgChain data) := encodeWrite_lt _ _

theorem wrDbgCtx (data : Word) : Statement (.wrDbgCtx data) := encodeWrite_lt _ _

theorem wrInMem (i : BitVec 12) (data : Word) : Statement (.wrInMem i data) := encodeWrite_lt _ _

theorem wrOutMem (i : BitVec 12) (data : Word) : Statement (.wrOutMem i data) := encodeWrite_lt _ _

theorem rdCtrl : Statement .rdCtrl := encodeRead_lt _

theorem rdTarget : Statement .rdTarget := encodeRead_lt _

theorem rdHint : Statement .rdHint := encodeRead_lt _

theorem rdInLen : Statement .rdInLen := encodeRead_lt _

theorem rdStatus : Statement .rdStatus := encodeRead_lt _

theorem rdReason : Statement .rdReason := encodeRead_lt _

theorem rdSizeIdx : Statement .rdSizeIdx := encodeRead_lt _

theorem rdOutLen : Statement .rdOutLen := encodeRead_lt _

theorem rdCaps : Statement .rdCaps := encodeRead_lt _

theorem rdNsizes : Statement .rdNsizes := encodeRead_lt _

theorem rdDbgCursor : Statement .rdDbgCursor := encodeRead_lt _

theorem rdDbgScheme : Statement .rdDbgScheme := encodeRead_lt _

theorem rdDbgChain : Statement .rdDbgChain := encodeRead_lt _

theorem rdDbgCtx : Statement .rdDbgCtx := encodeRead_lt _

theorem rdInMem (i : BitVec 12) : Statement (.rdInMem i) := encodeRead_lt _

theorem rdOutMem (i : BitVec 12) : Statement (.rdOutMem i) := encodeRead_lt _

theorem wrUnmapped (a : Addr) (data : Word) : Statement (.wrUnmapped a data) := encodeWrite_lt _ _

theorem rdUnmapped (a : Addr) : Statement (.rdUnmapped a) := encodeRead_lt _

theorem cwAsciiChar (c : Byte) : Statement (.cwAsciiChar c) := setWidth_lt _

theorem cwPadFirst : Statement .cwPadFirst := by unfold Statement; decide

theorem cwDigitPair (c : Byte) : Statement (.cwDigitPair c) := setWidth_lt _

theorem cwLatchC40 : Statement .cwLatchC40 := by unfold Statement; decide

theorem cwLatchBase256 : Statement .cwLatchBase256 := by unfold Statement; decide

theorem cwLatchX12 : Statement .cwLatchX12 := by unfold Statement; decide

theorem cwLatchText : Statement .cwLatchText := by unfold Statement; decide

theorem cwLatchEdifact : Statement .cwLatchEdifact := by unfold Statement; decide

theorem cwUpperShift (lo : Byte) : Statement (.cwUpperShift lo) := setWidth_lt _

theorem ctx16Triplet (p : BitVec 16) : Statement (.ctx16Triplet p) := setWidth_lt _

theorem ctxUnlatch : Statement .ctxUnlatch := by unfold Statement; decide

theorem edi24Quad (e0 : BitVec 6) (e1 : BitVec 6) (e2 : BitVec 6) (e3 : BitVec 6) : Statement (.edi24Quad e0 e1 e2 e3) := setWidth_lt _

theorem ediUnlatch : Statement .ediUnlatch := by unfold Statement; decide

theorem b256H1 (h : Byte) : Statement (.b256H1 h) := setWidth_lt _

theorem b256H2 (h : Byte) (l : Byte) : Statement (.b256H2 h l) := setWidth_lt _

theorem b256D (d : Byte) : Statement (.b256D d) := setWidth_lt _

theorem padRandom (p : Byte) : Statement (.padRandom p) := setWidth_lt _

end Sys2Proof.Laws.EncodeFits
end

