-- ==== Sys2Proof/Tests/Slice0.lean ====
section
/-! SUPPORT. Tests/Slice0.lean: the model's own tests, with expected results written out from the spec: one word per row of the
opcode table, the refused words, the WellFormed smoke tests, one small step per instruction, and for every statement with hypotheses
states and operands that meet them. -/

namespace Sys2Proof.Tests

open Sys2Proof Sys2Proof.Machine

/-! ### States to test on -/

/-- A RAM that holds these bytes from address 0 on. -/
def listing (bytes : List Nat) : Memory := bytes.mapIdx fun i b => (i, BitVec.ofNat 8 b)

/-- An encode of these bytes right after START. -/
def running (t : Scheme) (bytes : List Nat) : State :=
  { State.reset with
    status := .encoding
    target := schemeCode t
    inLen := BitVec.ofNat 16 bytes.length
    inMem := listing bytes }

/-- An encode whose output so far is `out`, in the scheme `t`, with these chain counts. -/
def mid (t : Scheme) (out : List Nat) (words values : Nat) : State :=
  { State.reset with
    status := .encoding
    target := schemeCode t
    latched := true
    scheme := t
    outLen := BitVec.ofNat 16 out.length
    chainWords := BitVec.ofNat 16 words
    chainValues := BitVec.ofNat 16 values
    outMem := listing out }

/-- A Base256 or EDIFACT encode of which only the counts matter. -/
def counts (t : Scheme) (len words values : Nat) : State :=
  { mid t [] words values with outLen := BitVec.ofNat 16 len }

/-- A C40 encode after its latch whose input is consumed, with one value of the last byte left in the buffer (R163). -/
def leftover (bytes : List Nat) : State :=
  { mid .c40 [230] 0 0 with
    inLen := BitVec.ofNat 16 bytes.length
    inNext := BitVec.ofNat 16 bytes.length
    inMem := listing bytes
    ctxN := 1#3
    ctxLastn := 1#3 }

/-- A CTX encode after its latch, with these bytes still to come. -/
def atBoundary (bytes : List Nat) : State :=
  { mid .c40 [230] 0 0 with inLen := BitVec.ofNat 16 bytes.length, inMem := listing bytes }

/-- The state an outcome goes on in satisfies this. -/
def after (o : Machine.Outcome) (p : State → Bool) : Bool :=
  match o with
  | .next t => p t
  | .fault _ => false
  | .refused _ => false

/-- The first `n` codewords of the output. -/
def outOf (n : Nat) (s : State) : List Nat := (List.range n).map fun i => (readOut s i).toNat

/-- The word a read returned. -/
def got (w : Word) (s : State) : Bool := decide (s.returned = [w])

/-- Small legal parameters (R5): two input bytes, five output codewords. -/
def small : Config.Params where
  symDw := [1, 4]
  autoSet := [0, 1]
  inCap := 2
  outCap := 5
  ediLo := 31

/-- Legal parameters with the deepest output RAM (R5). -/
def deep : Config.Params where
  symDw := [3, 5, 8, 280]
  autoSet := [0, 1, 2, 3]
  inCap := 4096
  outCap := 4096
  ediLo := 32

/-! ### One word per row of the opcode table, from R65 to R75 and the table -/

theorem test_decode_start : decode .host 0x1000000000001#56 = .ok (.start 0#31) := by decide
theorem test_decode_wrCtrlNop : decode .host 0x10000FFFFFFFE#56 = .ok (.wrCtrlNop 0x7FFFFFFF#31) := by decide
theorem test_decode_wrTarget : decode .host 0x1000180000003#56 = .ok (.wrTarget 0x80000003#32) := by decide
theorem test_decode_wrHint : decode .host 0x1000280000003#56 = .ok (.wrHint 0x80000003#32) := by decide
theorem test_decode_wrInLen : decode .host 0x1000380000003#56 = .ok (.wrInLen 0x80000003#32) := by decide
theorem test_decode_wrStatus : decode .host 0x1000480000003#56 = .ok (.wrStatus 0x80000003#32) := by decide
theorem test_decode_wrReason : decode .host 0x1000580000003#56 = .ok (.wrReason 0x80000003#32) := by decide
theorem test_decode_wrSizeIdx : decode .host 0x1000680000003#56 = .ok (.wrSizeIdx 0x80000003#32) := by decide
theorem test_decode_wrOutLen : decode .host 0x1000780000003#56 = .ok (.wrOutLen 0x80000003#32) := by decide
theorem test_decode_wrCaps : decode .host 0x1000880000003#56 = .ok (.wrCaps 0x80000003#32) := by decide
theorem test_decode_wrNsizes : decode .host 0x1000980000003#56 = .ok (.wrNsizes 0x80000003#32) := by decide
theorem test_decode_wrDbgCursor : decode .host 0x1001080000003#56 = .ok (.wrDbgCursor 0x80000003#32) := by decide
theorem test_decode_wrDbgScheme : decode .host 0x1001180000003#56 = .ok (.wrDbgScheme 0x80000003#32) := by decide
theorem test_decode_wrDbgChain : decode .host 0x1001280000003#56 = .ok (.wrDbgChain 0x80000003#32) := by decide
theorem test_decode_wrDbgCtx : decode .host 0x1001380000003#56 = .ok (.wrDbgCtx 0x80000003#32) := by decide
theorem test_decode_rdCtrl : decode .host 0x0000000000000#56 = .ok .rdCtrl := by decide
theorem test_decode_rdTarget : decode .host 0x0000100000000#56 = .ok .rdTarget := by decide
theorem test_decode_rdHint : decode .host 0x0000200000000#56 = .ok .rdHint := by decide
theorem test_decode_rdInLen : decode .host 0x0000300000000#56 = .ok .rdInLen := by decide
theorem test_decode_rdStatus : decode .host 0x0000400000000#56 = .ok .rdStatus := by decide
theorem test_decode_rdReason : decode .host 0x0000500000000#56 = .ok .rdReason := by decide
theorem test_decode_rdSizeIdx : decode .host 0x0000600000000#56 = .ok .rdSizeIdx := by decide
theorem test_decode_rdOutLen : decode .host 0x0000700000000#56 = .ok .rdOutLen := by decide
theorem test_decode_rdCaps : decode .host 0x0000800000000#56 = .ok .rdCaps := by decide
theorem test_decode_rdNsizes : decode .host 0x0000900000000#56 = .ok .rdNsizes := by decide
theorem test_decode_rdDbgCursor : decode .host 0x0001000000000#56 = .ok .rdDbgCursor := by decide
theorem test_decode_rdDbgScheme : decode .host 0x0001100000000#56 = .ok .rdDbgScheme := by decide
theorem test_decode_rdDbgChain : decode .host 0x0001200000000#56 = .ok .rdDbgChain := by decide
theorem test_decode_rdDbgCtx : decode .host 0x0001300000000#56 = .ok .rdDbgCtx := by decide
theorem test_decode_wrInMem : decode .host 0x1100200000041#56 = .ok (.wrInMem 2#12 0x41#32) := by decide
theorem test_decode_wrOutMem : decode .host 0x12FFF00000041#56 = .ok (.wrOutMem 0xFFF#12 0x41#32) := by decide
theorem test_decode_rdInMem : decode .host 0x01FFF00000000#56 = .ok (.rdInMem 0xFFF#12) := by decide
theorem test_decode_rdOutMem : decode .host 0x0200000000000#56 = .ok (.rdOutMem 0#12) := by decide
theorem test_decode_wrUnmapped : decode .host 0x1001400000001#56 = .ok (.wrUnmapped 0x14#16 1#32) := by decide
theorem test_decode_rdUnmapped : decode .host 0x0300000000000#56 = .ok (.rdUnmapped 0x3000#16) := by decide
theorem test_decode_cwAsciiChar : decode .cw8 66#56 = .ok (.cwAsciiChar 66#8) := by decide
theorem test_decode_cwPadFirst : decode .cw8 129#56 = .ok .cwPadFirst := by decide
theorem test_decode_cwDigitPair : decode .cw8 142#56 = .ok (.cwDigitPair 142#8) := by decide
theorem test_decode_cwLatchC40 : decode .cw8 230#56 = .ok .cwLatchC40 := by decide
theorem test_decode_cwLatchBase256 : decode .cw8 231#56 = .ok .cwLatchBase256 := by decide
theorem test_decode_cwLatchX12 : decode .cw8 238#56 = .ok .cwLatchX12 := by decide
theorem test_decode_cwLatchText : decode .cw8 239#56 = .ok .cwLatchText := by decide
theorem test_decode_cwLatchEdifact : decode .cw8 240#56 = .ok .cwLatchEdifact := by decide
theorem test_decode_cwUpperShift : decode .asciiUs 0xEB01#56 = .ok (.cwUpperShift 1#8) := by decide
theorem test_decode_ctx16Triplet : decode .ctx16 0x5B0B#56 = .ok (.ctx16Triplet 23307#16) := by decide
theorem test_decode_ctxUnlatch : decode .cw8 254#56 = .ok .ctxUnlatch := by decide
/-- The codewords 4, 32, 196 of `"ABCD"` (R192). -/
theorem test_decode_edi24Quad : decode .edi24 0x0420C4#56 = .ok (.edi24Quad 1#6 2#6 3#6 4#6) := by decide
theorem test_decode_ediUnlatch : decode .ediSlot 31#56 = .ok .ediUnlatch := by decide
theorem test_decode_b256H1 : decode .b256H1 44#56 = .ok (.b256H1 44#8) := by decide
/-- The header 38, 198 of 255 payload bytes (R232). -/
theorem test_decode_b256H2 : decode .b256H2 0x26C6#56 = .ok (.b256H2 38#8 198#8) := by decide
theorem test_decode_b256D : decode .b256D 2#56 = .ok (.b256D 2#8) := by decide
theorem test_decode_padRandom : decode .pad 175#56 = .ok (.padRandom 175#8) := by decide

/-- Words no format has (R67, R68, R70, R71, R75, R60). -/
theorem test_decode_refused :
    decode .cw8 0#56 = .error .reservedCodeword ∧ decode .cw8 232#56 = .error .reservedCodeword ∧
    decode .cw8 235#56 = .error .reservedCodeword ∧ decode .cw8 255#56 = .error .reservedCodeword ∧
    decode .cw8 256#56 = .error .tooWide ∧ decode .asciiUs 0xEB81#56 = .error .notUpperShift ∧
    decode .ctx16 0#56 = .error .pairRange ∧ decode .ctx16 64001#56 = .error .pairRange ∧
    decode .ediSlot 30#56 = .error .notEdiUnlatch ∧ decode .pad 0#56 = .error .padRange ∧
    decode .pad 255#56 = .error .padRange := by decide

/-- The host's two questions, on the START word and on a CTX pair. -/
theorem test_table_word :
    decodeTableWord 56 0x1000000000001 = some (.start 0#31) ∧ decodeTableWord 16 0x5B0B = some (.ctx16Triplet 23307#16) ∧
    after (step (State.reset.withFetchWord 56 0x1000000000001)) (fun t => decide (t.status = .encoding)) = true ∧
    after (step (State.reset.withFetchWord 16 0x5B0B)) (fun t => decide (outOf 3 t = [230, 91, 11])) = true := by decide

/-! ### WellFormed refuses an ill-formed term at each of its checks -/

theorem test_illformed_wrUnmapped : Instr.wellFormed (.wrUnmapped 0x0009#16 0#32) = false := by decide
theorem test_illformed_rdUnmapped : Instr.wellFormed (.rdUnmapped 0x1000#16) = false := by decide
theorem test_illformed_cwAsciiChar :
    Instr.wellFormed (.cwAsciiChar 0#8) = false ∧ Instr.wellFormed (.cwAsciiChar 129#8) = false := by decide
theorem test_illformed_cwDigitPair :
    Instr.wellFormed (.cwDigitPair 129#8) = false ∧ Instr.wellFormed (.cwDigitPair 230#8) = false := by decide
theorem test_illformed_cwUpperShift :
    Instr.wellFormed (.cwUpperShift 0#8) = false ∧ Instr.wellFormed (.cwUpperShift 129#8) = false := by decide
theorem test_illformed_ctx16Triplet :
    Instr.wellFormed (.ctx16Triplet 0#16) = false ∧ Instr.wellFormed (.ctx16Triplet 64001#16) = false := by decide
theorem test_illformed_padRandom :
    Instr.wellFormed (.padRandom 0#8) = false ∧ Instr.wellFormed (.padRandom 255#8) = false := by decide

/-! ### One step per instruction: the host rows -/

/-- R100: after a finished encode START makes the stream anew. -/
theorem test_start : after (exec (.start 0#31) { mid .c40 [230, 91, 11] 2 3 with status := .complete, sizeIdx := 0#8 })
    (fun t => decide (t.status = .encoding ∧ t.scheme = .ascii ∧ t.outLen = 0#16 ∧ t.sizeIdx = 0xFF#8 ∧ t.latched = false)) =
    true := by decide

/-- R101: TARGET 6 is judged first. -/
theorem test_start_badTarget : after (exec (.start 0#31) { State.reset with target := 6#3, hint := 30#8 })
    (fun t => decide (t.status = .fatal ∧ reasonCode t.reason = 0x81#8)) = true := by decide

/-- A write that changes nothing (R103, R49). -/
theorem test_writes_without_effect : ∀ i ∈ [Instr.wrCtrlNop 0x7FFFFFFF#31, .wrStatus 1#32, .wrReason 1#32, .wrSizeIdx 1#32,
    .wrOutLen 1#32, .wrCaps 1#32, .wrNsizes 1#32, .wrDbgCursor 1#32, .wrDbgScheme 1#32, .wrDbgChain 1#32, .wrDbgCtx 1#32,
    .wrOutMem 0#12 1#32, .wrUnmapped 0x3000#16 1#32],
    after (exec i State.reset) (fun t => decide (t = State.reset)) = true := by decide

theorem test_wrTarget : after (exec (.wrTarget 0xFFFFFFFD#32) State.reset) (fun t => decide (t.target = 5#3)) = true := by decide
theorem test_wrHint : after (exec (.wrHint 0xFF18#32) State.reset) (fun t => decide (t.hint = 24#8)) = true := by decide
theorem test_wrInLen : after (exec (.wrInLen 0x12345#32) State.reset) (fun t => decide (t.inLen = 0x2345#16)) = true := by decide
theorem test_wrInMem : after (exec (.wrInMem 0xFFF#12 0x141#32) State.reset)
    (fun t => decide (readIn t 4095 = 0x41#8)) = true := by decide
/-- R304: the write is lost while an encode runs. -/
theorem test_wrInMem_busy : after (exec (.wrInMem 0#12 0x42#32) (running .ascii [65]))
    (fun t => decide (readIn t 0 = 65#8)) = true := by decide

theorem test_rdCtrl : after (exec .rdCtrl (running .ascii [])) (got 0#32) = true := by decide
theorem test_rdTarget : after (exec .rdTarget (running .edifact [])) (got 4#32) = true := by decide
theorem test_rdHint : after (exec .rdHint State.reset) (got 0xFF#32) = true := by decide
theorem test_rdInLen : after (exec .rdInLen (running .ascii [65, 66])) (got 2#32) = true := by decide
/-- R26, R62: Complete is 2, with DONE in bit 3. -/
theorem test_rdStatus : after (exec .rdStatus { State.reset with status := .complete }) (got 0xA#32) = true := by decide
theorem test_rdStatus_busy : after (exec .rdStatus (running .ascii [])) (got 1#32) = true := by decide
theorem test_rdReason : after (exec .rdReason { State.reset with status := .fatal, reason := .relatch }) (got 0x86#32) = true := by
  decide
theorem test_rdSizeIdx : after (exec .rdSizeIdx State.reset) (got 0xFF#32) = true := by decide
theorem test_rdOutLen : after (exec .rdOutLen { State.reset with outLen := 0x123#16 }) (got 0x123#32) = true := by decide
/-- `IN_CAP = 4096`, `OUT_CAP = 1559` (R5). -/
theorem test_rdCaps : after (exec .rdCaps State.reset) (got 0x06171000#32) = true := by decide
theorem test_rdNsizes : after (exec .rdNsizes State.reset) (got 30#32) = true := by decide
theorem test_rdDbgCursor : after (exec .rdDbgCursor { State.reset with inNext := 7#16 }) (got 7#32) = true := by decide
theorem test_rdDbgScheme : after (exec .rdDbgScheme { State.reset with scheme := .c40, latched := true }) (got 9#32) = true := by
  decide
theorem test_rdDbgChain : after (exec .rdDbgChain { State.reset with chainWords := 2#16, chainValues := 3#16 })
    (got 0x00030002#32) = true := by decide
theorem test_rdDbgCtx : after (exec .rdDbgCtx { State.reset with ctxN := 2#3, ctxLastn := 1#3 }) (got 0x12#32) = true := by decide
theorem test_rdInMem : after (exec (.rdInMem 1#12) (running .ascii [65, 66])) (got 66#32) = true := by decide
theorem test_rdInMem_unmapped : after (exec (.rdInMem 2#12) { State.reset with params := small }) (got 0#32) = true := by decide
theorem test_rdOutMem : after (exec (.rdOutMem 1#12) { mid .ascii [142, 164] 2 2 with status := .invalid }) (got 164#32) = true := by
  decide
theorem test_rdOutMem_unmapped : after (exec (.rdOutMem 1559#12) State.reset) (got 0#32) = true := by decide
theorem test_rdUnmapped : after (exec (.rdUnmapped 0xA#16) State.reset) (got 0#32) = true := by decide

/-! ### One step per instruction: the codeword rows -/

theorem test_cwAsciiChar : after (exec (.cwAsciiChar 66#8) (mid .ascii [142] 1 1))
    (fun t => decide (outOf 2 t = [142, 66] ∧ t.outLen = 2#16 ∧ t.chainValues = 2#16)) = true := by decide
theorem test_cwAsciiChar_overflow : after (exec (.cwAsciiChar 66#8) { mid .ascii [1, 2, 3, 4, 5] 5 5 with params := small })
    (fun t => decide (t.status = .invalid ∧ reasonCode t.reason = 6#8 ∧ t.outLen = 5#16)) = true := by decide
theorem test_cwDigitPair : after (exec (.cwDigitPair 142#8) (mid .ascii [] 0 0))
    (fun t => decide (outOf 1 t = [142] ∧ t.chainWords = 1#16)) = true := by decide
theorem test_cwUpperShift : after (exec (.cwUpperShift 128#8) (mid .ascii [] 0 0))
    (fun t => decide (outOf 2 t = [235, 128] ∧ t.chainWords = 2#16 ∧ t.chainValues = 2#16)) = true := by decide
theorem test_cwPadFirst : after (exec .cwPadFirst (mid .ascii [66] 1 1)) (fun t => decide (outOf 2 t = [66, 129])) = true := by decide
/-- `rand253(129, 3) = 70` (R250). -/
theorem test_padRandom : after (exec (.padRandom 70#8) (mid .ascii [66, 129] 2 2))
    (fun t => decide (outOf 3 t = [66, 129, 70])) = true := by decide
theorem test_padRandom_notEmitted : after (exec (.padRandom 175#8) (mid .ascii [66, 129] 2 2))
    (fun t => decide (t.outLen = 2#16)) = true := by decide
theorem test_cwLatchC40 : after (exec .cwLatchC40 (running .c40 []))
    (fun t => decide (outOf 1 t = [230] ∧ t.scheme = .c40 ∧ t.chainWords = 0#16)) = true := by decide
/-- R119: `OUT = [231, 44]`. -/
theorem test_cwLatchBase256 : after (exec .cwLatchBase256 (running .base256 []))
    (fun t => decide (outOf 2 t = [231, 44] ∧ t.scheme = .base256 ∧ t.chainWords = 1#16 ∧ t.chainValues = 0#16)) = true := by decide
theorem test_cwLatchX12 : after (exec .cwLatchX12 (running .x12 []))
    (fun t => decide (outOf 1 t = [238] ∧ t.scheme = .x12)) = true := by decide
theorem test_cwLatchText : after (exec .cwLatchText (running .text []))
    (fun t => decide (outOf 1 t = [239] ∧ t.scheme = .text)) = true := by decide
theorem test_cwLatchEdifact : after (exec .cwLatchEdifact (running .edifact []))
    (fun t => decide (outOf 1 t = [240] ∧ t.scheme = .edifact)) = true := by decide
theorem test_ctx16Triplet : after (exec (.ctx16Triplet 23307#16) (mid .c40 [230] 0 0))
    (fun t => decide (outOf 3 t = [230, 91, 11] ∧ t.chainWords = 2#16 ∧ t.chainValues = 3#16)) = true := by decide
theorem test_ctxUnlatch : after (exec .ctxUnlatch (mid .x12 [238, 91, 11] 2 3))
    (fun t => decide (outOf 4 t = [238, 91, 11, 254] ∧ t.scheme = .ascii ∧ t.chainWords = 0#16)) = true := by decide
theorem test_ctxUnlatch_boundary : after (exec .ctxUnlatch (mid .c40 [230] 0 1))
    (fun t => decide (t.status = .invalid ∧ reasonCode t.reason = 4#8 ∧ t.outLen = 1#16 ∧ t.scheme = .c40)) = true := by decide
/-- R192: 4, 32, 196 for `"ABCD"`. -/
theorem test_edi24Quad : after (exec (.edi24Quad 1#6 2#6 3#6 4#6) (mid .edifact [240] 0 0))
    (fun t => decide (outOf 4 t = [240, 4, 32, 196] ∧ t.chainWords = 3#16 ∧ t.chainValues = 4#16)) = true := by decide
/-- R198: at phase 3 the unlatch turns 192 into 223. -/
theorem test_ediUnlatch : after (exec .ediUnlatch (mid .edifact [240, 4, 32, 192] 3 3))
    (fun t => decide (outOf 4 t = [240, 4, 32, 223] ∧ t.outLen = 4#16 ∧ t.scheme = .ascii)) = true := by decide
theorem test_ediUnlatch_clean : after (exec .ediUnlatch (mid .edifact [240, 4, 32, 196] 3 4))
    (fun t => decide (outOf 5 t = [240, 4, 32, 196, 124])) = true := by decide
/-- R232, `"A"`: 231, 45, 2. -/
theorem test_b256D : after (exec (.b256D 2#8) (mid .base256 [231, 44] 1 0))
    (fun t => decide (outOf 3 t = [231, 45, 2] ∧ t.chainWords = 2#16 ∧ t.chainValues = 1#16)) = true := by decide
theorem test_b256H1 : after (exec (.b256H1 45#8) (mid .base256 [231, 0, 2] 2 1))
    (fun t => decide (outOf 3 t = [231, 45, 2])) = true := by decide
/-- The 250th payload byte, of which only the counts matter, has no one-byte header. -/
theorem test_b256H1_notEmitted : after (exec (.b256H1 37#8) (counts .base256 253 252 250)) (fun t => decide (t.outMem = [])) =
    true := by decide
/-- 255 payload bytes: nominal 250, 5 at positions 2 and 3 (R252). -/
theorem test_b256H2 : after (exec (.b256H2 38#8 198#8) (counts .base256 258 257 255))
    (fun t => decide (t.outMem = [(1, 38#8), (2, 198#8)])) = true := by decide

/-! ### One iteration -/

/-- R138: empty input. -/
theorem test_iterate_ascii_empty : after (encoderTurn (running .ascii []))
    (fun t => decide (outOf 3 t = [129, 175, 70] ∧ t.status = .complete ∧ t.sizeIdx = 0#8)) = true := by decide
/-- R112: C40 `"AIM"`. -/
theorem test_iterate_c40 : after (encoderTurn (running .c40 [65, 73, 77]))
    (fun t => decide (outOf 3 t = [230, 91, 11] ∧ t.status = .complete ∧ t.scheme = .c40)) = true := by decide
/-- R168: C40 `"A"` rolls back. -/
theorem test_iterate_c40_rollback : after (encoderTurn (running .c40 [65]))
    (fun t => decide (outOf 3 t = [230, 254, 66] ∧ t.status = .complete ∧ t.scheme = .ascii)) = true := by decide
/-- R110: X12 `"a"`. -/
theorem test_iterate_x12_error : after (encoderTurn (running .x12 [97]))
    (fun t => decide (t.status = .invalid ∧ reasonCode t.reason = 2#8 ∧ t.outLen = 1#16 ∧ t.inNext = 0#16)) = true := by decide
/-- R196: EDIFACT `"A"`. -/
theorem test_iterate_edifact : after (encoderTurn (running .edifact [65]))
    (fun t => decide (outOf 3 t = [240, 66, 129] ∧ t.status = .complete)) = true := by decide
/-- R232: Base256 `"A"`. -/
theorem test_iterate_base256 : after (encoderTurn (running .base256 [65]))
    (fun t => decide (outOf 3 t = [231, 45, 2] ∧ t.status = .complete ∧ t.scheme = .ascii)) = true := by decide
/-- R229: the collapse moves the payload byte 65 from position 4, where it is 152, to position 3, where it is 2 (R252). -/
theorem test_exactFit_moves_payload : (match b256UpdatePerfect 0 (counts .base256 4 3 1 |> writeOut 3 152#8) with
    | .go t => decide (readOut t 1 = 44#8 ∧ readOut t 2 = 2#8 ∧ t.outLen = 3#16)
    | .ended _ => false) = true := by decide

/-! ### States and operands that meet the hypotheses of each statement
Each theorem names its statement; where the statement has several clauses, one part per clause. -/

/-- The encoder's turn on a checked configuration is an iteration. -/
theorem turn_iterates {s : State} {t : Scheme} (hs : s.status = .encoding) (ht : checkedTarget s = some t) :
    encoderTurn s = .next (iterate t s).state := by
  simp [encoderTurn, hs, ht]

/-- Each range of R49, R68, R70 and R75 at both ends. -/
theorem witness_DecodeEncodeRoundTrip : ∀ i ∈ [Instr.wrUnmapped 0xA#16 0#32, .wrUnmapped 0xF#16 0#32, .rdUnmapped 0x14#16,
    .rdUnmapped 0xFFF#16, .rdUnmapped 0x3000#16, .rdUnmapped 0xFFFF#16, .cwAsciiChar 1#8, .cwAsciiChar 128#8,
    .cwDigitPair 130#8, .cwDigitPair 229#8, .cwUpperShift 1#8, .cwUpperShift 128#8, .ctx16Triplet 1#16,
    .ctx16Triplet 64000#16, .padRandom 1#8, .padRandom 254#8, .start 0#31, .rdCtrl, .ediUnlatch], i.wellFormed = true := by decide

/-- A schedule for each clause. -/
theorem witness_StepRunsTheDecodedInstruction :
    (∃ s : State, s.queue = [.bus 0x1000000000001#49] ∧ decode .host ((0x1000000000001#49).setWidth 56) = .ok (.start 0#31)) ∧
    (∃ s : State, s.queue = [.codeword .cw8 142#56] ∧ Format.cw8 ≠ .host ∧ decode .cw8 142#56 = .ok (.cwDigitPair 142#8)) ∧
    (∃ s : State, s.queue = [.codeword .cw8 232#56] ∧ decode .cw8 232#56 = .error .reservedCodeword) ∧
    (∃ s : State, s.queue = [.codeword .host 0#56]) ∧ (∃ s : State, s.queue = [.quiet]) ∧ (∃ s : State, s.queue = [.reset]) ∧
    (∃ s : State, s.queue = []) :=
  ⟨⟨{ State.reset with queue := [.bus 0x1000000000001#49] }, by decide⟩,
    ⟨{ State.reset with queue := [.codeword .cw8 142#56] }, by decide⟩,
    ⟨{ State.reset with queue := [.codeword .cw8 232#56] }, by decide⟩,
    ⟨{ State.reset with queue := [.codeword .host 0#56] }, by decide⟩, ⟨{ State.reset with queue := [.quiet] }, by decide⟩,
    ⟨{ State.reset with queue := [.reset] }, by decide⟩, ⟨State.reset, by decide⟩⟩

/-- Both alternatives. -/
theorem witness_HardwareResetValues :
    (State.reset = State.reset ∨ State.reset = hardReset (running .c40 [65])) ∧
    (hardReset (running .c40 [65]) = State.reset ∨ hardReset (running .c40 [65]) = hardReset (running .c40 [65])) :=
  ⟨.inl rfl, .inr rfl⟩

/-- Each branch of START_CHECKS at the edge of its range (R101). -/
theorem witness_StartBeginsAnEncode : ∀ s ∈ [State.reset, { State.reset with target := 6#3 }, { State.reset with target := 5#3 },
    { State.reset with hint := 30#8 }, { State.reset with hint := 29#8 }, { State.reset with inLen := 4097#16 },
    { State.reset with inLen := 4096#16 }], s.status ≠ .encoding := by decide

theorem witness_CtrlWritesWithoutEffect : (running .ascii []).status = .encoding := by decide

theorem witness_ConfigurationWrites : State.reset.status ≠ .encoding ∧ (running .ascii []).status = .encoding := by decide

theorem witness_InputByteWrites :
    (State.reset.status ≠ .encoding ∧ (0xFFF#12).toNat < State.reset.params.inCap) ∧ (running .ascii []).status = .encoding ∧
    small.inCap ≤ (2#12).toNat := by decide

theorem witness_WritesWhileEncodingAreIgnored :
    ∃ s : State, s.queue = [.bus 0x1000000000001#49] ∧ (0x1000000000001#49).getLsbD 48 = true ∧ s.status = .encoding :=
  ⟨{ running .ascii [65] with queue := [.bus 0x1000000000001#49] }, by decide⟩

theorem witness_ReadsOfStoredRegisters : State.reset.params.ok ∧ (0xFFF#12).toNat < State.reset.params.inCap ∧ small.ok ∧
    (1#12).toNat < small.inCap ∧ small.inCap ≤ (2#12).toNat := by decide

theorem witness_ReadsOfResultRegisters :
    (∃ s : State, s.status ≠ .encoding ∧ (2#12).toNat < s.outLen.toNat ∧ (2#12).toNat < s.params.outCap) ∧
    State.reset.status ≠ .encoding ∧ State.reset.params.outCap ≤ (1559#12).toNat :=
  ⟨⟨{ mid .c40 [230, 91, 11] 2 3 with status := .complete }, by decide⟩, by decide⟩

theorem witness_UnspecifiedReads :
    ((running .ascii []).status = .encoding ∧ (0#12).toNat < (running .ascii []).params.outCap) ∧
    (State.reset.outLen.toNat ≤ (1558#12).toNat ∧ (1558#12).toNat < State.reset.params.outCap) := by decide

theorem witness_ReadsHaveNoSideEffects : ∃ s : State, s.queue = [.bus 0x400000000#49] ∧ (0x400000000#49).getLsbD 48 = false :=
  ⟨{ running .ascii [65] with queue := [.bus 0x400000000#49] }, by decide⟩

/-- A START that begins an encode, and a silent step. -/
theorem witness_EncoderIsFrozenOutsideAnEncode :
    (∃ s t : State, s.status ≠ .encoding ∧ step s = .next t ∧ t.status = .encoding) ∧
    (∃ s t : State, s.status ≠ .encoding ∧ step s = .next t ∧ (∀ w rest, s.queue ≠ .bus w :: rest) ∧
      ∀ rest, s.queue ≠ .reset :: rest) :=
  ⟨⟨{ State.reset with queue := [.bus 0x1000000000001#49] }, startState { State.reset with queue := [] }, by decide, rfl, by decide⟩,
    ⟨{ State.reset with queue := [.quiet] }, State.reset, by decide, rfl, by simp, by simp⟩⟩

theorem witness_IterationKeepsConfigurationAndInput : ∃ s t : State, s.status = .encoding ∧ encoderTurn s = .next t :=
  ⟨running .c40 [65, 73, 77], _, by decide, turn_iterates (t := .c40) (by decide) (by decide)⟩

/-- Two states that differ in what the host did, on which the encoder goes on; and one on which it stops. -/
theorem witness_IterationIgnoresTheHostSide :
    (∃ s u t : State, s ≠ u ∧ encoderView s = encoderView u ∧ encoderTurn s = .next t) ∧
    (∃ s : State, encoderTurn s = .fault .uncheckedConfiguration) :=
  ⟨⟨running .c40 [65], { running .c40 [65] with returned := [7#32], freeCtr := 1, queue := [.quiet] }, _, by decide, by decide,
      turn_iterates (t := .c40) (by decide) (by decide)⟩,
    ⟨{ running .c40 [65] with target := 7#3 }, by simp [encoderTurn, show checkedTarget { running .c40 [65] with target := 7#3 } = none from by decide]; decide⟩⟩

theorem witness_EveryStepKeepsTheMachineInvariant :
    ∃ s t : State, s.status = .encoding ∧ MachineInv s ∧ step s = .next t :=
  ⟨running .ascii [65, 66], _, by decide, by decide, turn_iterates (t := .ascii) (by decide) (by decide)⟩

theorem witness_EveryStepKeepsTheOutcomeConsistent :
    ∃ s t : State, s.status = .encoding ∧ MachineInv s ∧ outcomeConsistent s ∧ step s = .next t :=
  ⟨running .c40 [65], _, by decide, by decide, by decide, turn_iterates (t := .c40) (by decide) (by decide)⟩

theorem witness_NoStepStops : MachineInv (running .base256 [65, 66]) := by decide

/-- In the target scheme; before the first latch; off the target once latched; off the target and Ascii before it; and an iteration that
goes on. -/
theorem witness_IterationConsumesInputOrEnds :
    (∃ s : State, s.status = .encoding ∧ startCheck s = none ∧ schemeOfCode s.target = some .c40 ∧ s.scheme = .c40) ∧
    (∃ s : State, s.status = .encoding ∧ startCheck s = none ∧ schemeOfCode s.target = some .edifact ∧ s.scheme ≠ .edifact ∧
      s.latched = false ∧ s.scheme = .ascii) ∧
    (∃ s : State, s.status = .encoding ∧ startCheck s = none ∧ schemeOfCode s.target = some .ascii ∧ s.scheme ≠ .ascii ∧
      s.latched = true) ∧
    (∃ s : State, s.status = .encoding ∧ startCheck s = none ∧ schemeOfCode s.target = some .text ∧ s.scheme ≠ .text ∧
      s.latched = false ∧ s.scheme ≠ .ascii) ∧
    (∃ s t : State, MachineInv s ∧ s.status = .encoding ∧ encoderTurn s = .next t ∧ t.status = .encoding) :=
  ⟨⟨mid .c40 [230] 0 0, by decide⟩, ⟨running .edifact [65], by decide⟩, ⟨{ mid .c40 [230] 0 0 with target := 0#3 }, by decide⟩,
    ⟨{ mid .c40 [230] 0 0 with target := 2#3, latched := false }, by decide⟩,
    ⟨running .ascii [65, 66], _, by decide, by decide, turn_iterates (t := .ascii) (by decide) (by decide), by decide⟩⟩

theorem witness_EncodeEndsWithinTheBound :
    ∃ s : State, MachineInv s ∧ s.status = .encoding ∧ s.queue = [] ∧ 0 < s.inLen.toNat - s.inNext.toNat :=
  ⟨running .ascii [65, 66], by decide, by decide, by decide, by decide⟩

theorem witness_CompletionConsumesInputAndFillsTheSymbol :
    ∃ s t : State, MachineInv s ∧ s.status = .encoding ∧ encoderTurn s = .next t ∧ t.status = .complete :=
  ⟨running .c40 [65, 73, 77], _, by decide, by decide, turn_iterates (t := .c40) (by decide) (by decide), by decide⟩

/-- The first iteration, and a later one. -/
theorem witness_LatchIsTheFirstCodeword :
    (∃ s t : State, MachineInv s ∧ s.status = .encoding ∧ schemeOfCode s.target = some .edifact ∧
      latchCodeword .edifact = some 240#8 ∧ s.latched = false ∧ encoderTurn s = .next t) ∧
    (∃ s t : State, MachineInv s ∧ s.status = .encoding ∧ schemeOfCode s.target = some .c40 ∧
      latchCodeword .c40 = some 230#8 ∧ (s.latched = true ∧ readOut s 0 = 230#8) ∧ encoderTurn s = .next t) :=
  ⟨⟨running .edifact [65], _, by decide, by decide, by decide, by decide, by decide,
      turn_iterates (t := .edifact) (by decide) (by decide)⟩,
    ⟨mid .c40 [230, 91, 11] 2 3, _, by decide, by decide, by decide, by decide, by decide,
      turn_iterates (t := .c40) (by decide) (by decide)⟩⟩

/-- Room for exactly one codeword, for two, and for none. -/
theorem witness_LatchRowsEnterTheirScheme : ∀ m ∈ [1, 2, 0], ∃ s : State, s.params.ok ∧ s.status = .encoding ∧ s.scheme = .ascii ∧
    s.outLen.toNat + m = s.params.outCap := by
  intro m hm
  fin_cases hm
  · exact ⟨{ counts .ascii 4 4 4 with params := small }, by decide⟩
  · exact ⟨{ counts .ascii 3 3 3 with params := small }, by decide⟩
  · exact ⟨{ counts .ascii 5 5 5 with params := small }, by decide⟩

/-- At a boundary with room for one; off a boundary; at a boundary with no room. -/
theorem witness_CtxUnlatchRow :
    (∃ s : State, s.status = .encoding ∧ s.scheme = .text ∧ s.chainValues.toNat % 3 = 0 ∧ s.outLen.toNat + 1 = s.params.outCap) ∧
    (∃ s : State, s.status = .encoding ∧ s.scheme = .x12 ∧ s.chainValues.toNat % 3 ≠ 0) ∧
    (∃ s : State, s.status = .encoding ∧ s.scheme = .c40 ∧ s.chainValues.toNat % 3 = 0 ∧ s.outLen.toNat = s.params.outCap) :=
  ⟨⟨{ counts .text 4 2 3 with params := small }, by decide⟩, ⟨counts .x12 1 0 1, by decide⟩,
    ⟨{ counts .c40 5 4 6 with params := small }, by decide⟩⟩

/-- Each phase: at phases 0 to 2 with one codeword of room, at phase 3 with none; and phases 0 to 2 with none. -/
theorem witness_EdifactUnlatchRow :
    (∀ p ∈ [0, 1, 2, 3], ∃ s : State, s.status = .encoding ∧ s.scheme = .edifact ∧ 0 < s.outLen.toNat ∧
      s.chainValues.toNat % 4 = p ∧ (s.outLen.toNat < s.params.outCap ∨ s.chainValues.toNat % 4 = 3)) ∧
    (∀ p ∈ [0, 1, 2], ∃ s : State, s.status = .encoding ∧ s.scheme = .edifact ∧ 0 < s.outLen.toNat ∧
      s.chainValues.toNat % 4 = p ∧ s.outLen.toNat = s.params.outCap ∧ s.chainValues.toNat % 4 ≠ 3) := by
  constructor <;> intro p hp <;> fin_cases hp
  · exact ⟨{ counts .edifact 4 3 4 with params := small }, by decide⟩
  · exact ⟨{ counts .edifact 2 1 1 with params := small }, by decide⟩
  · exact ⟨{ counts .edifact 3 2 2 with params := small }, by decide⟩
  · exact ⟨{ counts .edifact 5 3 3 with params := small }, by decide⟩
  · exact ⟨{ counts .edifact 5 3 4 with params := small }, by decide⟩
  · exact ⟨{ counts .edifact 5 4 5 with params := small }, by decide⟩
  · exact ⟨{ counts .edifact 5 5 6 with params := small }, by decide⟩

theorem witness_CodewordUnitsOutsideTheirPlace :
    (Instr.format (.cwAsciiChar 66#8) ≠ .host ∧ State.reset.status ≠ .encoding) ∧
    (Instr.format (.b256D 1#8) ≠ .host ∧ emittedIn (.b256D 1#8) = some .base256 ∧ (running .ascii []).scheme ≠ .base256 ∧
      Scheme.base256 ≠ .c40) ∧
    (Instr.format .ctxUnlatch ≠ .host ∧ emittedIn .ctxUnlatch = some .c40 ∧ (running .ascii []).scheme ≠ .c40 ∧
      ctxSetOf (running .ascii []).scheme = none) := by decide

/-- Room for one, the pad of its position with room, one that is not its position's, room for two, and the pad of its position with no
room. -/
theorem witness_AsciiRowsAppendTheirCodewords :
    (∃ s : State, s.params.ok ∧ s.status = .encoding ∧ s.scheme = .ascii ∧ s.outLen.toNat + 1 = s.params.outCap) ∧
    (∃ (c : Byte) (s : State), s.params.ok ∧ s.status = .encoding ∧ s.scheme = .ascii ∧ s.outLen.toNat < s.params.outCap ∧
      c = rand253 129#8 (s.outLen.toNat + 1)) ∧
    (∃ (c : Byte) (s : State), s.params.ok ∧ s.status = .encoding ∧ s.scheme = .ascii ∧ c ≠ rand253 129#8 (s.outLen.toNat + 1)) ∧
    (∃ s : State, s.params.ok ∧ s.status = .encoding ∧ s.scheme = .ascii ∧ s.outLen.toNat + 2 = s.params.outCap) ∧
    (∃ (c : Byte) (s : State), s.params.ok ∧ s.status = .encoding ∧ s.scheme = .ascii ∧ s.outLen.toNat = s.params.outCap ∧
      c = rand253 129#8 (s.outLen.toNat + 1)) :=
  ⟨⟨{ counts .ascii 4 4 4 with params := small }, by decide⟩, ⟨70#8, counts .ascii 2 2 2, by decide⟩,
    ⟨175#8, counts .ascii 2 2 2, by decide⟩, ⟨{ counts .ascii 3 3 3 with params := small }, by decide⟩,
    ⟨rand253 129#8 6, { counts .ascii 5 5 5 with params := small }, by decide⟩⟩

/-- No input; a digit pair; the highest plain byte; the lowest extended byte; a lone digit at the end. -/
theorem witness_AsciiChunkEncodesOneUnit :
    (running .ascii []).inNext = (running .ascii []).inLen ∧
    ∀ s ∈ [running .ascii [48, 57], running .ascii [127], running .ascii [128], running .ascii [57]],
      s.params.ok ∧ s.inNext.toNat < s.inLen.toNat ∧ s.outLen.toNat + 2 ≤ s.params.outCap := by decide

theorem witness_RepeatedAsciiChunksAreAsciiEncode :
    ∃ (s : State) (n : Nat), s.params.ok ∧ s.inNext.toNat ≤ s.inLen.toNat ∧ s.inLen.toNat - s.inNext.toNat ≤ n ∧
      s.outLen.toNat + (asciiEncode (remainingInput s)).length ≤ s.params.outCap ∧ 0 < n :=
  ⟨running .ascii [57, 128], 2, by decide⟩

/-- Nothing to pad; three pads; an exact fit. -/
theorem witness_PadFillsTheSymbol :
    dw State.reset.params 0 ≤ (counts .ascii 4 4 4).outLen.toNat ∧
    (State.reset.params.ok ∧ 29 < State.reset.params.nSizes ∧ State.reset.outLen.toNat ≤ dw State.reset.params 29) ∧
    ((counts .ascii 3 3 3).params.ok ∧ 0 < State.reset.params.nSizes ∧
      (counts .ascii 3 3 3).outLen.toNat = dw State.reset.params 0) := by decide

theorem witness_AsciiCompletion :
    (running .ascii [65]).inNext.toNat < (running .ascii [65]).inLen.toNat ∧
    (∃ s : State, s.params.ok ∧ s.inNext = s.inLen ∧ findSize s s.outLen.toNat = none) ∧
    (∃ s : State, s.params.ok ∧ s.inNext = s.inLen ∧ findSize s s.outLen.toNat = some 1) :=
  ⟨by decide, ⟨{ counts .ascii 5 5 5 with params := small }, by decide⟩, ⟨counts .ascii 4 4 4, by decide⟩⟩

/-- Both ends of every row of the tables of R152 to R156, with a character set that is not X12. -/
theorem witness_ExpandShape :
    CtxSet.c40 ≠ .x12 ∧ CtxSet.text ≠ .x12 ∧
    ∀ r ∈ [(48#8, 57#8, 48, 57), (65#8, 90#8, 65, 90), (0#8, 31#8, 0, 31), (32#8, 32#8, 32, 32), (33#8, 47#8, 33, 47),
      (58#8, 64#8, 58, 64), (91#8, 95#8, 91, 95), (96#8, 96#8, 96, 96), (96#8, 127#8, 96, 127), (97#8, 122#8, 97, 122),
      (123#8, 127#8, 123, 127), (128#8, 255#8, 128, 255)], r.1.toNat = r.2.2.1 ∧ r.2.1.toNat = r.2.2.2 := by decide

/-- Hypotheses met by one byte alone: its values begin only its own. -/
theorem witness_ExpandIsUniquelyReadable :
    expand .c40 128#8 = .ok [1#6, 30#6, 0#6, 0#6] ∧ expand .c40 128#8 = .ok ([1#6, 30#6, 0#6, 0#6] ++ []) := by
  simp [expand, expandExtended, expandShifted, ctxValue]

theorem witness_CtxPairBounds : (39#6).toNat ≤ 39 ∧ (0#6).toNat ≤ 39 := by decide

/-- Room for two codewords, for one, and for none. -/
theorem witness_CtxTripletRow : ∀ m ∈ [2, 1, 0], ∃ s : State, s.params.ok ∧ s.status = .encoding ∧ s.scheme = .c40 ∧
    s.outLen.toNat + m = s.params.outCap := by
  intro m hm
  fin_cases hm
  · exact ⟨{ counts .c40 3 2 3 with params := small }, by decide⟩
  · exact ⟨{ counts .c40 4 2 3 with params := small }, by decide⟩
  · exact ⟨{ counts .c40 5 4 6 with params := small }, by decide⟩

theorem witness_ThreePushesEmitOnePair : ∃ s : State, s.params.ok ∧ s.ctxN = 0#3 ∧ s.outLen.toNat + 2 = s.params.outCap :=
  ⟨{ counts .c40 3 2 3 with params := small }, by decide⟩

/-- What a chunk takes, decided over the bytes before the last. -/
theorem ctxTakes_of_decide {k : CtxSet} {s : State} {n : Nat} {vals : List CtxValue} (hn : s.inNext.toNat + n ≤ s.inLen.toNat)
    (hv : expandAll k (inputFrom s s.inNext.toNat n) = some vals)
    (hm : ∀ m ∈ List.range n, m = 0 ∨ ∀ v ∈ expandAll k (inputFrom s s.inNext.toNat m), v.length % 3 ≠ 0) : ctxTakes k s n vals :=
  ⟨hn, hv, fun m v h1 h2 hmv => (hm m (List.mem_range.2 h2)).elim (fun h0 => absurd h0 (by omega)) (fun h => h v hmv)⟩

/-- No input; C40 `"AIM"`, a boundary after three bytes; C40 `"A"`, the end of the input off a boundary; X12 `"Aa"`, an error at the
second byte, and `"a"`, one at the first; no room for the pair; and a chunk that goes on. -/
theorem witness_CtxChunkEndsWithAnEmptyBuffer :
    (∃ s : State, s.ctxN = 0#3 ∧ s.inNext = s.inLen) ∧
    (∃ s t : State, s.ctxN = 0#3 ∧ ctxTakes .c40 s 3 [14#6, 22#6, 26#6] ∧ ctxPushAll [14#6, 22#6, 26#6] s = .go t) ∧
    (∃ s t : State, s.ctxN = 0#3 ∧ ctxTakes .c40 s 1 [14#6] ∧ s.inNext.toNat + 1 = s.inLen.toNat ∧ ctxPushAll [14#6] s = .go t) ∧
    (∃ s t : State, s.ctxN = 0#3 ∧ ctxTakes .x12 s 1 [14#6] ∧ s.inNext.toNat + 1 < s.inLen.toNat ∧
      expand .x12 (readIn s (s.inNext.toNat + 1)) = .error .x12Char ∧ ctxPushAll [14#6] s = .go t) ∧
    (∃ s : State, s.ctxN = 0#3 ∧ ctxTakes .x12 s 0 [] ∧ s.inNext.toNat + 0 < s.inLen.toNat ∧
      expand .x12 (readIn s (s.inNext.toNat + 0)) = .error .x12Char ∧ ctxPushAll [] s = .go s) ∧
    (∃ s t : State, s.ctxN = 0#3 ∧ ctxTakes .c40 s 3 [14#6, 22#6, 26#6] ∧ ctxPushAll [14#6, 22#6, 26#6] s = .ended t) ∧
    (∃ s t : State, s.ctxN = 0#3 ∧ s.inNext.toNat < s.inLen.toNat ∧ ctxChunk .c40 s = .go t) :=
  ⟨⟨atBoundary [], by decide⟩,
    ⟨atBoundary [65, 73, 77], (ctxPushAll [14#6, 22#6, 26#6] (atBoundary [65, 73, 77])).state, by decide,
      ctxTakes_of_decide (by decide) (by decide) (by decide), by decide⟩,
    ⟨atBoundary [65], (ctxPushAll [14#6] (atBoundary [65])).state, by decide,
      ctxTakes_of_decide (by decide) (by decide) (by decide), by decide, by decide⟩,
    ⟨atBoundary [65, 97], (ctxPushAll [14#6] (atBoundary [65, 97])).state, by decide,
      ctxTakes_of_decide (by decide) (by decide) (by decide), by decide, by decide, by decide⟩,
    ⟨atBoundary [97], by decide, ctxTakes_of_decide (by decide) (by decide) (by decide), by decide, by decide, rfl⟩,
    ⟨{ atBoundary [65, 73, 77] with params := { small with outCap := 5, inCap := 3 }, outLen := 5#16 },
      (ctxPushAll [14#6, 22#6, 26#6]
        { atBoundary [65, 73, 77] with params := { small with outCap := 5, inCap := 3 }, outLen := 5#16 }).state, by decide,
      ctxTakes_of_decide (by decide) (by decide) (by decide), by decide⟩,
    ⟨atBoundary [65, 73, 77], (ctxChunk .c40 (atBoundary [65, 73, 77])).state, by decide, by decide, by decide⟩⟩

theorem witness_CtxCharacterErrorIsPrecise :
    ∃ s : State, s.inNext.toNat < s.inLen.toNat ∧ expand .x12 (readIn s s.inNext.toNat) = .error .x12Extended :=
  ⟨{ mid .x12 [238] 0 0 with inLen := 1#16, inMem := listing [128] }, by decide⟩

/-- C40 `"AIMAB"` before its last two values are packed (R164). -/
theorem witness_CtxShiftPaddedTriplet : ∃ s : State, s.params.ok ∧ CtxSet.c40 ≠ .x12 ∧ s.ctxN = 2#3 ∧ s.inNext = s.inLen ∧
    findSize s (s.outLen.toNat + 2) = some 1 ∧ dw s.params 1 = s.outLen.toNat + 2 :=
  ⟨{ mid .c40 [230, 91, 11] 2 3 with ctxN := 2#3, ctxLastn := 1#3, ctxBuf := #v[14#6, 15#6, 0#6, 0#6] }, by decide⟩

/-- Case (d), C40 `"AIMAIMAIMA"` (R167): one value left of one byte; and in X12 two values left of the digits `"12"`, one codeword.
Case (c): a tail that overflows the RAM; one after which no size is left; and C40 `"A"` (R168). -/
theorem witness_CtxImplicitUnlatch :
    (∃ s : State, s.params.ok ∧ s.ctxN = 1#3 ∧ asciiEncode (remainingInput { s with inNext := s.inNext - 1#16 }) = [66#8] ∧
      findSize s (s.outLen.toNat + 1) = some 2 ∧ dw s.params 2 = s.outLen.toNat + 1) ∧
    (∃ s : State, s.params.ok ∧ s.ctxN = 2#3 ∧ s.ctxLastn = 1#3 ∧
      asciiEncode (remainingInput { s with inNext := s.inNext - 2#16 }) = [142#8] ∧
      findSize s (s.outLen.toNat + 1) = some 2 ∧ dw s.params 2 = s.outLen.toNat + 1) ∧
    (∃ s : State, s.params.ok ∧ s.ctxN = 1#3 ∧ s.scheme = .c40 ∧ s.chainValues.toNat % 3 = 0 ∧
      asciiEncode (remainingInput { s with inNext := s.inNext - 1#16 }) = [235#8, 1#8] ∧
      s.outLen.toNat ≤ s.params.outCap ∧ s.params.outCap + 1 = s.outLen.toNat + 1 + 2) ∧
    (∃ s : State, s.params.ok ∧ s.ctxN = 1#3 ∧ s.scheme = .c40 ∧ s.chainValues.toNat % 3 = 0 ∧
      asciiEncode (remainingInput { s with inNext := s.inNext - 1#16 }) = [66#8] ∧ findSize s (s.outLen.toNat + 1) = none ∧
      s.outLen.toNat + 1 + 1 ≤ s.params.outCap ∧ findSize s (s.outLen.toNat + 1 + 1) = none) ∧
    (∃ s : State, s.params.ok ∧ s.ctxN = 1#3 ∧ s.scheme = .c40 ∧ s.chainValues.toNat % 3 = 0 ∧
      asciiEncode (remainingInput { s with inNext := s.inNext - 1#16 }) = [66#8] ∧
      findSize s (s.outLen.toNat + 1) = some 0 ∧ dw s.params 0 ≠ s.outLen.toNat + 1 ∧ findSize s (s.outLen.toNat + 1 + 1) = some 0) :=
  ⟨⟨{ counts .c40 7 6 9 with inLen := 1#16, inNext := 1#16, inMem := listing [65], ctxN := 1#3, ctxLastn := 1#3 }, by decide⟩,
    ⟨{ counts .x12 7 6 9 with inLen := 2#16, inNext := 2#16, inMem := listing [49, 50], ctxN := 2#3, ctxLastn := 1#3 },
      by decide⟩,
    ⟨{ leftover [128] with params := small, outLen := 3#16 }, by decide⟩,
    ⟨{ leftover [65] with params := { small with symDw := [1, 2] }, outLen := 3#16 }, by decide⟩,
    ⟨leftover [65], by decide⟩⟩

/-- Input left; no size; an exact fit; a size with room. -/
theorem witness_CtxCompletion :
    (running .c40 [65]).inNext.toNat < (running .c40 [65]).inLen.toNat ∧
    (∃ s : State, s.params.ok ∧ s.scheme = .c40 ∧ s.inNext = s.inLen ∧ s.chainValues.toNat % 3 = 0 ∧
      findSize s s.outLen.toNat = none) ∧
    (∃ s : State, s.params.ok ∧ s.scheme = .text ∧ s.inNext = s.inLen ∧ s.chainValues.toNat % 3 = 0 ∧
      findSize s s.outLen.toNat = some 0 ∧ dw s.params 0 = s.outLen.toNat) ∧
    (∃ s : State, s.params.ok ∧ s.scheme = .x12 ∧ s.inNext = s.inLen ∧ s.chainValues.toNat % 3 = 0 ∧
      findSize s s.outLen.toNat = some 0 ∧ dw s.params 0 ≠ s.outLen.toNat) :=
  ⟨by decide, ⟨{ counts .c40 5 4 6 with params := small }, by decide⟩, ⟨counts .text 3 2 3, by decide⟩,
    ⟨counts .x12 1 0 0, by decide⟩⟩

/-- Room for three codewords, and for two, one and none. -/
theorem witness_EdifactQuadRow : ∀ m ∈ [3, 2, 1, 0], ∃ s : State, s.params.ok ∧ s.status = .encoding ∧ s.scheme = .edifact ∧
    s.chainValues.toNat % 4 = 0 ∧ s.outLen.toNat + m = s.params.outCap := by
  intro m hm
  fin_cases hm
  · exact ⟨{ counts .edifact 2 0 0 with params := small }, by decide⟩
  · exact ⟨{ counts .edifact 3 0 0 with params := small }, by decide⟩
  · exact ⟨{ counts .edifact 4 3 4 with params := small }, by decide⟩
  · exact ⟨{ counts .edifact 5 3 4 with params := small }, by decide⟩

/-- No input; a byte below `EDI_LO`, one above 94; and both ends of the range, on which the pack goes on; and one with no room. -/
theorem witness_EdifactChunkJudgesItsByte :
    (mid .edifact [240] 0 0).inNext = (mid .edifact [240] 0 0).inLen ∧
    (∃ s : State, s.inNext.toNat < s.inLen.toNat ∧ (readIn s s.inNext.toNat).toNat < s.params.ediLo) ∧
    (∃ s : State, s.inNext.toNat < s.inLen.toNat ∧ 94 < (readIn s s.inNext.toNat).toNat) ∧
    (∃ s t : State, s.inNext.toNat < s.inLen.toNat ∧ s.params.ediLo = (readIn s s.inNext.toNat).toNat ∧
      ediPack (BitVec.ofNat 6 ((readIn s s.inNext.toNat).toNat % 64)) s = .go t) ∧
    (∃ s t : State, s.inNext.toNat < s.inLen.toNat ∧ (readIn s s.inNext.toNat).toNat = 94 ∧
      ediPack (BitVec.ofNat 6 ((readIn s s.inNext.toNat).toNat % 64)) s = .ended t) :=
  ⟨by decide, ⟨running .edifact [31], by decide⟩, ⟨running .edifact [95], by decide⟩,
    ⟨running .edifact [32], (ediPack 32#6 (running .edifact [32])).state, by decide⟩,
    ⟨{ running .edifact [94] with params := small, outLen := 5#16 },
      (ediPack 30#6 { running .edifact [94] with params := small, outLen := 5#16 }).state, by decide⟩⟩

/-- A tail the probe passes, of three codewords. -/
theorem witness_EdifactProbeIsBoundedAsciiEncode :
    ∃ s : State, s.inNext.toNat ≤ s.inLen.toNat ∧ (ediProbe s).1 = true ∧ (ediProbe s).2.length = 3 :=
  ⟨running .edifact [49, 50, 51, 52, 53, 54], by decide⟩

/-- 28 bytes `'A'`: 22 codewords, size 5 (R197). -/
theorem witness_EdifactExactEnd : ∃ s : State, s.params.ok ∧ s.chainValues.toNat % 4 = 0 ∧ s.inNext = s.inLen ∧
    findSize s s.outLen.toNat = some 5 ∧ dw s.params 5 = s.outLen.toNat :=
  ⟨counts .edifact 22 21 28, by decide⟩

/-- The clauses of EDI_END that do not end in ASCII do not apply the moment the boundary is not clean. -/
theorem unclean_notEndsInAscii {s : State} (h : s.chainValues.toNat % 4 ≠ 0) (n : Nat) (p : Nat → Prop) :
    ∀ z, ¬ (s.chainValues.toNat % 4 = 0 ∧ n ≤ 2 ∧ p z) := fun _ hz => h hz.1

/-- `"AB"`: two codewords fill the symbol; `""`: none left, two to pad (R200).
Off a clean boundary, `unclean_notEndsInAscii`: input left; and none left, where the unlatch overflows, where no size is left after it,
and `"ABC"` at phase 3 (R198). -/
theorem witness_EdifactImplicitEnd :
    (∀ s ∈ [{ mid .edifact [240] 0 0 with inLen := 2#16, inMem := listing [65, 66] }, mid .edifact [240] 0 0],
      s.params.ok ∧ s.chainValues.toNat % 4 = 0 ∧ s.inNext.toNat ≤ s.inLen.toNat ∧
      (asciiEncode (remainingInput s)).length ≤ 2 ∧
      findSize s (s.outLen.toNat + (asciiEncode (remainingInput s)).length) = some 0 ∧ dw s.params 0 = s.outLen.toNat + 2 ∧
      ¬ (asciiEncode (remainingInput s) = [] ∧ dw s.params 0 = s.outLen.toNat)) ∧
    (∃ s : State, s.params.ok ∧ s.inNext.toNat ≤ s.inLen.toNat ∧ s.inNext ≠ s.inLen ∧ s.chainValues.toNat % 4 ≠ 0) ∧
    (∃ s : State, s.params.ok ∧ s.inNext = s.inLen ∧ s.chainValues.toNat % 4 ≠ 0 ∧ s.status = .encoding ∧ s.scheme = .edifact ∧
      after (exec .ediUnlatch s) (fun u => decide (u.status = .invalid)) = true) ∧
    (∃ s : State, s.params.ok ∧ s.inNext = s.inLen ∧ s.chainValues.toNat % 4 ≠ 0 ∧ s.status = .encoding ∧ s.scheme = .edifact ∧
      after (exec .ediUnlatch s) (fun u => decide (u.status ≠ .invalid ∧ findSize u u.outLen.toNat = none)) = true) ∧
    (∃ s : State, s.params.ok ∧ s.inNext = s.inLen ∧ s.chainValues.toNat % 4 ≠ 0 ∧ s.status = .encoding ∧ s.scheme = .edifact ∧
      after (exec .ediUnlatch s) (fun u => decide (u.status ≠ .invalid ∧ findSize u u.outLen.toNat = some 1)) = true) :=
  ⟨by decide, ⟨{ mid .edifact [240, 4] 1 1 with inLen := 1#16, inMem := listing [65] }, by decide⟩,
    ⟨{ mid .edifact [240, 4, 32, 196, 4] 4 5 with params := small }, by decide⟩,
    ⟨{ mid .edifact [240, 4, 32, 192] 3 2 with params := small }, by decide⟩,
    ⟨mid .edifact [240, 4, 32, 192] 3 3, by decide⟩⟩

/-- The 250th and the 1749th payload byte. -/
theorem witness_HeaderGrowsKeepingThePayload : ∀ n ∈ [250, 1749], ∃ s : State, s.params.ok ∧ s.outLen.toNat < s.params.outCap ∧
    s.chainWords.toNat < s.outLen.toNat ∧ s.chainWords.toNat = s.chainValues.toNat + 1 ∧ s.chainValues.toNat = n := by
  intro n hn
  fin_cases hn
  · exact ⟨{ counts .base256 252 251 250 with params := deep }, by decide⟩
  · exact ⟨{ counts .base256 1751 1750 1749 with params := deep }, by decide⟩

/-- 278 payload bytes: 281 codewords for a symbol of 280 (R232). -/
theorem witness_ExactFitKeepsThePayload : ∃ s : State, s.params.ok ∧ s.outLen.toNat ≤ s.params.outCap ∧
    s.chainWords.toNat < s.outLen.toNat ∧ s.chainWords.toNat = s.chainValues.toNat + 2 ∧
    s.outLen.toNat = dw s.params 15 + 1 :=
  ⟨counts .base256 281 280 278, by decide⟩

/-- Each clause at its edges: 0 and 248, 250 and 1748, 249, 1749 payload bytes so far; no room for the codeword, and none for the second
header byte; and for the chunk: no input, and input with no room and with room for one. -/
theorem witness_Base256PayloadRow :
    (∀ s ∈ [counts .base256 2 1 0, counts .base256 250 249 248], s.params.ok ∧ s.status = .encoding ∧ s.scheme = .base256 ∧
      s.chainWords.toNat < s.outLen.toNat ∧ s.outLen.toNat < s.params.outCap ∧
      s.chainWords.toNat = s.chainValues.toNat + 1 ∧ s.chainValues.toNat < 249) ∧
    (∀ s ∈ [counts .base256 253 252 250, { counts .base256 1751 1750 1748 with params := deep }],
      s.params.ok ∧ s.status = .encoding ∧ s.scheme = .base256 ∧ s.chainWords.toNat < s.outLen.toNat ∧
      s.outLen.toNat < s.params.outCap ∧ s.chainWords.toNat = s.chainValues.toNat + 2 ∧ 250 ≤ s.chainValues.toNat ∧
      s.chainValues.toNat < 1749) ∧
    (∀ s ∈ [counts .base256 251 250 249], s.params.ok ∧ s.status = .encoding ∧ s.scheme = .base256 ∧
      s.chainWords.toNat < s.outLen.toNat ∧ s.outLen.toNat + 2 ≤ s.params.outCap ∧
      s.chainWords.toNat = s.chainValues.toNat + 1 ∧ s.chainValues.toNat = 249) ∧
    (∀ s ∈ [{ counts .base256 1752 1751 1749 with params := deep }], s.params.ok ∧ s.status = .encoding ∧
      s.scheme = .base256 ∧ s.chainWords.toNat < s.outLen.toNat ∧ s.outLen.toNat < s.params.outCap ∧
      s.chainWords.toNat = s.chainValues.toNat + 2 ∧ s.chainValues.toNat = 1749) ∧
    (∀ s ∈ [{ counts .base256 5 4 3 with params := small }], s.params.ok ∧ s.status = .encoding ∧ s.scheme = .base256 ∧
      s.chainWords.toNat < s.outLen.toNat ∧ s.outLen.toNat = s.params.outCap) ∧
    (∀ s ∈ [{ counts .base256 251 250 249 with params := { small with outCap := 252 } }], s.params.ok ∧ s.status = .encoding ∧
      s.scheme = .base256 ∧ s.chainWords.toNat < s.outLen.toNat ∧ s.chainWords.toNat = s.chainValues.toNat + 1 ∧
      s.chainValues.toNat = 249 ∧ s.outLen.toNat + 1 = s.params.outCap) ∧
    (counts .base256 2 1 0).inNext = (counts .base256 2 1 0).inLen ∧
    (∀ m ∈ [0, 1], ∃ s : State, s.params.ok ∧ s.status = .encoding ∧ s.scheme = .base256 ∧ s.chainWords.toNat < s.outLen.toNat ∧
      s.inNext ≠ s.inLen ∧ s.outLen.toNat + m = s.params.outCap) := by
  refine ⟨by decide, by decide, by decide, by decide, by decide, by decide, by decide, fun m hm => ?_⟩
  fin_cases hm
  · exact ⟨{ counts .base256 5 4 3 with params := small, inLen := 1#16 }, by decide⟩
  · exact ⟨{ counts .base256 4 3 2 with params := small, inLen := 1#16 }, by decide⟩

/-- A one-byte header, a two-byte header, and the exact fit of 278 payload bytes. -/
theorem witness_Base256HeaderRows :
    (∃ (h : Byte) (s : State), s.status = .encoding ∧ s.scheme = .base256 ∧ s.chainWords.toNat < s.outLen.toNat ∧
      s.chainWords.toNat = s.chainValues.toNat + 1 ∧ s.chainValues.toNat = 249 ∧
      (unrand255 h (headerIndex s + 1)).toNat = s.chainValues.toNat) ∧
    (∃ (h l : Byte) (s : State), s.status = .encoding ∧ s.scheme = .base256 ∧ s.chainWords.toNat < s.outLen.toNat ∧
      s.chainWords.toNat = s.chainValues.toNat + 2 ∧ s.chainValues.toNat = 255 ∧
      (unrand255 h (headerIndex s + 1)).toNat = s.chainValues.toNat / 250 + 249 ∧
      (unrand255 l (headerIndex s + 2)).toNat = s.chainValues.toNat % 250) ∧
    (∃ (h : Byte) (s : State), s.status = .encoding ∧ s.scheme = .base256 ∧ s.chainWords.toNat < s.outLen.toNat ∧
      s.params.ok ∧ s.chainWords.toNat = s.chainValues.toNat + 2 ∧ s.inNext = s.inLen ∧
      findSize s (s.outLen.toNat - 1) = some 15 ∧ dw s.params 15 = s.outLen.toNat - 1 ∧
      unrand255 h (headerIndex s + 1) = 0#8) :=
  ⟨⟨37#8, counts .base256 251 250 249, by decide⟩, ⟨38#8, 198#8, counts .base256 258 257 255, by decide⟩,
    ⟨44#8, counts .base256 281 280 278, by decide⟩⟩

/-- Input left; the exact fit; a one-byte header with no size, and with a size. -/
theorem witness_Base256Completion :
    (running .base256 [65]).inNext.toNat < (running .base256 [65]).inLen.toNat ∧
    (∃ s : State, s.params.ok ∧ s.scheme = .base256 ∧ s.inNext = s.inLen ∧ s.chainWords.toNat < s.outLen.toNat ∧
      s.chainWords.toNat = s.chainValues.toNat + 2 ∧ findSize s (s.outLen.toNat - 1) = some 15 ∧
      dw s.params 15 = s.outLen.toNat - 1) ∧
    (∃ s : State, s.params.ok ∧ s.scheme = .base256 ∧ s.inNext = s.inLen ∧ s.chainWords.toNat < s.outLen.toNat ∧
      s.chainWords.toNat ≠ s.chainValues.toNat + 2 ∧ findSize s s.outLen.toNat = none) ∧
    (∃ s : State, s.params.ok ∧ s.scheme = .base256 ∧ s.inNext = s.inLen ∧ s.chainWords.toNat < s.outLen.toNat ∧
      s.chainWords.toNat ≠ s.chainValues.toNat + 2 ∧ findSize s s.outLen.toNat = some 0) :=
  ⟨by decide, ⟨counts .base256 281 280 278, by decide⟩, ⟨{ counts .base256 5 4 3 with params := small }, by decide⟩,
    ⟨counts .base256 3 2 1, by decide⟩⟩

/-- `find(4) = 1`, `find(1559) = UNDEF`, and the rectangle of hint 24 at its capacity and above it (R255). -/
theorem witness_FindIsTheSmallestAllowedSymbol :
    find Config.reference 0xFF#8 4 = some 1 ∧ find Config.reference 0xFF#8 1559 = none ∧
    (24#8 ≠ 0xFF#8 ∧ (24#8).toNat < Config.reference.nSizes) ∧ find Config.reference 24#8 5 = some 24 ∧
    find Config.reference 24#8 6 = none := by decide

end Sys2Proof.Tests
end

section
/-! PROOFS. The machine invariant (spec R5, R12, R13, R21, R24, R41, R42, R101, R106, R161, R230): rules for what an operation leaves,
one per shared operation, and from them that an iteration, a host access and so every step keep `MachineInv`.
A rule names a postcondition `P` for going on; its premise is `P` of the explicit next state, in which the output RAM is any canonical
memory.
Having ended, an operation leaves a `Stopped` state. -/

namespace Sys2Proof.Machine

/-! ### Postconditions of an operation (R121) -/

/-- `P` holds of the state the operation goes on in, `E` of the state it has ended the encode in. -/
def Flow.Meets (P E : State → Prop) : Flow → Prop
  | .go s => P s
  | .ended s => E s

theorem Flow.Meets.andThen {P Q E : State → Prop} {f : Flow} {k : State → Flow} (hf : f.Meets P E)
    (hk : ∀ u, P u → (k u).Meets Q E) : (f.andThen k).Meets Q E := by
  cases f with
  | go u => exact hk u hf
  | ended u => exact hf

/-- What the second operation needs is the postcondition of the first. -/
theorem Flow.Meets.bind {Q E : State → Prop} {f : Flow} {k : State → Flow} (hf : f.Meets (fun u => (k u).Meets Q E) E) :
    (f.andThen k).Meets Q E := hf.andThen fun _ hu => hu

theorem Flow.Meets.mono {P Q E : State → Prop} {f : Flow} (hf : f.Meets P E) (h : ∀ u, P u → Q u) : f.Meets Q E := by
  cases f with
  | go u => exact h u hf
  | ended u => exact hf

theorem Flow.Meets.state {P E Q : State → Prop} {f : Flow} (hf : f.Meets P E) (hP : ∀ u, P u → Q u) (hE : ∀ u, E u → Q u) :
    Q f.state := by
  cases f with
  | go u => exact hP u hf
  | ended u => exact hE u hf

/-! ### Parameters and counts -/

theorem outCap_le {p : Config.Params} (h : p.ok) : p.outCap ≤ 4096 := by
  obtain ⟨-, -, -, -, hout, -⟩ := h
  exact hout

theorem inCap_le {p : Config.Params} (h : p.ok) : p.inCap ≤ 4096 := by
  obtain ⟨-, -, -, ⟨-, hin⟩, -, -⟩ := h
  exact hin

/-- The output RAM has room for a symbol (R5). -/
theorem outCap_pos {p : Config.Params} (h : p.ok) : 0 < p.outCap := by
  obtain ⟨⟨hlen, -⟩, hdw, -⟩ := h
  have := hdw _ (List.getElem_mem hlen)
  omega

/-- A count below the reach of 16 bits grows as a number. -/
theorem count_add {x : Count} {n : Nat} (h : x.toNat + n < 65536) : (x + BitVec.ofNat 16 n).toNat = x.toNat + n := by
  rw [BitVec.toNat_add, BitVec.toNat_ofNat]
  omega

/-- A chain has at most two values for each of its words (R24). -/
theorem chainRelation_values_le {t : Scheme} {words values : Nat} (h : chainRelation t words values) : values ≤ 2 * words := by
  obtain ⟨ha, hc, he, hb⟩ := h
  cases t with
  | ascii => have := ha rfl; omega
  | c40 => have := hc rfl; omega
  | text => have := hc rfl; omega
  | x12 => have := hc rfl; omega
  | edifact => have := he rfl; omega
  | base256 => have := hb rfl; omega

theorem chainRelation_ascii {words values : Nat} : chainRelation .ascii words values ↔ words = values := by
  simp [chainRelation, ctxSetOf]

theorem chainRelation_ctx (k : CtxSet) {words values : Nat} :
    chainRelation k.scheme words values ↔ values % 3 = 0 ∧ 3 * words = 2 * values := by
  cases k <;> simp [chainRelation, ctxSetOf, CtxSet.scheme]

theorem chainRelation_edifact {words values : Nat} :
    chainRelation .edifact words values ↔ words + values / 4 = values := by
  simp [chainRelation, ctxSetOf]

theorem chainRelation_base256 {words values : Nat} : chainRelation .base256 words values ↔
    (words = values + 1 ∧ values ≤ 249) ∨ (words = values + 2 ∧ 250 ≤ values ∧ values ≤ 1749) := by
  simp [chainRelation, ctxSetOf]

/-- A scheme just entered has an empty chain, in Base256 with the placeholder header (R115, R119). -/
theorem chainRelation_entered {t : Scheme} (ht : t ≠ .ascii) : chainRelation t (if t = .base256 then 1 else 0) 0 := by
  cases t with
  | ascii => exact absurd rfl ht
  | base256 => exact chainRelation_base256.2 (.inl ⟨rfl, by decide⟩)
  | c40 | text | x12 | edifact => decide

/-! ### States of an encode -/

/-- What every operation of an encode keeps, also after the change to Ascii that finishes one. -/
structure Sound (s : State) : Prop where
  params : s.params.ok
  inRam : Memory.wf s.params.inCap s.inMem
  outRam : Memory.wf s.params.outCap s.outMem
  spare : s.ctxBuf[3] = 0#6
  schedule : ∀ slot ∈ s.queue, slot.isHosts = true
  room : s.outLen.toNat ≤ s.params.outCap

/-- An operation has ended the encode here (R104). -/
def Stopped (s : State) : Prop := Sound s ∧ s.status ≠ .encoding

/-- The encode runs in its target scheme `t` after the scheme step (R106), with at most `held` values in the CTX buffer. -/
structure Running (t : Scheme) (held : Nat) (s : State) : Prop extends Sound s where
  checked : startCheck s = none
  cursor : s.inNext.toNat ≤ s.inLen.toNat
  scheme : s.scheme = t
  target : schemeCode t = s.target
  latched : s.latched = true
  length : s.outLen.toNat = s.chainWords.toNat + if t = .ascii then 0 else 1
  chain : chainRelation t s.chainWords.toNat s.chainValues.toNat
  buffer : s.ctxLastn.toNat ≤ s.ctxN.toNat ∧ s.ctxN.toNat ≤ held

section
variable {s : State}

/-- Ending the encode writes the outcome registers alone (R110, R112). -/
theorem Sound.stopped (h : Sound s) {st : Status} {r : Reason} {z : BitVec 8} (hst : st ≠ .encoding) :
    Stopped { s with sizeIdx := z, status := st, reason := r } :=
  ⟨⟨h.params, h.inRam, h.outRam, h.spare, h.schedule, h.room⟩, hst⟩

theorem Sound.rams (h : Sound s) : ramsWf s := ⟨h.inRam, h.outRam⟩

/-- A new output in range; scheme and counters are free. -/
theorem Sound.output (h : Sound s) {m : Memory} {n w v i : Count} {t : Scheme} (hm : Memory.wf s.params.outCap m)
    (hn : n.toNat ≤ s.params.outCap) :
    Sound { s with outMem := m, outLen := n, scheme := t, chainWords := w, chainValues := v, inNext := i } :=
  ⟨h.params, h.inRam, hm, h.spare, h.schedule, hn⟩

/-- With room, one more codeword stays in range. -/
theorem Sound.outLen_succ (h : Sound s) (hl : s.outLen.toNat < s.params.outCap) :
    (s.outLen + 1#16).toNat = s.outLen.toNat + 1 := by
  have := outCap_le h.params
  exact count_add (by omega)

theorem Sound.outLen_succ_le (h : Sound s) (hl : s.outLen.toNat < s.params.outCap) :
    (s.outLen + 1#16).toNat ≤ s.params.outCap := by
  rw [h.outLen_succ hl]
  exact hl

/-- `in_len` is at most `IN_CAP` once START_CHECKS has passed (R101). -/
theorem inLen_le_of_checked (h : startCheck s = none) : s.inLen.toNat ≤ s.params.inCap := by
  unfold startCheck at h
  split_ifs at h with _ _ hlen
  exact Nat.le_of_not_lt hlen

variable {t : Scheme} {held : Nat}

theorem Running.inNext_add (h : Running t held s) {n : Nat} (hn : s.inNext.toNat + n ≤ s.inLen.toNat) :
    (s.inNext + BitVec.ofNat 16 n).toNat = s.inNext.toNat + n := by
  have := inLen_le_of_checked h.checked
  have := inCap_le h.params
  exact count_add (by omega)

/-- The chain counters have room to grow: an output has at most 4096 codewords (R16). -/
theorem Running.chainWords_add (h : Running t held s) {n : Nat} (hn : n ≤ 8) :
    (s.chainWords + BitVec.ofNat 16 n).toNat = s.chainWords.toNat + n := by
  have := h.length
  have := h.room
  have := outCap_le h.params
  exact count_add (by omega)

theorem Running.chainWords_add_two (h : Running t held s) : (s.chainWords + 1#16 + 1#16).toNat = s.chainWords.toNat + 2 := by
  rw [BitVec.add_assoc]
  exact h.chainWords_add (n := 2) (by omega)

theorem Running.chainValues_add (h : Running t held s) {n : Nat} (hn : n ≤ 8) :
    (s.chainValues + BitVec.ofNat 16 n).toNat = s.chainValues.toNat + n := by
  have := chainRelation_values_le h.chain
  have := h.length
  have := h.room
  have := outCap_le h.params
  exact count_add (by omega)

/-- A new output, chain and cursor in their relations. -/
theorem Running.advance (h : Running t held s) {m : Memory} {n w v i : Count} (hm : Memory.wf s.params.outCap m)
    (hn : n.toNat ≤ s.params.outCap) (hi : i.toNat ≤ s.inLen.toNat)
    (hlen : n.toNat = w.toNat + if t = .ascii then 0 else 1) (hc : chainRelation t w.toNat v.toNat) :
    Running t held { s with outMem := m, outLen := n, chainWords := w, chainValues := v, inNext := i } :=
  ⟨⟨h.params, h.inRam, hm, h.spare, h.schedule, hn⟩, h.checked, hi, h.scheme, h.target, h.latched, hlen, hc, h.buffer⟩

/-- The cursor moves within the input. -/
theorem Running.consume (h : Running t held s) {n : Nat} (hn : s.inNext.toNat + n ≤ s.inLen.toNat) :
    Running t held { s with inNext := s.inNext + BitVec.ofNat 16 n } :=
  h.advance h.outRam h.room (by rw [h.inNext_add hn]; exact hn) h.length h.chain

/-- Another CTX buffer whose fourth entry stays (R161). -/
theorem Running.refill (h : Running t held s) {held' : Nat} {b : Vector CtxValue 4} {n l : BitVec 3} (hb : b[3] = 0#6)
    (hl : l.toNat ≤ n.toNat) (hn : n.toNat ≤ held') :
    Running t held' { s with ctxBuf := b, ctxN := n, ctxLastn := l } :=
  ⟨⟨h.params, h.inRam, h.outRam, hb, h.schedule, h.room⟩, h.checked, h.cursor, h.scheme, h.target, h.latched, h.length, h.chain,
    hl, hn⟩

theorem Running.weaken {held' : Nat} (h : Running t held s) (hh : held ≤ held') : Running t held' s :=
  h.refill h.spare h.buffer.1 (Nat.le_trans h.buffer.2 hh)

theorem Running.cursor_lt (h : Running t held s) (hne : s.inNext ≠ s.inLen) : s.inNext.toNat < s.inLen.toNat :=
  Nat.lt_of_le_of_ne h.cursor fun e => hne (BitVec.eq_of_toNat_eq e)

end

/-! ### The appends and the ends of an encode (R7, R43, R110, R112, R135 to R138) -/

section
variable {s : State} {P : State → Prop}

theorem raise_meets (h : Sound s) {st : Status} {r : Reason} (hst : st ≠ .encoding) : (raise st r s).Meets P Stopped :=
  h.stopped hst

theorem complete_meets (h : Sound s) (z : Nat) : (complete z s).Meets P Stopped := by
  rcases complete_cases z s with ⟨-, e⟩ | ⟨-, -, e⟩ | ⟨-, -, e⟩ <;> rw [e] <;> exact h.stopped (by decide)

theorem chainAppend_meets (h : Sound s) (v : Byte)
    (k : ∀ m, s.outLen.toNat < s.params.outCap → Memory.wf s.params.outCap m →
      P { s with outMem := m, outLen := s.outLen + 1#16, chainWords := s.chainWords + 1#16 }) :
    (chainAppend v s).Meets P Stopped := by
  rcases chainAppend_cases v s with ⟨-, e⟩ | ⟨hl, e⟩
  · rw [e]; exact h.stopped (by decide)
  · have hlt := Nat.lt_of_le_of_ne h.room hl
    rw [e]; exact k _ hlt (memSet_wf hlt h.outRam)

theorem asciiAppend_meets (h : Sound s) (v : Byte)
    (k : ∀ m, s.outLen.toNat < s.params.outCap → Memory.wf s.params.outCap m →
      P { s with
        outMem := m
        outLen := s.outLen + 1#16
        chainWords := s.chainWords + 1#16
        chainValues := s.chainValues + 1#16 }) :
    (asciiAppend v s).Meets P Stopped :=
  .bind (chainAppend_meets h v k)

/-- What one `AsciiAppend` keeps, a run of them keeps (R168, R196). -/
theorem asciiAppendAll_meets {E : State → Prop} (hone : ∀ v u, P u → (asciiAppend v u).Meets P E) (cws : List Byte) :
    ∀ {s : State}, P s → (asciiAppendAll cws s).Meets P E := by
  induction cws with
  | nil => exact fun h => h
  | cons c rest ih => exact fun h => (hone c _ h).andThen fun _ hu => ih hu

theorem chainAppend_sound (h : Sound s) (v : Byte) : (chainAppend v s).Meets Sound Stopped :=
  chainAppend_meets h v fun _ hl hm => h.output hm (h.outLen_succ_le hl)

theorem asciiAppend_sound (v : Byte) (s : State) (h : Sound s) : (asciiAppend v s).Meets Sound Stopped :=
  asciiAppend_meets h v fun _ hl hm => h.output hm (h.outLen_succ_le hl)

theorem padLoop_sound (n : Nat) : ∀ {first : Bool} {s : State}, Sound s → (padLoop n first s).Meets Sound Stopped := by
  induction n with
  | zero => exact fun h => h
  | succ n ih => exact fun h => (asciiAppend_sound _ _ h).andThen fun _ hu => ih hu

/-- Padding and completing always ends the encode (R112, R137). -/
theorem pad_complete_meets (h : Sound s) (z : Nat) : ((pad z s).andThen (complete z)).Meets P Stopped :=
  (padLoop_sound _ h).andThen fun _ hu => complete_meets hu z

theorem finishSized_meets (h : Sound s) : (finishSized s).Meets P Stopped := by
  rcases finishSized_cases s with ⟨-, e⟩ | ⟨z, -, e⟩
  · rw [e]; exact h.stopped (by decide)
  · rw [e]; exact pad_complete_meets h z

end

/-! ### The EDIFACT packer (R192) -/

section
variable {s : State} {P : State → Prop}

theorem orLast_outRam (h : Sound s) (v : Byte) : Memory.wf s.params.outCap (orLast v s).outMem := by
  have := h.room
  have := outCap_pos h.params
  exact memSet_wf (by omega) h.outRam

theorem orLast_sound (h : Sound s) (v : Byte) : Sound (orLast v s) := by
  rw [orLast_frame]
  exact h.output (orLast_outRam h v) h.room

/-- Packing a value appends a codeword at phases 0 to 2, and at phase 3 fills up the last one. -/
theorem ediPack_meets (h : Sound s) (e : BitVec 6)
    (hgrow : s.chainValues.toNat % 4 < 3 → ∀ m, s.outLen.toNat < s.params.outCap → Memory.wf s.params.outCap m →
      P { s with
        outMem := m
        outLen := s.outLen + 1#16
        chainWords := s.chainWords + 1#16
        chainValues := s.chainValues + 1#16 })
    (hfill : s.chainValues.toNat % 4 = 3 → ∀ m, Memory.wf s.params.outCap m →
      P { s with outMem := m, chainValues := s.chainValues + 1#16 }) :
    (ediPack e s).Meets P Stopped := by
  refine .bind ?_
  rcases ediPackBits_cases (s.chainValues.toNat % 4) (e.setWidth 8 <<< 2) s with
    ⟨hp, eq⟩ | ⟨hp, eq⟩ | ⟨hp, eq⟩ | ⟨h0, h1, h2, eq⟩ <;> rw [eq]
  · exact chainAppend_meets h _ (hgrow (by omega))
  · exact chainAppend_meets (orLast_sound h _) _ (hgrow (by omega))
  · exact chainAppend_meets (orLast_sound h _) _ (hgrow (by omega))
  · exact hfill (by omega) _ (orLast_outRam h _)

theorem ediPack_sound (h : Sound s) (e : BitVec 6) : (ediPack e s).Meets Sound Stopped :=
  ediPack_meets h e (fun _ _ hl hm => h.output hm (h.outLen_succ_le hl)) fun _ _ hm => h.output hm h.room

end

/-! ### The Base256 header (R226 to R229) -/

section
variable {s : State} {P : State → Prop}

theorem b256WriteHeader_meets (h : Sound s) {hidx hl lc : Nat} (hroom : hidx + hl ≤ s.params.outCap)
    (k : ∀ m, (hl = 1 ∧ lc ≤ 249) ∨ (hl = 2 ∧ 250 ≤ lc ∧ lc ≤ 1749) → Memory.wf s.params.outCap m →
      P { s with outMem := m }) :
    (b256WriteHeader hidx hl lc s).Meets P Stopped := by
  rcases b256WriteHeader_cases hidx hl lc s with ⟨h1, h2, e⟩ | ⟨h1, h2, h3, e⟩ | ⟨-, -, e⟩ | ⟨-, -, e⟩ <;> rw [e]
  · exact k _ (.inl ⟨h1, h2⟩) (memSet_wf (by omega) h.outRam)
  · exact k _ (.inr ⟨h1, h2, by omega⟩) (memSet_wf (by omega) (memSet_wf (by omega) h.outRam))
  · exact h.stopped (by decide)
  · exact h.stopped (by decide)

theorem rerandomize_outRam {d j n : Nat} (hj : j + n ≤ s.params.outCap) (hr : ramsWf s) :
    Memory.wf s.params.outCap (rerandomize d j n s).outMem := by
  have hm := (rerandomize_ramsWf (d := d) hj hr).2
  rwa [rerandomize_frame] at hm

theorem b256ShiftUp_meets (h : Sound s) {i : Nat} (hi : i ≤ s.outLen.toNat)
    (k : ∀ m, s.outLen.toNat < s.params.outCap → Memory.wf s.params.outCap m →
      P { s with outMem := m, outLen := s.outLen + 1#16 }) :
    (b256ShiftUp i s).Meets P Stopped := by
  unfold b256ShiftUp
  have hr := insertAt_ramsWf hi h.room h.rams
  rcases insertAt_cases i s with ⟨-, e⟩ | ⟨hl, e⟩
  · rw [e]; exact h.stopped (by decide)
  · have hlt := Nat.lt_of_le_of_ne h.room hl
    have hn := h.outLen_succ hlt
    rw [e, state_go, copyUp_frame] at hr
    rw [e, andThen_go, copyUp_frame, rerandomize_frame]
    exact k _ hlt (rerandomize_outRam (by simp only; omega) hr)

/-- Closing a slot changes the output alone (R226). -/
theorem b256ShiftDown_spec (h : Sound s) {i : Nat} (hi : i < s.outLen.toNat) :
    ∃ m, Memory.wf s.params.outCap m ∧ b256ShiftDown i s = { s with outMem := m, outLen := s.outLen - 1#16 } := by
  have hr := removeAt_ramsWf hi h.room h.rams
  have hn : (s.outLen - 1#16).toNat = s.outLen.toNat - 1 := BitVec.toNat_sub_of_le (BitVec.le_def.2 (by simp; omega))
  have := h.room
  rw [removeAt_frame] at hr
  simp only [b256ShiftDown]
  rw [removeAt_frame, rerandomize_frame]
  have hm := rerandomize_outRam (d := 2) (j := i) (n := (s.outLen - 1#16).toNat - i) (by simp only; omega) hr
  exact ⟨_, hm, rfl⟩

/-- The header update ends in a header that fits the payload, with one more codeword if the payload has outgrown the short one. -/
theorem b256UpdateNormal_meets (h : Sound s) (hv : s.chainValues.toNat < s.chainWords.toNat)
    (hw : s.chainWords.toNat ≤ s.outLen.toNat)
    (hkeep : ∀ m, (headerLength s = 1 ∧ s.chainValues.toNat ≤ 249) ∨
        (headerLength s = 2 ∧ 250 ≤ s.chainValues.toNat ∧ s.chainValues.toNat ≤ 1749) →
      Memory.wf s.params.outCap m → P { s with outMem := m })
    (hgrow : ∀ m, headerLength s = 1 → 250 ≤ s.chainValues.toNat → s.chainValues.toNat ≤ 1749 →
      s.outLen.toNat < s.params.outCap → Memory.wf s.params.outCap m →
      P { s with outMem := m, outLen := s.outLen + 1#16, chainWords := s.chainWords + 1#16 }) :
    (b256UpdateNormal s).Meets P Stopped := by
  have hidx : headerIndex s = s.outLen.toNat - s.chainWords.toNat := rfl
  have hlen : headerLength s = s.chainWords.toNat - s.chainValues.toNat := rfl
  have := h.room
  simp only [b256UpdateNormal]
  split
  · obtain ⟨h1, h249⟩ := ‹_›
    refine .bind (b256ShiftUp_meets h (by omega) fun m hl hm => ?_)
    refine b256WriteHeader_meets (h.output hm (h.outLen_succ_le hl)) (by simp only; omega) fun m' hfit hm' => ?_
    exact hgrow m' h1 (by omega) (by omega) hl hm'
  · exact b256WriteHeader_meets h (by omega) hkeep

theorem b256UpdatePerfect_sound (h : Sound s) (hw : s.chainWords.toNat ≤ s.outLen.toNat) (z : Nat) :
    (b256UpdatePerfect z s).Meets Sound Stopped := by
  have hidx : headerIndex s = s.outLen.toNat - s.chainWords.toNat := rfl
  have hlen : headerLength s = s.chainWords.toNat - s.chainValues.toNat := rfl
  have := h.room
  unfold b256UpdatePerfect
  split
  · exact raise_meets h (by decide)
  · have hin : headerIndex s + 1 < s.outLen.toNat := by omega
    have hn : (s.outLen - 1#16).toNat ≤ s.params.outCap := by
      rw [BitVec.toNat_sub_of_le (BitVec.le_def.2 (by simp; omega))]
      omega
    obtain ⟨m, hm, e⟩ := b256ShiftDown_spec h hin
    have hs := h.output (w := s.chainWords - 1#16) (v := s.chainValues) (i := s.inNext) (t := s.scheme) hm hn
    simp only [e]
    split
    · exact raise_meets hs (by decide)
    · exact hs.output (memSet_wf (by simp only; omega) hs.outRam) hn

end

/-! ### The scheme change (R115) -/

section
variable {s : State} {P : State → Prop}

theorem exitSequence_sound (h : Sound s) (mode : ChangeMode) : (exitSequence mode s).Meets Sound Stopped := by
  have hctx : (ctxUnlatch s).Meets Sound Stopped := by
    rcases ctxUnlatch_cases s with ⟨-, e⟩ | ⟨-, e⟩
    · rw [e]; exact h.stopped (by decide)
    · rw [e]; exact chainAppend_sound h _
  unfold exitSequence
  split
  · exact hctx
  · exact hctx
  · exact hctx
  · exact ediPack_sound h _
  · exact h
  · exact h
  · exact h

/-- The change to Ascii that finishes an encode. -/
theorem changeScheme_ascii_sound (h : Sound s) (mode : ChangeMode) : (changeScheme .ascii mode s).Meets Sound Stopped :=
  (exitSequence_sound h mode).andThen fun _ hu => hu.output hu.outRam hu.room

/-- From Ascii into another scheme: the latch, a new chain, and in Base256 its placeholder header (R115, R118, R119). -/
theorem changeScheme_enter_meets (h : Sound s) (hs : s.scheme = .ascii) {t : Scheme} (ht : t ≠ .ascii)
    (k : ∀ m n w, Memory.wf s.params.outCap m → n.toNat ≤ s.params.outCap → n.toNat = s.outLen.toNat + 1 + w.toNat →
      w.toNat = (if t = .base256 then 1 else 0) →
      P { s with outMem := m, outLen := n, scheme := t, chainWords := w, chainValues := 0#16 }) :
    (changeScheme t .explicit s).Meets P Stopped := by
  have hexit : exitSequence .explicit s = .go s := by simp [exitSequence, hs]
  obtain ⟨ht', -⟩ | ⟨c, -, e⟩ := latchInto_cases t { s with scheme := .ascii }
  · exact absurd ht' ht
  rw [changeScheme, hexit, andThen_go, e]
  refine .bind (.bind (asciiAppend_meets ?_ c fun m hl hm => ?_))
  · exact h.output h.outRam h.room
  have hn := h.outLen_succ hl
  have hs := h.output (w := 0#16) (v := 0#16) (i := s.inNext) (t := t) hm (h.outLen_succ_le hl)
  change (placeholder t _).Meets P Stopped
  by_cases hb : t = .base256
  · rw [placeholder, if_pos hb]
    refine .bind (chainAppend_meets hs _ fun m' hl' hm' => ?_)
    have hn' := hs.outLen_succ hl'
    refine b256UpdateNormal_meets (hs.output hm' (hs.outLen_succ_le hl')) (by simp) (by simp [hn']) ?_ ?_
    · intro m'' _ hm''
      exact k m'' _ _ hm'' (hs.outLen_succ_le hl') (by rw [hn', hn]; rfl) (by rw [if_pos hb]; rfl)
    · intro _ _ h250
      simp at h250
  · rw [placeholder, if_neg hb]
    exact k m _ _ hm (h.outLen_succ_le hl) (by rw [hn]; rfl) (by rw [if_neg hb]; rfl)

end

/-! ### One more codeword in a running chain -/

/-- One appended codeword, with the values that keep the relation of R24. -/
theorem Running.grow {t : Scheme} {held : Nat} {s : State} (h : Running t held s) {m : Memory} {v i : Count}
    (hl : s.outLen.toNat < s.params.outCap) (hm : Memory.wf s.params.outCap m) (hi : i.toNat ≤ s.inLen.toNat)
    (hc : chainRelation t (s.chainWords.toNat + 1) v.toNat) :
    Running t held { s with
      outMem := m
      outLen := s.outLen + 1#16
      chainWords := s.chainWords + 1#16
      chainValues := v
      inNext := i } := by
  have hn := h.outLen_succ hl
  have hw := h.chainWords_add (n := 1) (by omega)
  refine h.advance hm (h.outLen_succ_le hl) hi ?_ (by rw [hw]; exact hc)
  rw [hn, hw, h.length]
  omega

/-! ### The ASCII packer (R134, R138) -/

section
variable {s : State} {P : State → Prop}

/-- `AsciiAppend` in a running Ascii chain whose cursor is about to move by `n`. -/
theorem asciiAppend_running (n : Count) (v : Byte) (s : State) (h : Running .ascii 0 { s with inNext := s.inNext + n }) :
    (asciiAppend v s).Meets (fun u => Running .ascii 0 { u with inNext := u.inNext + n }) Stopped := by
  refine asciiAppend_meets (h.output h.outRam h.room) v fun m hl hm => ?_
  refine h.grow hl hm h.cursor (chainRelation_ascii.2 ?_)
  rw [h.chainValues_add (n := 1) (by omega)]
  exact congrArg (· + 1) (chainRelation_ascii.1 h.chain)

/-- A unit takes no byte that is not there (R131). -/
theorem asciiUnitAt_le {i : Nat} (h : i < s.inLen.toNat) : i + (asciiUnitAt s i).2 ≤ s.inLen.toNat := by
  unfold asciiUnitAt
  split
  · simp only; omega
  · exact h

theorem asciiChunk_running (h : Running .ascii 0 s) : (asciiChunk s).Meets (Running .ascii 0) Stopped := by
  unfold asciiChunk
  split
  · exact h
  · exact .bind (asciiAppendAll_meets (asciiAppend_running _) _ (h.consume (asciiUnitAt_le (h.cursor_lt ‹_›))))

theorem asciiComplete_meets (h : Sound s) (hP : P s) : (asciiComplete s).Meets P Stopped := by
  unfold asciiComplete
  split
  · exact hP
  · exact finishSized_meets h

end

/-! ### The EDIFACT packer (R194 to R199) -/

section
variable {s : State} {P : State → Prop}

theorem ediChunk_running (h : Running .edifact 0 s) : (ediChunk s).Meets (Running .edifact 0) Stopped := by
  have hrel := chainRelation_edifact.1 h.chain
  have hv := h.chainValues_add (n := 1) (by omega)
  simp only [ediChunk]
  split
  · exact h
  · have hi := h.consume (n := 1) (h.cursor_lt ‹_›)
    split
    · refine .bind (ediPack_meets h.toSound _ (fun hp m hl hm => ?_) fun hp m hm => ?_)
      · exact h.grow hl hm hi.cursor (chainRelation_edifact.2 (by rw [hv]; omega))
      · exact h.advance hm h.room hi.cursor h.length (chainRelation_edifact.2 (by simp only [hv]; omega))
    · exact raise_meets h.toSound (by decide)

theorem ediEndExplicit_meets (h : Sound s) : (ediEndExplicit s).Meets P Stopped :=
  (changeScheme_ascii_sound h .explicit).andThen fun _ hu => finishSized_meets hu

theorem ediEnd_meets (h : Sound s) (hP : P s) : (ediEnd s).Meets P Stopped := by
  unfold ediEnd
  split
  · split
    · exact complete_meets h _
    · refine (changeScheme_ascii_sound h .implicit).andThen fun u hu => ?_
      refine (asciiAppendAll_meets asciiAppend_sound _ hu).andThen fun u hu => ?_
      have hu' : Sound { u with inNext := u.inLen } := hu.output hu.outRam hu.room
      exact (padLoop_sound _ hu').andThen fun _ hv => complete_meets hv _
  · split
    · exact ediEndExplicit_meets h
    · exact hP

end

/-! ### The Base256 packer (R224, R231) -/

section
variable {s : State} {P : State → Prop}

theorem b256Chunk_running (h : Running .base256 0 s) : (b256Chunk s).Meets (Running .base256 0) Stopped := by
  have hrel := chainRelation_base256.1 h.chain
  have hlen : s.outLen.toNat = s.chainWords.toNat + 1 := h.length
  have hw := h.chainWords_add (n := 1) (by omega)
  have hv := h.chainValues_add (n := 1) (by omega)
  unfold b256Chunk
  split
  · exact h
  · have hi := h.consume (n := 1) (h.cursor_lt ‹_›)
    refine .bind (chainAppend_meets h.toSound _ fun m hl hm => ?_)
    have hn := h.outLen_succ hl
    have hs := h.output (w := s.chainWords + 1#16) (v := s.chainValues + 1#16) (i := s.inNext + 1#16) (t := s.scheme) hm
      (h.outLen_succ_le hl)
    refine b256UpdateNormal_meets hs (by simp only; omega) (by simp only; omega) ?_ ?_
    · intro m' hfit hm'
      simp only [headerLength] at hfit
      exact h.grow hl hm' hi.cursor (chainRelation_base256.2 (by simp only; omega))
    · intro m' h1 h2 h3 hl' hm'
      have hn' := hs.outLen_succ hl'
      have hw2 := h.chainWords_add_two
      simp only [headerLength] at h1 h2 h3 hn'
      refine h.advance hm' (hs.outLen_succ_le hl') hi.cursor ?_ (chainRelation_base256.2 ?_)
      · simp only [hn', hw2, hn, hlen, if_neg (show Scheme.base256 ≠ .ascii by decide)]
      · simp only [hw2]
        omega

theorem b256Complete_meets (h : Running .base256 0 s) (hP : P s) : (b256Complete s).Meets P Stopped := by
  have hlen : s.outLen.toNat = s.chainWords.toNat + 1 := h.length
  unfold b256Complete
  split
  · exact hP
  · split
    · exact (b256UpdatePerfect_sound h.toSound (by omega) _).andThen fun _ hu => complete_meets hu _
    · split
      · exact raise_meets h.toSound (by decide)
      · exact (changeScheme_ascii_sound h.toSound .implicit).andThen fun _ hu => pad_complete_meets hu _

end

/-! ### The CTX packer (R159 to R170) -/

section
variable {s : State} {P : State → Prop} {k : CtxSet}

theorem ctxEmitPair_running {held : Nat} (h : Running k.scheme held s) (p : BitVec 16) :
    (ctxEmitPair p s).Meets (Running k.scheme 0) Stopped := by
  refine .bind (chainAppend_meets h.toSound _ fun m hl hm => ?_)
  have hn := h.outLen_succ hl
  have hs := h.output (w := s.chainWords + 1#16) (v := s.chainValues) (i := s.inNext) (t := s.scheme) hm (h.outLen_succ_le hl)
  refine .bind (chainAppend_meets hs _ fun m' hl' hm' => ?_)
  have hn' := hs.outLen_succ hl'
  have hw := h.chainWords_add_two
  have hv := h.chainValues_add (n := 3) (by omega)
  have hrel := (chainRelation_ctx k).1 h.chain
  have hlen := h.length
  have hpair : Running k.scheme held { s with
      outMem := m'
      outLen := s.outLen + 1#16 + 1#16
      chainWords := s.chainWords + 1#16 + 1#16
      chainValues := s.chainValues + 3#16 } :=
    h.advance hm' (hs.outLen_succ_le hl') h.cursor (by simp only [hn', hn, hw]; omega)
      ((chainRelation_ctx k).2 (by rw [hw, hv]; omega))
  exact hpair.refill (n := 0#3) (l := 0#3) h.spare (Nat.le_refl 0) (Nat.le_refl 0)

theorem ctxPush_running (h : Running k.scheme 2 s) (v : CtxValue) : (ctxPush v s).Meets (Running k.scheme 2) Stopped := by
  obtain ⟨hlast, hheld⟩ := h.buffer
  have hn : (s.ctxN + 1#3).toNat = s.ctxN.toNat + 1 := by bv_omega
  have hl : (s.ctxLastn + 1#3).toNat = s.ctxLastn.toNat + 1 := by bv_omega
  have hspare : (s.ctxBuf.setIfInBounds s.ctxN.toNat v)[3] = 0#6 := by
    rw [Vector.getElem_setIfInBounds_ne (by omega) (by omega)]
    exact h.spare
  rcases ctxPush_cases v s with ⟨hc, e⟩ | ⟨hc, e⟩ <;> rw [e]
  · have hfull : Running k.scheme 3 _ := h.refill hspare (n := s.ctxN + 1#3) (l := s.ctxLastn + 1#3) (by omega) (by omega)
    exact (ctxEmitPair_running hfull _).mono fun _ hu => hu.weaken (by omega)
  · have : s.ctxN.toNat ≠ 2 := fun e => hc (BitVec.eq_of_toNat_eq e)
    exact h.refill hspare (by omega) (by omega)

theorem ctxPushAll_running (vals : List CtxValue) :
    ∀ {s : State}, Running k.scheme 2 s → (ctxPushAll vals s).Meets (Running k.scheme 2) Stopped := by
  induction vals with
  | nil => exact fun h => h
  | cons v rest ih => exact fun h => (ctxPush_running h v).andThen fun _ hu => ih hu

theorem ctxByte_running (h : Running k.scheme 2 s) (hlt : s.inNext.toNat < s.inLen.toNat) :
    (ctxByte k s).Meets (Running k.scheme 2) Stopped := by
  unfold ctxByte
  split
  · exact raise_meets h.toSound (by decide)
  · exact ctxPushAll_running _ ((h.consume hlt).refill h.spare (Nat.zero_le _) h.buffer.2)

/-- The loop stops before it reads past the input. -/
theorem ctxLoop_running (n : Nat) : ∀ {s : State}, Running k.scheme 2 s → s.inNext ≠ s.inLen →
    (ctxLoop k n s).Meets (Running k.scheme 2) Stopped := by
  induction n with
  | zero => exact fun h _ => h
  | succ n ih =>
    intro s h hne
    refine (ctxByte_running h (h.cursor_lt hne)).andThen fun u hu => ?_
    split
    · exact hu
    · exact ih hu (not_or.1 ‹_›).2

theorem ctxFinishInAscii_meets (h : Sound s) (tail : List Byte) : (ctxFinishInAscii tail s).Meets P Stopped := by
  have tailed : ∀ u, Sound u → (asciiAppendAll tail u).Meets (fun u => Sound { u with inNext := u.inLen }) Stopped :=
    fun u hu => (asciiAppendAll_meets asciiAppend_sound tail hu).mono fun v hv => hv.output hv.outRam hv.room
  unfold ctxFinishInAscii
  split
  · refine (changeScheme_ascii_sound h .implicit).andThen fun u hu => (tailed u hu).andThen fun _ hv => complete_meets hv _
  · refine (changeScheme_ascii_sound h .explicit).andThen fun u hu => (tailed u hu).andThen fun _ hv => finishSized_meets hv

/-- A partial triplet ends the encode (R163). -/
theorem ctxPartial_meets (h : Running k.scheme 2 s) : (ctxPartial k s).Meets P Stopped := by
  unfold ctxPartial
  split
  · exact (ctxPush_running h _).andThen fun _ hu => complete_meets hu.toSound _
  · have hback : Sound (ctxRollback s) := ⟨h.params, h.inRam, h.outRam, h.spare, h.schedule, h.room⟩
    exact ctxFinishInAscii_meets hback _

theorem ctxChunk_running (h : Running k.scheme 0 s) : (ctxChunk k s).Meets (Running k.scheme 0) Stopped := by
  unfold ctxChunk
  split
  · exact h
  · refine (ctxLoop_running _ (h.weaken (by omega)) ‹_›).andThen fun u hu => ?_
    split
    · exact ctxPartial_meets hu
    · exact hu.refill hu.spare hu.buffer.1 (by omega)

theorem ctxComplete_meets (h : Sound s) (hP : P s) : (ctxComplete s).Meets P Stopped := by
  unfold ctxComplete
  split
  · exact hP
  · split
    · exact raise_meets h (by decide)
    · split
      · exact complete_meets h _
      · exact (changeScheme_ascii_sound h .explicit).andThen fun _ hu => pad_complete_meets hu _

end

/-! ### The iteration (R105 to R109) -/

section
variable {s : State} {t : Scheme}

/-- A target code is the code of the scheme it names (R61). -/
theorem schemeCode_of_schemeOfCode {c : BitVec 3} (h : schemeOfCode c = some t) : schemeCode t = c := by
  unfold schemeOfCode at h
  split_ifs at h <;> cases h <;> exact Eq.symm ‹_›

theorem sound_of_machineInv (h : MachineInv s) (hs : s.status = .encoding) : Sound s := by
  obtain ⟨hparams, hin, hout, hspare, hqueue, hrun⟩ := h
  obtain ⟨-, -, hroom, -⟩ := hrun hs
  exact ⟨hparams, hin, hout, hspare, hqueue, hroom⟩

theorem machineInv_of_stopped (h : Stopped s) : MachineInv s :=
  ⟨h.1.params, h.1.inRam, h.1.outRam, h.1.spare, h.1.schedule, fun hs => absurd hs h.2⟩

theorem machineInv_of_running (h : Running t 0 s) : MachineInv s := by
  obtain ⟨hlast, hn⟩ := h.buffer
  have hn0 : s.ctxN = 0#3 := BitVec.eq_of_toNat_eq (Nat.le_zero.1 hn)
  have hl0 : s.ctxLastn = 0#3 := BitVec.eq_of_toNat_eq (Nat.le_zero.1 (Nat.le_trans hlast hn))
  refine ⟨h.params, h.inRam, h.outRam, h.spare, h.schedule, fun _ => ⟨h.checked, h.cursor, h.room, ?_, ?_, ⟨hn0, hl0⟩, ?_, ?_⟩⟩
  · rw [h.scheme]; exact h.length
  · rw [h.scheme]; exact h.chain
  · exact fun hf => absurd (h.latched.symm.trans hf) (by decide)
  · rw [h.scheme]; exact fun _ => h.target

/-- The scheme step leaves the encode running in its target (R106). -/
theorem schemeStep_running (h : MachineInv s) (hs : s.status = .encoding) (ht : schemeCode t = s.target) :
    (schemeStep t s).Meets (Running t 0) Stopped := by
  have hsound := sound_of_machineInv h hs
  obtain ⟨-, -, -, -, -, hrun⟩ := h
  obtain ⟨hcheck, hcur, hroom, hlen, hchain, ⟨hn, hl⟩, hfirst, -⟩ := hrun hs
  have hbuf : s.ctxLastn.toNat ≤ s.ctxN.toNat ∧ s.ctxN.toNat ≤ 0 := by simp [hn, hl]
  refine .bind ?_
  split
  · subst t
    exact ⟨⟨hsound.params, hsound.inRam, hsound.outRam, hsound.spare, hsound.schedule, hroom⟩, hcheck, hcur, rfl, ht, rfl, hlen,
      hchain, hbuf⟩
  next htarget =>
    split
    · exact raise_meets hsound (by decide)
    · obtain ⟨hascii, hout, -⟩ := hfirst (Bool.eq_false_iff.2 ‹_›)
      rw [if_neg (not_not.2 hascii)]
      have hne : t ≠ .ascii := fun e => htarget (hascii.trans e.symm)
      refine changeScheme_enter_meets hsound hascii hne fun m n w hm hn' heq hw => ?_
      refine ⟨⟨hsound.params, hsound.inRam, hm, hsound.spare, hsound.schedule, hn'⟩, hcheck, hcur, rfl, ht, rfl, ?_, ?_, hbuf⟩
      · simp [heq, hout, hne, Nat.add_comm]
      · rw [hw]
        exact chainRelation_entered hne

theorem preCheck_running (h : Running t 0 s) : (preCheck s).Meets (Running t 0) Stopped := by
  unfold preCheck
  split
  · exact ediEnd_meets h.toSound h
  · exact h

theorem chunk_running (h : Running t 0 s) : (chunk s).Meets (Running t 0) Stopped := by
  unfold chunk
  rw [h.scheme]
  cases t with
  | ascii => exact asciiChunk_running h
  | c40 => exact ctxChunk_running (k := .c40) h
  | text => exact ctxChunk_running (k := .text) h
  | x12 => exact ctxChunk_running (k := .x12) h
  | edifact => exact ediChunk_running h
  | base256 => exact b256Chunk_running h

theorem completeIfDone_running (h : Running t 0 s) : (completeIfDone s).Meets (Running t 0) Stopped := by
  unfold completeIfDone
  rw [h.scheme]
  cases t with
  | ascii => exact asciiComplete_meets h.toSound h
  | c40 => exact ctxComplete_meets h.toSound h
  | text => exact ctxComplete_meets h.toSound h
  | x12 => exact ctxComplete_meets h.toSound h
  | edifact => exact ediEnd_meets h.toSound h
  | base256 => exact b256Complete_meets h h

/-- An iteration that goes on leaves the encode running in its target. -/
theorem iterate_running (h : MachineInv s) (hs : s.status = .encoding) (ht : schemeCode t = s.target) :
    (iterate t s).Meets (Running t 0) Stopped :=
  (schemeStep_running h hs ht).andThen fun _ hu => (preCheck_running hu).andThen fun _ hv =>
    (chunk_running hv).andThen fun _ hw => completeIfDone_running hw

/-- The encoder's turn keeps the machine invariant. -/
theorem encoderTurn_machineInv {u : State} (h : MachineInv s) (hu : encoderTurn s = .next u) : MachineInv u := by
  obtain ⟨-, e⟩ | ⟨t, hs, -, ht, e⟩ | ⟨-, -, e⟩ := encoderTurn_cases s <;> rw [e] at hu
  · cases hu; exact h
  · cases hu
    exact (iterate_running h hs (schemeCode_of_schemeOfCode ht)).state (fun _ => machineInv_of_running)
      fun _ => machineInv_of_stopped
  · cases hu

end

/-! ### Host accesses (R49, R66, R100 to R103, R304, R305) -/

/-- Everything one bus transaction can do to the machine. -/
inductive HostEffect (s : State) : State → Prop
  /-- A write without effect (R49, R102, R103, R304). -/
  | ignored : HostEffect s s
  /-- A read, which returns a word and has no other effect (R51, R305). -/
  | read (words : List Word) (ctr : Nat) : HostEffect s { s with returned := words, freeCtr := ctr }
  | target (hs : s.status ≠ .encoding) (v : BitVec 3) : HostEffect s { s with target := v }
  | hint (hs : s.status ≠ .encoding) (v : BitVec 8) : HostEffect s { s with hint := v }
  | inLen (hs : s.status ≠ .encoding) (v : Count) : HostEffect s { s with inLen := v }
  | inByte (hs : s.status ≠ .encoding) (i : Nat) (v : Byte) (hi : i < s.params.inCap) : HostEffect s (writeIn i v s)
  | start (hs : s.status ≠ .encoding) : HostEffect s (beginEncode s).state

section
variable {s : State}

theorem answerSettled_effect (m w : Word) (s : State) : HostEffect s (answerSettled m w s) := by
  obtain ⟨-, e⟩ | ⟨-, e⟩ := answerSettled_cases m w s <;> rw [e] <;> exact .read _ _

theorem unlessEncoding_effect {f : State → State} (h : s.status ≠ .encoding → HostEffect s (f s)) :
    HostEffect s (unlessEncoding f s) := by
  by_cases hs : s.status = .encoding
  · rw [unlessEncoding_busy hs]; exact .ignored
  · rw [unlessEncoding_idle hs]; exact h hs

/-- Every instruction of the bus format goes on, with one of these effects. -/
theorem exec_host_effect {i : Instr} (hi : i.format = .host) (s : State) : ∃ t, exec i s = .next t ∧ HostEffect s t := by
  cases i with
  | start hi => exact ⟨_, rfl, unlessEncoding_effect .start⟩
  | wrTarget d => exact ⟨_, rfl, unlessEncoding_effect fun hs => .target hs _⟩
  | wrHint d => exact ⟨_, rfl, unlessEncoding_effect fun hs => .hint hs _⟩
  | wrInLen d => exact ⟨_, rfl, unlessEncoding_effect fun hs => .inLen hs _⟩
  | wrInMem i d =>
    refine ⟨_, rfl, unlessEncoding_effect fun hs => ?_⟩
    split
    · exact .inByte hs _ _ ‹_›
    · exact .ignored
  | wrCtrlNop _ | wrStatus _ | wrReason _ | wrSizeIdx _ | wrOutLen _ | wrCaps _ | wrNsizes _ | wrDbgCursor _ | wrDbgScheme _
  | wrDbgChain _ | wrDbgCtx _ | wrOutMem _ _ | wrUnmapped _ _ => exact ⟨_, rfl, .ignored⟩
  | rdCtrl | rdTarget | rdHint | rdInLen | rdStatus | rdCaps | rdNsizes | rdInMem _ | rdUnmapped _ => exact ⟨_, rfl, .read _ _⟩
  | rdReason | rdSizeIdx | rdOutLen | rdDbgCursor | rdDbgScheme | rdDbgChain | rdDbgCtx =>
    exact ⟨_, rfl, answerSettled_effect _ _ _⟩
  | rdOutMem i =>
    simp only [exec, execRdOutMem]
    split
    · exact ⟨_, rfl, .read _ _⟩
    · split
      · exact ⟨_, rfl, .read _ _⟩
      · exact ⟨_, rfl, answerSettled_effect _ _ _⟩
  | cwAsciiChar _ | cwPadFirst | cwDigitPair _ | cwLatchC40 | cwLatchBase256 | cwLatchX12 | cwLatchText | cwLatchEdifact
  | cwUpperShift _ | ctx16Triplet _ | ctxUnlatch | edi24Quad _ _ _ _ | ediUnlatch | b256H1 _ | b256H2 _ _ | b256D _
  | padRandom _ => cases hi

/-- A bus transaction decodes to an instruction of the bus format (R66). -/
theorem decodeHost_format (w : BitVec 49) : (decodeHost w).format = .host := by
  have hwrite : ∀ (p : Place) (d : Word), (decodeWrite p d).format = .host := by
    intro p d
    cases p with
    | ctrl => simp only [decodeWrite]; split <;> rfl
    | _ => rfl
  have hread : ∀ p : Place, (decodeRead p).format = .host := fun p => by cases p <;> rfl
  unfold decodeHost
  split
  · exact hwrite _ _
  · exact hread _

/-- A bus transaction runs the instruction it decodes to (R65). -/
theorem runWord_host (w : BitVec 49) (s : State) : runWord .host (w.setWidth 56) s = exec (decodeHost w) s := by
  have hw : ¬ 2 ^ Format.host.width ≤ (w.setWidth 56).toNat := Nat.not_le.2 (Laws.EncodeFits.setWidth_lt w)
  have hd : decode .host (w.setWidth 56) = .ok (decodeHost w) := by
    rw [decode, if_neg hw, BitVec.setWidth_setWidth_of_le _ (by decide), BitVec.setWidth_eq]
  rw [runWord, hd]

/-- A failed check gives one of the two failure classes (R101). -/
theorem startCheck_status {st : Status} {r : Reason} (h : startCheck s = some (st, r)) : st ≠ .encoding := by
  unfold startCheck at h
  split_ifs at h <;> cases h <;> decide

/-- START begins an encode with nothing consumed and nothing emitted, or fails (R100, R101). -/
theorem beginEncode_machineInv (h : MachineInv s) : MachineInv (beginEncode s).state := by
  obtain ⟨hparams, hin, hout, -, hqueue, -⟩ := h
  unfold beginEncode
  split
  · refine ⟨hparams, hin, hout, rfl, hqueue, fun _ => ?_⟩
    exact ⟨‹_›, Nat.zero_le _, Nat.zero_le _, rfl, chainRelation_ascii.2 rfl, ⟨rfl, rfl⟩, fun _ => ⟨rfl, rfl, rfl⟩,
      fun hl : false = true => absurd hl (by decide)⟩
  · exact ⟨hparams, hin, hout, rfl, hqueue, fun hs => absurd hs (startCheck_status ‹_›)⟩

/-- A host access keeps the machine invariant: while an encode runs it changes nothing the invariant speaks of. -/
theorem hostEffect_machineInv {t : State} (h : MachineInv s) (he : HostEffect s t) : MachineInv t := by
  obtain ⟨hparams, hin, hout, hspare, hqueue, hrun⟩ := id h
  cases he with
  | ignored => exact h
  | read words ctr => exact h
  | target hs v => exact ⟨hparams, hin, hout, hspare, hqueue, fun he => absurd he hs⟩
  | hint hs v => exact ⟨hparams, hin, hout, hspare, hqueue, fun he => absurd he hs⟩
  | inLen hs v => exact ⟨hparams, hin, hout, hspare, hqueue, fun he => absurd he hs⟩
  | inByte hs i v hi => exact ⟨hparams, memSet_wf hi hin, hout, hspare, hqueue, fun he => absurd he hs⟩
  | start hs => exact beginEncode_machineInv h

theorem hardReset_machineInv (h : MachineInv s) : MachineInv (hardReset s) := by
  obtain ⟨hparams, -, -, -, hqueue, -⟩ := h
  obtain ⟨hin, hout⟩ := hardReset_ramsWf s
  exact ⟨hparams, hin, hout, rfl, hqueue, fun hs : Status.idle = .encoding => absurd hs (by decide)⟩

/-- Taking the next entry of the schedule keeps the machine invariant. -/
theorem machineInv_of_queue {slot : Slot} {rest : List Slot} (h : MachineInv s) (hq : s.queue = slot :: rest) :
    slot.isHosts = true ∧ MachineInv { s with queue := rest } := by
  obtain ⟨hparams, hin, hout, hspare, hqueue, hrun⟩ := h
  rw [hq] at hqueue
  exact ⟨hqueue _ List.mem_cons_self, hparams, hin, hout, hspare, fun x hx => hqueue x (List.mem_cons_of_mem _ hx), hrun⟩

end

/-! ### The obligations -/

/-- Settles O21, by the kinds of step: an iteration (`encoderTurn_machineInv`), a host access (`hostEffect_machineInv`) and a hardware
reset; the invariant admits no codeword unit in the schedule. -/
theorem everyStepKeepsTheMachineInvariant : Obligations.EveryStepKeepsTheMachineInvariant := by
  intro s t h hst
  obtain ⟨-, hturn⟩ | ⟨slot, rest, hq, hslot⟩ := step_cases hst
  · exact encoderTurn_machineInv h hturn
  obtain ⟨hhost, hrest⟩ := machineInv_of_queue h hq
  obtain ⟨-, hturn⟩ | ⟨-, rfl⟩ | ⟨w, -, hbus⟩ | ⟨f, w, i, rfl, -⟩ := hslot
  · exact encoderTurn_machineInv hrest hturn
  · exact hardReset_machineInv hrest
  · obtain ⟨u, hu, heff⟩ := exec_host_effect (decodeHost_format w) { s with queue := rest }
    rw [runWord_host, hu] at hbus
    cases hbus
    exact hostEffect_machineInv hrest heff
  · exact absurd hhost (by simp [Slot.isHosts])

/-- Settles O20: the reference parameters are legal, both RAMs are empty and no encode runs. -/
theorem resetMeetsTheMachineInvariant : Obligations.ResetMeetsTheMachineInvariant := by
  exact ⟨by decide, by decide⟩

end Sys2Proof.Machine
end

section
/-! PROOFS. Host reads and writes, and what an iteration never writes (spec R20, R26, R41, R42, R49, R66, R304, R305): the fields of
a bus word as numbers, what a read answers in each case, and one frame lemma per encoder operation. -/

namespace Sys2Proof.Machine

/-! ### The fields of a bus word as numbers (R26, R66) -/

/-- The low bits of a word are its remainder. -/
theorem extractLsb'_zero_eq_ofNat {m : Nat} (d : BitVec m) (n : Nat) : d.extractLsb' 0 n = BitVec.ofNat n (d.toNat % 2 ^ n) :=
  BitVec.eq_of_toNat_eq (by simp)

theorem dataScheme_eq (d : Word) : dataScheme d = BitVec.ofNat 3 (d.toNat % 8) := extractLsb'_zero_eq_ofNat d 3

theorem dataByte_eq (d : Word) : dataByte d = BitVec.ofNat 8 (d.toNat % 256) := extractLsb'_zero_eq_ofNat d 8

theorem dataCount_eq (d : Word) : dataCount d = BitVec.ofNat 16 (d.toNat % 65536) := extractLsb'_zero_eq_ofNat d 16

theorem field_eq {n : Nat} (v : BitVec n) (lo : Nat) : field v lo = BitVec.ofNat 32 (2 ^ lo * v.toNat) :=
  BitVec.eq_of_toNat_eq (by simp [field, Nat.shiftLeft_eq, Nat.mul_comm])

theorem field_zero {n : Nat} (v : BitVec n) : field v 0 = BitVec.ofNat 32 v.toNat := by
  rw [field_eq, Nat.pow_zero, Nat.one_mul]

/-- A field above the low one adds its multiple, since the two share no bit. -/
theorem field_or_field {m n : Nat} (a : BitVec m) (b : BitVec n) {lo : Nat} (h : m ≤ lo) :
    field a 0 ||| field b lo = BitVec.ofNat 32 (a.toNat + 2 ^ lo * b.toNat) := by
  have ha : a.toNat < 2 ^ lo := Nat.lt_of_lt_of_le a.isLt (Nat.pow_le_pow_right (by decide) h)
  rw [field_zero, field_eq, ← BitVec.ofNat_or, Nat.or_comm, ← Nat.two_pow_add_eq_or_of_lt ha, Nat.add_comm]

/-- A one-bit field at bit 3, above a three-bit one (STATUS and DBG_SCHEME of R26). -/
theorem field_or_flag (a : BitVec 3) (b : Bool) :
    field a 0 ||| field (BitVec.ofBool b) 3 = BitVec.ofNat 32 (a.toNat + if b then 8 else 0) := by
  rw [field_or_field _ _ (Nat.le_refl 3)]
  cases b <;> rfl

theorem done_iff (st : Status) : done st = true ↔ st = .complete ∨ st = .invalid ∨ st = .fatal := by
  cases st <;> decide

theorem statusWord_eq (s : State) : statusWord s = BitVec.ofNat 32 ((statusCode s.status).toNat +
    if s.status = .complete ∨ s.status = .invalid ∨ s.status = .fatal then 8 else 0) := by
  simp only [statusWord, field_or_flag, done_iff]

theorem capsWord_eq {s : State} (h : s.params.ok) :
    capsWord s = BitVec.ofNat 32 (s.params.inCap + 65536 * s.params.outCap) := by
  have hin := inCap_le h
  have hout := outCap_le h
  rw [capsWord, field_or_field _ _ (Nat.le_refl 16), BitVec.toNat_ofNat, BitVec.toNat_ofNat, Nat.mod_eq_of_lt (by omega),
    Nat.mod_eq_of_lt (by omega)]
  rfl

theorem nsizesWord_eq {s : State} (h : s.params.ok) : nsizesWord s = BitVec.ofNat 32 s.params.symDw.length := by
  obtain ⟨⟨-, hlen⟩, -⟩ := h
  rw [nsizesWord, field_zero, BitVec.toNat_ofNat, Config.Params.nSizes, Nat.mod_eq_of_lt (by omega)]

/-! ### What a write does and a read answers (R49, R304, R305) -/

section
variable {s : State}

theorem next_write_idle (h : s.status ≠ .encoding) (f : State → State) :
    (Host.Outcome.next (unlessEncoding f s) : Outcome) = .next (f s) := by rw [unlessEncoding_idle h]

theorem next_write_busy (h : s.status = .encoding) (f : State → State) :
    (Host.Outcome.next (unlessEncoding f s) : Outcome) = .next s := by rw [unlessEncoding_busy h]

theorem answerSettled_idle (h : s.status ≠ .encoding) (m w : Word) : answerSettled m w s = answer w s := if_neg h

theorem answerSettled_busy (h : s.status = .encoding) (m w : Word) : answerSettled m w s = answerFree m s := if_pos h

/-- A read answers the word, in whatever form it is written. -/
theorem next_answer {w v : Word} (h : w = v) (s : State) :
    (Host.Outcome.next (answer w s) : Outcome) = .next { s with returned := v :: s.returned } := h ▸ rfl

theorem next_answerSettled_idle {w v : Word} (hs : s.status ≠ .encoding) (m : Word) (h : w = v) :
    (Host.Outcome.next (answerSettled m w s) : Outcome) = .next { s with returned := v :: s.returned } := by
  rw [answerSettled_idle hs, next_answer h]

/-- A free word has no bit outside its mask. -/
theorem answerFree_masked (m : Word) (s : State) :
    ∃ w : Word, w &&& ~~~m = 0#32 ∧ answerFree m s = { s with returned := w :: s.returned, freeCtr := s.freeCtr + 1 } :=
  ⟨Config.freeRead s.freeCtr &&& m, by rw [BitVec.and_assoc, BitVec.and_not_self]; exact BitVec.and_zero, rfl⟩

/-- A free word under the mask of a byte is one. -/
theorem answerFree_byte (s : State) :
    ∃ w : Word, w.toNat < 256 ∧ answerFree 0xFF#32 s = { s with returned := w :: s.returned, freeCtr := s.freeCtr + 1 } := by
  refine ⟨Config.freeRead s.freeCtr &&& 0xFF#32, ?_, rfl⟩
  rw [BitVec.toNat_and]
  exact Nat.lt_succ_of_le Nat.and_le_right

theorem inMemWord_below {i : BitVec 12} (h : i.toNat < s.params.inCap) :
    inMemWord i s = BitVec.ofNat 32 (readIn s i.toNat).toNat := by
  rw [inMemWord, if_pos h, field_zero]

theorem inMemWord_above {i : BitVec 12} (h : s.params.inCap ≤ i.toNat) : inMemWord i s = 0#32 := if_neg (Nat.not_lt.2 h)

theorem execRdOutMem_above {i : BitVec 12} (h : s.params.outCap ≤ i.toNat) : execRdOutMem i s = .next (answer 0#32 s) :=
  if_pos h

/-- A read of written output waits for the end of the encode (R305). -/
theorem execRdOutMem_written {i : BitVec 12} (hcap : i.toNat < s.params.outCap) (hlen : i.toNat < s.outLen.toNat) :
    execRdOutMem i s = .next (answerSettled 0xFF#32 (field (readOut s i.toNat) 0) s) := by
  rw [execRdOutMem, if_neg (Nat.not_le.2 hcap), if_neg (Nat.not_le.2 hlen)]

/-- A read of output is unspecified during an encode (R305), and of output not written at any time (R42). -/
theorem execRdOutMem_unspecified {i : BitVec 12} (hcap : i.toNat < s.params.outCap)
    (h : s.status = .encoding ∨ s.outLen.toNat ≤ i.toNat) : execRdOutMem i s = .next (answerFree 0xFF#32 s) := by
  by_cases hlen : s.outLen.toNat ≤ i.toNat
  · rw [execRdOutMem, if_neg (Nat.not_le.2 hcap), if_pos hlen]
  · rw [execRdOutMem_written hcap (Nat.not_le.1 hlen), answerSettled_busy (h.resolve_right hlen)]

end

/-! ### What the encoder never writes (R20, R41) -/

/-- The parameters, the configuration (R20), the input RAM (R41) and the fields that are the host's; all else as at reset. -/
def untouched (s : State) : State :=
  { State.reset with
    params := s.params
    target := s.target
    hint := s.hint
    inLen := s.inLen
    inMem := s.inMem
    queue := s.queue
    returned := s.returned
    freeCtr := s.freeCtr
    draw := s.draw }

theorem untouched_eq_iff {s t : State} : untouched t = untouched s ↔
    t.params = s.params ∧ t.target = s.target ∧ t.hint = s.hint ∧ t.inLen = s.inLen ∧ t.inMem = s.inMem ∧
    t.queue = s.queue ∧ t.returned = s.returned ∧ t.freeCtr = s.freeCtr ∧ t.draw = s.draw := by
  simp [untouched]

/-- The operation, run in `s`, leaves them as they were, whether it goes on or has ended the encode. -/
def Flow.Keeps (s : State) (f : Flow) : Prop := untouched f.state = untouched s

theorem Flow.Keeps.andThen {s : State} {f : Flow} {k : State → Flow} (hf : f.Keeps s) (hk : ∀ u, (k u).Keeps u) :
    (f.andThen k).Keeps s := by
  cases f with
  | go u => exact (hk u).trans hf
  | ended u => exact hf

/-! #### The appends and the ends of an encode -/

section
variable (s : State)

theorem complete_keeps (z : Nat) : (complete z s).Keeps s := by
  rcases complete_cases z s with ⟨-, e⟩ | ⟨-, -, e⟩ | ⟨-, -, e⟩ <;> rw [e] <;> rfl

theorem chainAppend_keeps (v : Byte) : (chainAppend v s).Keeps s := by
  rcases chainAppend_cases v s with ⟨-, e⟩ | ⟨-, e⟩ <;> rw [e] <;> rfl

theorem asciiAppend_keeps (v : Byte) : (asciiAppend v s).Keeps s := by
  rcases asciiAppend_cases v s with ⟨-, e⟩ | ⟨-, e⟩ <;> rw [e] <;> rfl

theorem asciiAppendAll_keeps (cws : List Byte) : ∀ s, (asciiAppendAll cws s).Keeps s := by
  induction cws with
  | nil => exact fun _ => rfl
  | cons c rest ih => exact fun s => (asciiAppend_keeps s c).andThen ih

theorem padLoop_keeps (n : Nat) : ∀ (first : Bool) (s : State), (padLoop n first s).Keeps s := by
  induction n with
  | zero => exact fun _ _ => rfl
  | succ n ih => exact fun _ s => (asciiAppend_keeps s _).andThen (ih false)

theorem pad_complete_keeps (z : Nat) : ((pad z s).andThen (complete z)).Keeps s :=
  (padLoop_keeps _ _ s).andThen fun u => complete_keeps u z

theorem finishSized_keeps : (finishSized s).Keeps s := by
  rcases finishSized_cases s with ⟨-, e⟩ | ⟨z, -, e⟩ <;> rw [e]
  · rfl
  · exact pad_complete_keeps s z

/-! #### The EDIFACT packer, the Base256 header and the scheme change -/

theorem ediPack_keeps (e : BitVec 6) : (ediPack e s).Keeps s := by
  refine Flow.Keeps.andThen ?_ fun _ => rfl
  rcases ediPackBits_cases (s.chainValues.toNat % 4) (e.setWidth 8 <<< 2) s with
    ⟨-, eq⟩ | ⟨-, eq⟩ | ⟨-, eq⟩ | ⟨-, -, -, eq⟩ <;> rw [eq]
  · exact chainAppend_keeps s _
  · exact chainAppend_keeps (orLast _ s) _
  · exact chainAppend_keeps (orLast _ s) _
  · rfl

theorem rerandomize_untouched (d j n : Nat) : untouched (rerandomize d j n s) = untouched s := by
  rw [rerandomize_frame]; rfl

theorem b256ShiftUp_keeps (i : Nat) : (b256ShiftUp i s).Keeps s := by
  refine Flow.Keeps.andThen ?_ fun u => rerandomize_untouched u _ _ _
  rcases insertAt_cases i s with ⟨-, e⟩ | ⟨-, e⟩ <;> rw [e]
  · rfl
  · rw [copyUp_frame]; rfl

theorem b256ShiftDown_untouched (i : Nat) : untouched (b256ShiftDown i s) = untouched s := by
  refine (rerandomize_untouched _ _ _ _).trans ?_
  rw [removeAt_frame]; rfl

theorem b256WriteHeader_keeps (hidx hl lc : Nat) : (b256WriteHeader hidx hl lc s).Keeps s := by
  rcases b256WriteHeader_cases hidx hl lc s with ⟨-, -, e⟩ | ⟨-, -, -, e⟩ | ⟨-, -, e⟩ | ⟨-, -, e⟩ <;> rw [e] <;> rfl

theorem b256UpdateNormal_keeps : (b256UpdateNormal s).Keeps s := by
  simp only [b256UpdateNormal]
  split
  · exact (b256ShiftUp_keeps s _).andThen fun u =>
      b256WriteHeader_keeps { u with chainWords := u.chainWords + 1#16 } _ _ _
  · exact b256WriteHeader_keeps s _ _ _

theorem b256UpdatePerfect_keeps (z : Nat) : (b256UpdatePerfect z s).Keeps s := by
  have hdown := b256ShiftDown_untouched s (headerIndex s + 1)
  unfold b256UpdatePerfect
  split
  · rfl
  · dsimp only
    split <;> exact hdown

theorem exitSequence_keeps (mode : ChangeMode) : (exitSequence mode s).Keeps s := by
  have hctx : (ctxUnlatch s).Keeps s := by
    rcases ctxUnlatch_cases s with ⟨-, e⟩ | ⟨-, e⟩ <;> rw [e]
    · rfl
    · exact chainAppend_keeps s _
  unfold exitSequence
  split
  · exact hctx
  · exact hctx
  · exact hctx
  · exact ediPack_keeps s _
  · rfl
  · rfl
  · rfl

theorem latchInto_keeps (t : Scheme) : (latchInto t s).Keeps s := by
  obtain ⟨-, e⟩ | ⟨c, -, e⟩ := latchInto_cases t s <;> rw [e]
  · rfl
  · exact (asciiAppend_keeps s c).andThen fun _ => rfl

theorem placeholder_keeps (t : Scheme) : (placeholder t s).Keeps s := by
  unfold placeholder
  split
  · exact (chainAppend_keeps s _).andThen b256UpdateNormal_keeps
  · rfl

theorem changeScheme_keeps (t : Scheme) (mode : ChangeMode) : (changeScheme t mode s).Keeps s :=
  (exitSequence_keeps s mode).andThen fun u => (latchInto_keeps { u with scheme := .ascii } t).andThen fun v =>
    placeholder_keeps { v with chainWords := 0#16, chainValues := 0#16 } t

/-! #### The CTX packer -/

theorem ctxEmitPair_keeps (p : BitVec 16) : (ctxEmitPair p s).Keeps s :=
  (chainAppend_keeps s _).andThen fun u => (chainAppend_keeps u _).andThen fun _ => rfl

theorem ctxPush_keeps (v : CtxValue) : (ctxPush v s).Keeps s := by
  rcases ctxPush_cases v s with ⟨-, e⟩ | ⟨-, e⟩ <;> rw [e]
  · exact ctxEmitPair_keeps _ _
  · rfl

theorem ctxPushAll_keeps (vals : List CtxValue) : ∀ s, (ctxPushAll vals s).Keeps s := by
  induction vals with
  | nil => exact fun _ => rfl
  | cons v rest ih => exact fun s => (ctxPush_keeps s v).andThen ih

theorem ctxByte_keeps (k : CtxSet) : (ctxByte k s).Keeps s := by
  unfold ctxByte
  split
  · rfl
  · exact ctxPushAll_keeps _ _

theorem ctxLoop_keeps (k : CtxSet) (n : Nat) : ∀ s, (ctxLoop k n s).Keeps s := by
  induction n with
  | zero => exact fun _ => rfl
  | succ n ih =>
    refine fun s => (ctxByte_keeps s k).andThen fun u => ?_
    split
    · rfl
    · exact ih u

theorem ctxFinishInAscii_keeps (tail : List Byte) : (ctxFinishInAscii tail s).Keeps s := by
  unfold ctxFinishInAscii
  split
  · exact (changeScheme_keeps s _ _).andThen fun u => (asciiAppendAll_keeps tail u).andThen fun v =>
      complete_keeps { v with inNext := v.inLen } _
  · exact (changeScheme_keeps s _ _).andThen fun u => (asciiAppendAll_keeps tail u).andThen fun v =>
      finishSized_keeps { v with inNext := v.inLen }

theorem ctxPartial_keeps (k : CtxSet) : (ctxPartial k s).Keeps s := by
  unfold ctxPartial
  split
  · exact (ctxPush_keeps s _).andThen fun u => complete_keeps u _
  · exact ctxFinishInAscii_keeps (ctxRollback s) _

theorem ctxChunk_keeps (k : CtxSet) : (ctxChunk k s).Keeps s := by
  unfold ctxChunk
  split
  · rfl
  · refine (ctxLoop_keeps k _ s).andThen fun u => ?_
    split
    · exact ctxPartial_keeps u k
    · rfl

theorem ctxComplete_keeps : (ctxComplete s).Keeps s := by
  unfold ctxComplete
  split
  · rfl
  · split
    · rfl
    · split
      · exact complete_keeps s _
      · exact (changeScheme_keeps s _ _).andThen fun u => pad_complete_keeps u _

/-! #### The packers of the other schemes -/

theorem asciiChunk_keeps : (asciiChunk s).Keeps s := by
  unfold asciiChunk
  split
  · rfl
  · exact (asciiAppendAll_keeps _ s).andThen fun _ => rfl

theorem asciiComplete_keeps : (asciiComplete s).Keeps s := by
  unfold asciiComplete
  split
  · rfl
  · exact finishSized_keeps s

theorem ediEnd_keeps : (ediEnd s).Keeps s := by
  unfold ediEnd
  split
  · split
    · exact complete_keeps s _
    · exact (changeScheme_keeps s _ _).andThen fun u => (asciiAppendAll_keeps _ u).andThen fun v =>
        pad_complete_keeps { v with inNext := v.inLen } _
  · split
    · exact (changeScheme_keeps s _ _).andThen finishSized_keeps
    · rfl

theorem ediChunk_keeps : (ediChunk s).Keeps s := by
  simp only [ediChunk]
  split
  · rfl
  · split
    · exact (ediPack_keeps s _).andThen fun _ => rfl
    · rfl

theorem b256Chunk_keeps : (b256Chunk s).Keeps s := by
  unfold b256Chunk
  split
  · rfl
  · exact (chainAppend_keeps s _).andThen fun u =>
      b256UpdateNormal_keeps { u with chainValues := u.chainValues + 1#16, inNext := u.inNext + 1#16 }

theorem b256Complete_keeps : (b256Complete s).Keeps s := by
  unfold b256Complete
  split
  · rfl
  · split
    · exact (b256UpdatePerfect_keeps s _).andThen fun u => complete_keeps u _
    · split
      · rfl
      · exact (changeScheme_keeps s _ _).andThen fun u => pad_complete_keeps u _

/-! #### The iteration (R105 to R109) -/

theorem schemeStep_keeps (t : Scheme) : (schemeStep t s).Keeps s := by
  refine Flow.Keeps.andThen ?_ fun _ => rfl
  split
  · rfl
  · split
    · rfl
    · split
      · rfl
      · exact changeScheme_keeps s _ _

theorem preCheck_keeps : (preCheck s).Keeps s := by
  unfold preCheck
  split
  · exact ediEnd_keeps s
  · rfl

theorem chunk_keeps : (chunk s).Keeps s := by
  unfold chunk
  split
  · exact asciiChunk_keeps s
  · exact ctxChunk_keeps s .c40
  · exact ctxChunk_keeps s .text
  · exact ctxChunk_keeps s .x12
  · exact ediChunk_keeps s
  · exact b256Chunk_keeps s

theorem completeIfDone_keeps : (completeIfDone s).Keeps s := by
  unfold completeIfDone
  split
  · exact asciiComplete_keeps s
  · exact ctxComplete_keeps s
  · exact ctxComplete_keeps s
  · exact ctxComplete_keeps s
  · exact ediEnd_keeps s
  · exact b256Complete_keeps s

theorem iterate_keeps (t : Scheme) : (iterate t s).Keeps s :=
  (schemeStep_keeps s t).andThen fun u => (preCheck_keeps u).andThen fun v => (chunk_keeps v).andThen completeIfDone_keeps

/-- The encoder's turn writes nothing of the configuration, the input or the host, whatever the state. -/
theorem encoderTurn_untouched {t : State} (h : encoderTurn s = .next t) : untouched t = untouched s := by
  obtain ⟨-, e⟩ | ⟨goal, -, -, -, e⟩ | ⟨-, -, e⟩ := encoderTurn_cases s <;> rw [e] at h
  · cases h; rfl
  · cases h; exact iterate_keeps s goal
  · cases h

end

/-! ### The obligations -/

/-- Settles O18, by one frame lemma per operation of the encoder, each for every state. -/
theorem iterationKeepsConfigurationAndInput : Obligations.IterationKeepsConfigurationAndInput :=
  fun s _ ht => untouched_eq_iff.1 (encoderTurn_untouched s ht)

/-- Settles O9: the low bits of DATA are its remainder, and the write is guarded by the status. -/
theorem configurationWrites : Obligations.ConfigurationWrites := by
  intro d s
  rw [← dataScheme_eq, ← dataByte_eq, ← dataCount_eq]
  exact ⟨fun hs => ⟨next_write_idle hs _, next_write_idle hs _, next_write_idle hs _⟩,
    fun hs => ⟨next_write_busy hs _, next_write_busy hs _, next_write_busy hs _⟩⟩

/-- Settles O13: each read answers its register's word, written out as a number. -/
theorem readsOfStoredRegisters : Obligations.ReadsOfStoredRegisters := by
  intro i a s
  exact ⟨rfl, next_answer (field_zero _) s, next_answer (field_zero _) s, next_answer (field_zero _) s,
    next_answer (statusWord_eq s) s, fun hp => next_answer (capsWord_eq hp) s, fun hp => next_answer (nsizesWord_eq hp) s,
    fun hi => next_answer (inMemWord_below hi) s, fun hi => next_answer (inMemWord_above hi) s, rfl⟩

/-- Settles O14: once no encode runs, a settled read answers its register's word. -/
theorem readsOfResultRegisters : Obligations.ReadsOfResultRegisters := by
  intro i s hs
  refine ⟨next_answerSettled_idle hs _ (field_zero _), next_answerSettled_idle hs _ (field_zero _),
    next_answerSettled_idle hs _ (field_zero _), next_answerSettled_idle hs _ (field_zero _),
    next_answerSettled_idle hs _ (field_or_flag _ _), next_answerSettled_idle hs _ (field_or_field _ _ (by decide)),
    next_answerSettled_idle hs _ (field_or_field _ _ (by decide)), fun hlen hcap => ?_, execRdOutMem_above⟩
  exact (execRdOutMem_written hcap hlen).trans (next_answerSettled_idle hs _ (field_zero _))

/-- Settles O15: the reads R305 leaves open answer a free word under the mask of R26's defined bits. -/
theorem unspecifiedReads : Obligations.UnspecifiedReads := by
  intro i s
  refine ⟨fun hs row hrow => ?_, fun h hcap => ?_⟩
  · have hfree : exec row.1 s = .next (answerFree row.2 s) := by
      fin_cases hrow <;> exact congrArg Host.Outcome.next (answerSettled_busy hs _ _)
    obtain ⟨w, hw, e⟩ := answerFree_masked row.2 s
    exact ⟨w, hw, hfree.trans (congrArg Host.Outcome.next e)⟩
  · obtain ⟨w, hw, e⟩ := answerFree_byte s
    exact ⟨w, hw, (execRdOutMem_unspecified hcap h).trans (congrArg Host.Outcome.next e)⟩

end Sys2Proof.Machine
end

section
/-! PROOFS. An iteration does not read the host's side (spec R51, R54, R309): each operation of the encoder, run in a state with the
cursor or the host's fields put to other values, does what it does in the state itself, with those fields put so in the outcome.
The operations on the output and the CTX buffer do not read the input cursor either; that is what a change of both kinds, `Aside`, says. -/

namespace Sys2Proof.Machine

/-! ### The same outcome, with a change of fields -/

/-- The outcome with its state changed. -/
def Flow.map (g : State → State) : Flow → Flow
  | .go s => .go (g s)
  | .ended s => .ended (g s)

@[simp] theorem Flow.map_state (g : State → State) (f : Flow) : (f.map g).state = g f.state := by cases f <;> rfl

section
variable {g : State → State}

theorem Flow.andThen_map {f f' : Flow} {k k' : State → Flow} (hf : f' = f.map g) (hk : ∀ u, k' (g u) = (k u).map g) :
    f'.andThen k' = (f.andThen k).map g := by
  subst hf
  cases f with
  | go u => exact hk u
  | ended u => rfl

theorem Flow.ite_map {c : Prop} [Decidable c] {f f' h h' : Flow} (hf : f' = f.map g) (hh : h' = h.map g) :
    (if c then f' else h') = (if c then f else h).map g := by
  split
  · exact hf
  · exact hh

end

/-- A change of the fields that operations on the output never read: the input cursor (R12), and the host's schedule, the words
returned to it and the count of its unspecified reads. -/
structure Aside where
  cursor : Count → Count
  schedule : List Slot → List Slot
  words : List Word → List Word
  reads : Nat → Nat

/-- The state after that change. -/
def Aside.put (a : Aside) (s : State) : State :=
  { s with
    inNext := a.cursor s.inNext
    queue := a.schedule s.queue
    returned := a.words s.returned
    freeCtr := a.reads s.freeCtr }

/-- The change to the encoder's view. -/
def hostAside : Aside := ⟨id, fun _ => [], fun _ => [], fun _ => 0⟩

theorem hostAside_put (s : State) : hostAside.put s = encoderView s := rfl

/-! ### Operations on the output -/

section
variable (a : Aside) (s : State)

theorem append_put (v : Byte) : append v (a.put s) = (append v s).map a.put := Flow.ite_map rfl rfl

theorem chainAppend_put (v : Byte) : chainAppend v (a.put s) = (chainAppend v s).map a.put :=
  Flow.andThen_map (append_put a s v) fun _ => rfl

theorem asciiAppend_put (v : Byte) : asciiAppend v (a.put s) = (asciiAppend v s).map a.put :=
  Flow.andThen_map (chainAppend_put a s v) fun _ => rfl

theorem asciiAppendAll_put (cws : List Byte) : ∀ s, asciiAppendAll cws (a.put s) = (asciiAppendAll cws s).map a.put := by
  induction cws with
  | nil => exact fun _ => rfl
  | cons c rest ih => exact fun s => Flow.andThen_map (asciiAppend_put a s c) ih

theorem padLoop_put (n : Nat) : ∀ (first : Bool) (s : State), padLoop n first (a.put s) = (padLoop n first s).map a.put := by
  induction n with
  | zero => exact fun _ _ => rfl
  | succ n ih => exact fun _ s => Flow.andThen_map (asciiAppend_put a s _) (ih false)

theorem pad_put (z : Nat) : pad z (a.put s) = (pad z s).map a.put := padLoop_put a _ true s

theorem copyUp_put (i n : Nat) : ∀ s, copyUp i n (a.put s) = a.put (copyUp i n s) := by
  induction n with
  | zero => exact fun _ => rfl
  | succ n ih => exact fun s => ih (writeOut (i + n + 1) (readOut s (i + n)) s)

theorem copyDown_put (n : Nat) : ∀ i s, copyDown i n (a.put s) = a.put (copyDown i n s) := by
  induction n with
  | zero => exact fun _ _ => rfl
  | succ n ih => exact fun i s => ih (i + 1) (writeOut i (readOut s (i + 1)) s)

theorem rerandomize_put (d n : Nat) : ∀ j s, rerandomize d j n (a.put s) = a.put (rerandomize d j n s) := by
  induction n with
  | zero => exact fun _ _ => rfl
  | succ n ih => exact fun j s => ih (j + 1) (writeOut j (moveCodeword (readOut s j) (j + d) (j + 1)) s)

theorem insertAt_put (i : Nat) : insertAt i (a.put s) = (insertAt i s).map a.put :=
  Flow.ite_map rfl (congrArg (fun u : State => Flow.go { u with outLen := s.outLen + 1#16 }) (copyUp_put a i _ s))

theorem removeAt_put (i : Nat) : removeAt i (a.put s) = a.put (removeAt i s) :=
  congrArg (fun u : State => { u with outLen := s.outLen - 1#16 }) (copyDown_put a _ i s)

theorem ediPackBits_put (p : Nat) (ev : Byte) : ediPackBits p ev (a.put s) = (ediPackBits p ev s).map a.put :=
  Flow.ite_map (chainAppend_put a s _) <| Flow.ite_map (chainAppend_put a (orLast _ s) _) <|
    Flow.ite_map (chainAppend_put a (orLast _ s) _) rfl

theorem ediPack_put (e : BitVec 6) : ediPack e (a.put s) = (ediPack e s).map a.put :=
  Flow.andThen_map (ediPackBits_put a s _ _) fun _ => rfl

theorem b256ShiftUp_put (i : Nat) : b256ShiftUp i (a.put s) = (b256ShiftUp i s).map a.put :=
  Flow.andThen_map (insertAt_put a s i) fun u => congrArg Flow.go (rerandomize_put a 0 _ (i + 1) u)

theorem b256ShiftDown_put (i : Nat) : b256ShiftDown i (a.put s) = a.put (b256ShiftDown i s) := by
  simp only [b256ShiftDown, removeAt_put]
  exact rerandomize_put a 2 _ i _

theorem b256WriteHeader_put (hidx hl lc : Nat) :
    b256WriteHeader hidx hl lc (a.put s) = (b256WriteHeader hidx hl lc s).map a.put :=
  Flow.ite_map rfl <| Flow.ite_map (Flow.ite_map rfl rfl) rfl

theorem b256UpdateNormal_put : b256UpdateNormal (a.put s) = (b256UpdateNormal s).map a.put :=
  Flow.ite_map
    (Flow.andThen_map (b256ShiftUp_put a s _) fun u => b256WriteHeader_put a { u with chainWords := u.chainWords + 1#16 } _ _ _)
    (b256WriteHeader_put a s _ _ _)

theorem b256UpdatePerfect_put (z : Nat) : b256UpdatePerfect z (a.put s) = (b256UpdatePerfect z s).map a.put := by
  have hdown : b256ShiftDown (headerIndex (a.put s) + 1) (a.put s) = _ := b256ShiftDown_put a s _
  simp only [b256UpdatePerfect, hdown]
  exact Flow.ite_map rfl (Flow.ite_map rfl rfl)

theorem ctxUnlatch_put : ctxUnlatch (a.put s) = (ctxUnlatch s).map a.put := Flow.ite_map rfl (chainAppend_put a s _)

theorem exitSequence_put (mode : ChangeMode) : exitSequence mode (a.put s) = (exitSequence mode s).map a.put := by
  have hs : (a.put s).scheme = s.scheme := rfl
  unfold exitSequence
  rw [hs]
  split
  · exact ctxUnlatch_put a s
  · exact ctxUnlatch_put a s
  · exact ctxUnlatch_put a s
  · exact ediPack_put a s _
  · rfl
  · rfl
  · rfl

theorem latchInto_put (t : Scheme) : latchInto t (a.put s) = (latchInto t s).map a.put := by
  unfold latchInto
  split
  · rfl
  · exact Flow.andThen_map (asciiAppend_put a s _) fun _ => rfl

theorem placeholder_put (t : Scheme) : placeholder t (a.put s) = (placeholder t s).map a.put :=
  Flow.ite_map (Flow.andThen_map (chainAppend_put a s _) (b256UpdateNormal_put a)) rfl

theorem changeScheme_put (t : Scheme) (mode : ChangeMode) :
    changeScheme t mode (a.put s) = (changeScheme t mode s).map a.put :=
  Flow.andThen_map (exitSequence_put a s mode) fun u =>
    Flow.andThen_map (latchInto_put a { u with scheme := .ascii } t) fun v =>
      placeholder_put a { v with chainWords := 0#16, chainValues := 0#16 } t

theorem ctxEmitPair_put (p : BitVec 16) : ctxEmitPair p (a.put s) = (ctxEmitPair p s).map a.put :=
  Flow.andThen_map (chainAppend_put a s _) fun u => Flow.andThen_map (chainAppend_put a u _) fun _ => rfl

theorem ctxPack_put : ctxPack (a.put s) = (ctxPack s).map a.put := ctxEmitPair_put a s _

theorem ctxPush_put (v : CtxValue) : ctxPush v (a.put s) = (ctxPush v s).map a.put :=
  Flow.ite_map
    (ctxPack_put a { s with
      ctxBuf := s.ctxBuf.setIfInBounds s.ctxN.toNat v
      ctxN := s.ctxN + 1#3
      ctxLastn := s.ctxLastn + 1#3 })
    rfl

theorem ctxPushAll_put (vals : List CtxValue) : ∀ s, ctxPushAll vals (a.put s) = (ctxPushAll vals s).map a.put := by
  induction vals with
  | nil => exact fun _ => rfl
  | cons v rest ih => exact fun s => Flow.andThen_map (ctxPush_put a s v) ih

end

/-! ### Operations that read the input -/

section
variable (s : State)

theorem inputFrom_view (n : Nat) : ∀ i, inputFrom (encoderView s) i n = inputFrom s i n := by
  induction n with
  | zero => exact fun _ => rfl
  | succ n ih => exact fun i => congrArg (readIn s i :: ·) (ih (i + 1))

theorem remainingInput_view : remainingInput (encoderView s) = remainingInput s := inputFrom_view s _ _

theorem complete_view (z : Nat) : complete z (encoderView s) = (complete z s).map encoderView :=
  Flow.ite_map rfl (Flow.ite_map rfl rfl)

theorem pad_complete_view (z : Nat) :
    (pad z (encoderView s)).andThen (complete z) = ((pad z s).andThen (complete z)).map encoderView :=
  Flow.andThen_map (pad_put hostAside s z) fun u => complete_view u z

theorem finishSized_view : finishSized (encoderView s) = (finishSized s).map encoderView := by
  have hfind : findSize (encoderView s) (encoderView s).outLen.toNat = findSize s s.outLen.toNat := rfl
  unfold finishSized
  rw [hfind]
  split
  · rfl
  · exact pad_complete_view s _

theorem asciiChunk_view : asciiChunk (encoderView s) = (asciiChunk s).map encoderView :=
  Flow.ite_map rfl (Flow.andThen_map (asciiAppendAll_put hostAside _ s) fun _ => rfl)

theorem asciiComplete_view : asciiComplete (encoderView s) = (asciiComplete s).map encoderView :=
  Flow.ite_map rfl (finishSized_view s)

theorem b256Chunk_view : b256Chunk (encoderView s) = (b256Chunk s).map encoderView :=
  Flow.ite_map rfl <| Flow.andThen_map (chainAppend_put hostAside s _) fun u =>
    b256UpdateNormal_put hostAside { u with chainValues := u.chainValues + 1#16, inNext := u.inNext + 1#16 }

theorem b256Complete_view : b256Complete (encoderView s) = (b256Complete s).map encoderView := by
  have hexact : b256ExactSize (encoderView s) = b256ExactSize s := rfl
  have hfind : findSize (encoderView s) (encoderView s).outLen.toNat = findSize s s.outLen.toNat := rfl
  unfold b256Complete
  rw [hexact, hfind]
  refine Flow.ite_map rfl ?_
  split
  · exact Flow.andThen_map (b256UpdatePerfect_put hostAside s _) fun u => complete_view u _
  · split
    · rfl
    · exact Flow.andThen_map (changeScheme_put hostAside s _ _) fun u => pad_complete_view u _

theorem ctxByte_view (k : CtxSet) : ctxByte k (encoderView s) = (ctxByte k s).map encoderView := by
  have hread : readIn (encoderView s) (encoderView s).inNext.toNat = readIn s s.inNext.toNat := rfl
  unfold ctxByte
  rw [hread]
  split
  · rfl
  · exact ctxPushAll_put hostAside _ { s with inNext := s.inNext + 1#16, ctxLastn := 0#3 }

theorem ctxLoop_view (k : CtxSet) (n : Nat) : ∀ s, ctxLoop k n (encoderView s) = (ctxLoop k n s).map encoderView := by
  induction n with
  | zero => exact fun _ => rfl
  | succ n ih => exact fun s => Flow.andThen_map (ctxByte_view s k) fun u => Flow.ite_map rfl (ih u)

theorem ctxFinishInAscii_view (tail : List Byte) :
    ctxFinishInAscii tail (encoderView s) = (ctxFinishInAscii tail s).map encoderView := by
  have hsize : ctxImplicitSize tail (encoderView s) = ctxImplicitSize tail s := rfl
  unfold ctxFinishInAscii
  rw [hsize]
  split
  · exact Flow.andThen_map (changeScheme_put hostAside s _ _) fun u =>
      Flow.andThen_map (asciiAppendAll_put hostAside tail u) fun v => complete_view { v with inNext := v.inLen } _
  · exact Flow.andThen_map (changeScheme_put hostAside s _ _) fun u =>
      Flow.andThen_map (asciiAppendAll_put hostAside tail u) fun v => finishSized_view { v with inNext := v.inLen }

theorem ctxPartial_view (k : CtxSet) : ctxPartial k (encoderView s) = (ctxPartial k s).map encoderView := by
  have hsize : ctxShiftPadSize k (encoderView s) = ctxShiftPadSize k s := rfl
  have hback : ctxRollback (encoderView s) = encoderView (ctxRollback s) := rfl
  unfold ctxPartial
  rw [hsize, hback, remainingInput_view]
  split
  · exact Flow.andThen_map (ctxPush_put hostAside s _) fun u => complete_view u _
  · exact ctxFinishInAscii_view _ _

theorem ctxChunk_view (k : CtxSet) : ctxChunk k (encoderView s) = (ctxChunk k s).map encoderView :=
  Flow.ite_map rfl <| Flow.andThen_map (ctxLoop_view k _ s) fun u => Flow.ite_map (ctxPartial_view u k) rfl

theorem ctxComplete_view : ctxComplete (encoderView s) = (ctxComplete s).map encoderView := by
  have hfind : findSize (encoderView s) (encoderView s).outLen.toNat = findSize s s.outLen.toNat := rfl
  unfold ctxComplete
  rw [hfind]
  refine Flow.ite_map rfl ?_
  split
  · rfl
  · exact Flow.ite_map (complete_view s _) <|
      Flow.andThen_map (changeScheme_put hostAside s _ _) fun u => pad_complete_view u _

theorem ediProbeLoop_view (n : Nat) :
    ∀ j acc, ediProbeLoop (encoderView s) n j acc = ediProbeLoop s n j acc := by
  induction n with
  | zero => exact fun _ _ => rfl
  | succ n ih =>
    intro j acc
    have hunit : asciiUnitAt (encoderView s) j = asciiUnitAt s j := rfl
    simp only [ediProbeLoop, hunit, ih]
    rfl

theorem ediImplicitEnd_view : ediImplicitEnd (encoderView s) = ediImplicitEnd s := by
  have hprobe : ediProbe (encoderView s) = ediProbe s := ediProbeLoop_view s _ _ _
  unfold ediImplicitEnd
  rw [hprobe]
  rfl

theorem ediEnd_view : ediEnd (encoderView s) = (ediEnd s).map encoderView := by
  unfold ediEnd
  rw [ediImplicitEnd_view]
  split
  · refine Flow.ite_map (complete_view s _) <| Flow.andThen_map (changeScheme_put hostAside s _ _) fun u =>
      Flow.andThen_map (asciiAppendAll_put hostAside _ u) fun v => pad_complete_view { v with inNext := v.inLen } _
  · exact Flow.ite_map (Flow.andThen_map (changeScheme_put hostAside s _ _) finishSized_view) rfl

theorem ediChunk_view : ediChunk (encoderView s) = (ediChunk s).map encoderView :=
  Flow.ite_map rfl <| Flow.ite_map (Flow.andThen_map (ediPack_put hostAside s _) fun _ => rfl) rfl

/-! ### The iteration -/

theorem schemeStep_view (t : Scheme) : schemeStep t (encoderView s) = (schemeStep t s).map encoderView :=
  Flow.andThen_map
    (Flow.ite_map rfl <| Flow.ite_map rfl <| Flow.ite_map rfl <| changeScheme_put hostAside s _ _) fun _ => rfl

theorem preCheck_view : preCheck (encoderView s) = (preCheck s).map encoderView := Flow.ite_map (ediEnd_view s) rfl

theorem chunk_view : chunk (encoderView s) = (chunk s).map encoderView := by
  have hs : (encoderView s).scheme = s.scheme := rfl
  unfold chunk
  rw [hs]
  split
  · exact asciiChunk_view s
  · exact ctxChunk_view s .c40
  · exact ctxChunk_view s .text
  · exact ctxChunk_view s .x12
  · exact ediChunk_view s
  · exact b256Chunk_view s

theorem completeIfDone_view : completeIfDone (encoderView s) = (completeIfDone s).map encoderView := by
  have hs : (encoderView s).scheme = s.scheme := rfl
  unfold completeIfDone
  rw [hs]
  split
  · exact asciiComplete_view s
  · exact ctxComplete_view s
  · exact ctxComplete_view s
  · exact ctxComplete_view s
  · exact ediEnd_view s
  · exact b256Complete_view s

theorem iterate_view (t : Scheme) : iterate t (encoderView s) = (iterate t s).map encoderView :=
  Flow.andThen_map (schemeStep_view s t) fun u => Flow.andThen_map (preCheck_view u) fun v =>
    Flow.andThen_map (chunk_view v) completeIfDone_view

/-- What an outcome is to the encoder. -/
def viewOutcome : Outcome → Outcome
  | .next s => .next (encoderView s)
  | .fault f => .fault f
  | .refused r => .refused r

theorem viewOutcome_eq_next {o : Outcome} {v : State} (h : viewOutcome o = .next v) :
    ∃ u, o = .next u ∧ encoderView u = v := by
  cases o with
  | next u => exact ⟨u, rfl, Host.Outcome.next.inj h⟩
  | fault _ | refused _ => cases h

theorem viewOutcome_eq_fault {o : Outcome} {f : Fault} (h : viewOutcome o = .fault f) : o = .fault f := by
  cases o with
  | fault _ => exact h
  | next _ | refused _ => cases h

/-- The encoder's turn in the view of a state is the view of its turn in the state. -/
theorem encoderTurn_view : encoderTurn (encoderView s) = viewOutcome (encoderTurn s) := by
  have hs : (encoderView s).status = s.status := rfl
  have htarget : checkedTarget (encoderView s) = checkedTarget s := rfl
  unfold encoderTurn
  rw [hs, htarget]
  split
  · split
    · rw [iterate_view, Flow.map_state]; rfl
    · rfl
  · rfl

end

/-! ### The obligation -/

/-- Settles O19: the turn commutes with the encoder's view, one lemma per operation, so equal views have equal turns. -/
theorem iterationIgnoresTheHostSide : Obligations.IterationIgnoresTheHostSide := by
  intro s u hview
  have hturn : viewOutcome (encoderTurn u) = viewOutcome (encoderTurn s) := by
    rw [← encoderTurn_view, ← encoderTurn_view, hview]
  refine ⟨fun s' hs => ?_, fun f hs => ?_⟩ <;> rw [hs] at hturn
  · exact viewOutcome_eq_next hturn
  · exact viewOutcome_eq_fault hturn

end Sys2Proof.Machine
end

section
/-! PROOFS. The step and the host's accesses (spec R49, R51, R54, R65, R66, R78, R304): what each entry of the schedule runs, that a
read only answers, and that under the machine invariant every step goes on. -/

namespace Sys2Proof.Machine

section
variable {s : State} {rest : List Slot}

/-! ### What a step runs (R54) -/

theorem step_silent (h : s.queue = []) : step s = encoderTurn s := by rw [step, h]

theorem step_slot {slot : Slot} (h : s.queue = slot :: rest) : step s = runSlot slot { s with queue := rest } := by rw [step, h]

theorem step_bus {w : BitVec 49} (h : s.queue = .bus w :: rest) : step s = exec (decodeHost w) { s with queue := rest } :=
  (step_slot h).trans (runWord_host w _)

theorem runSlot_codeword {f : Format} (hf : f ≠ .host) (w : Raw) (s : State) : runSlot (.codeword f w) s = runWord f w s :=
  if_neg hf

theorem runWord_ok {f : Format} {w : Raw} {i : Instr} (h : decode f w = .ok i) (s : State) : runWord f w s = exec i s := by
  rw [runWord, h]

theorem runWord_error {f : Format} {w : Raw} {e : DecodeError} (h : decode f w = .error e) (s : State) :
    runWord f w s = .refused .reservedCodeword := by
  rw [runWord, h]

/-- A unit whose word has reserved bits is refused, in whatever format (R77). -/
theorem runSlot_reserved {f : Format} {w : Raw} {e : DecodeError} (h : decode f w = .error e) (s : State) :
    runSlot (.codeword f w) s = .refused .reservedCodeword := by
  by_cases hf : f = .host
  · exact if_pos hf
  · exact (runSlot_codeword hf w s).trans (runWord_error h s)

/-! ### Reads (R51) -/

/-- The machine has answered one word and is otherwise as it was. -/
def Answered (s t : State) : Prop := ∃ (w : Word) (n : Nat), t = { s with returned := w :: s.returned, freeCtr := n }

theorem answer_answered (w : Word) (s : State) : Answered s (answer w s) := ⟨w, s.freeCtr, rfl⟩

theorem answerFree_answered (m : Word) (s : State) : Answered s (answerFree m s) := ⟨_, _, rfl⟩

theorem answerSettled_answered (m w : Word) (s : State) : Answered s (answerSettled m w s) := by
  obtain ⟨-, e⟩ | ⟨-, e⟩ := answerSettled_cases m w s <;> rw [e]
  · exact answerFree_answered m s
  · exact answer_answered w s

/-- A read of any place of the address map only answers (R51, R65). -/
theorem exec_decodeRead (p : Place) (s : State) : ∃ t, exec (decodeRead p) s = .next t ∧ Answered s t := by
  cases p with
  | ctrl | target | hint | inLen | status | caps | nsizes | inMem _ | unmapped _ => exact ⟨_, rfl, answer_answered _ s⟩
  | reason | sizeIdx | outLen | dbgCursor | dbgScheme | dbgChain | dbgCtx => exact ⟨_, rfl, answerSettled_answered _ _ s⟩
  | outMem i =>
    change ∃ t, execRdOutMem i s = .next t ∧ _
    unfold execRdOutMem
    split
    · exact ⟨_, rfl, answer_answered _ s⟩
    · split
      · exact ⟨_, rfl, answerFree_answered _ s⟩
      · exact ⟨_, rfl, answerSettled_answered _ _ s⟩

theorem decodeHost_read {w : BitVec 49} (h : w.getLsbD 48 = false) :
    decodeHost w = decodeRead (addressMap (w.extractLsb' 32 16)) := if_neg (Bool.eq_false_iff.1 h)

/-! ### No step stops (R49, R78) -/

/-- A target below 6 names a scheme (R61). -/
theorem schemeOfCode_of_lt {c : BitVec 3} (h : c.toNat < 6) : (schemeOfCode c).isSome = true := by
  revert c
  decide

/-- A configuration that passed START_CHECKS names its target (R101). -/
theorem checkedTarget_of_checked (h : startCheck s = none) : (checkedTarget s).isSome = true := by
  have htarget : s.target.toNat < 6 := by
    unfold startCheck at h
    split_ifs at h with h6
    exact Nat.not_le.1 h6
  rw [checkedTarget, h]
  exact schemeOfCode_of_lt htarget

theorem encoderTurn_safe (h : MachineInv s) : ∃ t, encoderTurn s = .next t := by
  obtain ⟨-, -, -, -, -, hrun⟩ := h
  obtain ⟨-, e⟩ | ⟨t, -, -, -, e⟩ | ⟨hs, hnone, -⟩ := encoderTurn_cases s
  · exact ⟨s, e⟩
  · exact ⟨_, e⟩
  · obtain ⟨hcheck, -⟩ := hrun hs
    have := checkedTarget_of_checked hcheck
    rw [hnone] at this
    cases this

theorem runSlot_safe {slot : Slot} (hhost : slot.isHosts = true) (h : MachineInv s) : ∃ t, runSlot slot s = .next t := by
  cases slot with
  | bus w =>
    obtain ⟨t, e, -⟩ := exec_host_effect (decodeHost_format w) s
    exact ⟨t, (runWord_host w s).trans e⟩
  | quiet => exact encoderTurn_safe h
  | reset => exact ⟨_, rfl⟩
  | codeword f w => cases hhost

end

/-! ### The obligations -/

/-- Settles O5, by the entries of the schedule. -/
theorem stepRunsTheDecodedInstruction : Obligations.StepRunsTheDecodedInstruction :=
  ⟨fun _ _ _ _ hq hd => (step_slot hq).trans (runWord_ok hd _),
    fun _ _ w _ _ hq hf hd => (step_slot hq).trans ((runSlot_codeword hf w _).trans (runWord_ok hd _)),
    fun _ _ _ _ _ hq hd => (step_slot hq).trans (runSlot_reserved hd _),
    fun _ _ _ hq => step_slot hq, fun _ _ hq => step_slot hq, fun _ _ hq => step_slot hq, fun _ hq => step_silent hq⟩

/-- Settles O10: the write is guarded by the status and by the depth of the RAM. -/
theorem inputByteWrites : Obligations.InputByteWrites := by
  intro i d s
  refine ⟨fun hs hi => ?_, fun h => ?_⟩
  · refine ⟨writeIn i.toNat (dataByte d) s, ?_, rfl, ?_, fun a ha => readIn_writeIn_other ha _ s⟩
    · exact (next_write_idle hs _).trans (congrArg Host.Outcome.next (if_pos hi))
    · rw [readIn_writeIn_same, dataByte_eq]
  · by_cases hs : s.status = .encoding
    · exact next_write_busy hs _
    · exact (next_write_idle hs _).trans (congrArg Host.Outcome.next (if_neg (Nat.not_lt.2 (h.resolve_left hs))))

/-- Settles O11: each of these rows is the ignored write of R49. -/
theorem ignoredWrites : Obligations.IgnoredWrites :=
  fun _ _ _ _ => ⟨rfl, rfl, rfl, rfl, rfl, rfl, rfl, rfl, rfl, rfl, rfl, rfl⟩

/-- Settles O16: a bus word with `W = 0` decodes to the read of its place, and every such read only answers. -/
theorem readsHaveNoSideEffects : Obligations.ReadsHaveNoSideEffects := by
  intro s w rest hq hread
  obtain ⟨t, e, v, n, rfl⟩ := exec_decodeRead (addressMap (w.extractLsb' 32 16)) { s with queue := rest }
  exact ⟨v, n, by rw [step_bus hq, decodeHost_read hread, e]⟩

/-- Settles O23: the invariant leaves no codeword unit in the schedule and no unchecked configuration in an encode. -/
theorem noStepStops : Obligations.NoStepStops := by
  intro s h
  cases hq : s.queue with
  | nil =>
    obtain ⟨t, e⟩ := encoderTurn_safe h
    exact ⟨t, (step_silent hq).trans e⟩
  | cons slot rest =>
    obtain ⟨hhost, hrest⟩ := machineInv_of_queue h hq
    obtain ⟨t, e⟩ := runSlot_safe hhost hrest
    exact ⟨t, (step_slot hq).trans e⟩

end Sys2Proof.Machine
end

section
/-! PROOFS. The units that append codewords (spec R43, R110, R115 to R119, R131 to R137, R160): what each append does with room and
without, what a unit of a running encode runs, and from these the ASCII rows, the latch rows, the CTX unlatch and the triplet. -/

namespace Sys2Proof.Machine

/-- The state an overflow of `OUT` leaves: the outcome registers alone are written (R43, R110). -/
abbrev overflowed (s : State) : State := { s with status := .invalid, reason := .outOverflow }

section
variable {s : State}

/-! ### Appends with and without room (R7, R43, R135) -/

theorem chainAppend_room (h : s.outLen.toNat ≠ s.params.outCap) (v : Byte) : chainAppend v s =
    .go { writeOut s.outLen.toNat v s with outLen := s.outLen + 1#16, chainWords := s.chainWords + 1#16 } :=
  (chainAppend_cases v s).elim (fun ⟨hfull, _⟩ => absurd hfull h) fun ⟨_, e⟩ => e

theorem chainAppend_full (h : s.outLen.toNat = s.params.outCap) (v : Byte) : chainAppend v s = .ended (overflowed s) :=
  (chainAppend_cases v s).elim (fun ⟨_, e⟩ => e) fun ⟨hroom, _⟩ => absurd h hroom

theorem asciiAppend_room (h : s.outLen.toNat ≠ s.params.outCap) (v : Byte) : asciiAppend v s =
    .go { writeOut s.outLen.toNat v s with
      outLen := s.outLen + 1#16
      chainWords := s.chainWords + 1#16
      chainValues := s.chainValues + 1#16 } := by
  rw [asciiAppend, chainAppend_room h]; rfl

theorem asciiAppend_full (h : s.outLen.toNat = s.params.outCap) (v : Byte) : asciiAppend v s = .ended (overflowed s) := by
  rw [asciiAppend, chainAppend_full h]; rfl

theorem asciiAppendAll_full {v : Byte} {rest : List Byte} (h : s.outLen.toNat = s.params.outCap) :
    asciiAppendAll (v :: rest) s = .ended (overflowed s) := by
  rw [asciiAppendAll, asciiAppend_full h]; rfl

/-- More values counted for the same codewords. -/
theorem appended_count {t : State} {cws : List Byte} {j : Nat} (h : appended s t cws j) (k : Nat) :
    appended s { t with chainValues := t.chainValues + BitVec.ofNat 16 k } cws (j + k) := by
  obtain ⟨e, hnew, hold⟩ := h
  refine ⟨?_, hnew, hold⟩
  rw [e]
  simp [BitVec.ofNat_add, BitVec.add_assoc]

/-! ### Units of a running encode (R111) -/

theorem emitUnit_runs {here : State → Bool} (hs : s.status = .encoding) (hh : here s = true) (op : State → Flow) :
    emitUnit here op s = .next (op s).state := by
  rw [emitUnit_next, if_pos ⟨hs, hh⟩]

theorem emitUnit_elsewhere {here : State → Bool} (hh : here s = false) (op : State → Flow) : emitUnit here op s = .next s := by
  rw [emitUnit_next, if_neg fun h => by rw [hh] at h; cases h.2]

theorem inScheme_iff {t : Scheme} : inScheme t s = true ↔ s.scheme = t := beq_iff_eq

theorem inCtx_of_ctx (h : s.scheme = .c40 ∨ s.scheme = .text ∨ s.scheme = .x12) : inCtx s = true := by
  unfold inCtx
  rcases h with h | h | h <;> rw [h] <;> rfl

/-- A row that is one `AsciiAppend`, with room. -/
theorem exec_asciiAppend_room {i : Instr} {c : Byte} (hrun : exec i s = .next (asciiAppend c s).state)
    (h : s.outLen.toNat < s.params.outCap) : ∃ t, exec i s = .next t ∧ appended s t [c] 1 := by
  obtain ⟨t, e, ht⟩ := asciiAppend_appended c (Nat.ne_of_lt h)
  exact ⟨t, by rw [hrun, e, state_go], ht⟩

theorem exec_asciiAppend_full {i : Instr} {c : Byte} (hrun : exec i s = .next (asciiAppend c s).state)
    (h : s.outLen.toNat = s.params.outCap) : exec i s = .next (overflowed s) := by
  rw [hrun, asciiAppend_full h, state_ended]

/-! ### The Base256 header where it keeps its length (R227, R228) -/

theorem b256UpdateNormal_keeps_length (h : ¬ (headerLength s = 1 ∧ 249 < s.chainValues.toNat)) :
    b256UpdateNormal s = b256WriteHeader (headerIndex s) (headerLength s) s.chainValues.toNat s := if_neg h

theorem b256UpdateNormal_short {i v : Nat} (hi : headerIndex s = i) (hl : headerLength s = 1) (hv : s.chainValues.toNat = v)
    (h : v ≤ 249) : b256UpdateNormal s = .go (writeOut i (rand255 (BitVec.ofNat 8 v) (i + 1)) s) := by
  subst hi hv
  rw [b256UpdateNormal_keeps_length (by omega)]
  exact if_pos ⟨hl, h⟩

/-! ### The scheme change (R115 to R119) -/

/-- The change to Ascii is the exit sequence and a new chain: Ascii has no latch and no placeholder. -/
theorem changeScheme_ascii (mode : ChangeMode) (s : State) : changeScheme .ascii mode s =
    (exitSequence mode s).andThen fun u => .go { u with scheme := .ascii, chainWords := 0#16, chainValues := 0#16 } := rfl

theorem placeholder_other {t : Scheme} (ht : t ≠ .base256) (s : State) : placeholder t s = .go s := if_neg ht

theorem latchInto_some {t : Scheme} {c : Byte} (hc : latchCodeword t = some c) (s : State) :
    latchInto t s = (asciiAppend c s).andThen fun u => .go { u with scheme := t } := by
  rw [latchInto, hc]

/-- From Ascii, the scheme change begins with the latch. -/
theorem changeScheme_from_ascii {t : Scheme} {c : Byte} (hs : s.scheme = .ascii) (hc : latchCodeword t = some c) :
    changeScheme t .explicit s = (asciiAppend c s).andThen fun u =>
      placeholder t { u with scheme := t, chainWords := 0#16, chainValues := 0#16 } := by
  have hexit : exitSequence .explicit s = .go s := by simp [exitSequence, hs]
  have hself : { s with scheme := .ascii } = s := by rw [← hs]
  rw [changeScheme, hexit, andThen_go, hself, latchInto_some hc]
  cases asciiAppend c s <;> rfl

/-- The state with the latch `c` of `t` appended and a new chain begun (R115, R118). -/
def entered (t : Scheme) (c : Byte) (s : State) : State :=
  { writeOut s.outLen.toNat c s with
    outLen := s.outLen + 1#16
    scheme := t
    chainWords := 0#16
    chainValues := 0#16 }

theorem changeScheme_latch_room {t : Scheme} {c : Byte} (hs : s.scheme = .ascii) (hc : latchCodeword t = some c)
    (h : s.outLen.toNat < s.params.outCap) : changeScheme t .explicit s = placeholder t (entered t c s) := by
  rw [changeScheme_from_ascii hs hc, asciiAppend_room (Nat.ne_of_lt h)]; rfl

theorem changeScheme_latch_full {t : Scheme} {c : Byte} (hs : s.scheme = .ascii) (hc : latchCodeword t = some c)
    (h : s.outLen.toNat = s.params.outCap) : changeScheme t .explicit s = .ended (overflowed s) := by
  rw [changeScheme_from_ascii hs hc, asciiAppend_full h]; rfl

/-- The change to Base256 goes on with the placeholder, the one-byte header of no payload (R119). -/
theorem changeScheme_base256_room (hs : s.scheme = .ascii) (hlen : s.outLen.toNat + 2 < 65536)
    (h : s.outLen.toNat + 2 ≤ s.params.outCap) :
    ∃ m, changeScheme .base256 .explicit s = .go { s with
        outMem := m
        outLen := s.outLen + 2#16
        scheme := .base256
        chainWords := 1#16
        chainValues := 0#16 } ∧
      ∀ a, readOut { s with outMem := m } a = if a = s.outLen.toNat then 231#8
        else if a = s.outLen.toNat + 1 then rand255 0#8 (s.outLen.toNat + 2) else readOut s a := by
  have hone : (entered .base256 231#8 s).outLen.toNat = s.outLen.toNat + 1 := count_add (by omega)
  have htwo : s.outLen + 1#16 + 1#16 = s.outLen + 2#16 := BitVec.add_assoc ..
  have hlen2 : (s.outLen + 2#16).toNat = s.outLen.toNat + 2 := count_add hlen
  refine ⟨memSet (s.outLen.toNat + 1) (rand255 0#8 (s.outLen.toNat + 2))
    (memSet (s.outLen.toNat + 1) 0#8 (memSet s.outLen.toNat 231#8 s.outMem)), ?_, fun a => ?_⟩
  · rw [changeScheme_latch_room hs rfl (by omega), placeholder, if_pos rfl,
      chainAppend_room (by rw [hone]; exact Nat.ne_of_lt h), andThen_go, hone]
    refine (b256UpdateNormal_short (i := s.outLen.toNat + 1) (v := 0) ?_ rfl rfl (Nat.zero_le _)).trans ?_
    · simp [headerIndex, entered, htwo, hlen2]
    · simp only [entered, htwo]
      rfl
  · change readOut (writeOut _ _ (writeOut _ _ (writeOut _ _ s))) a = _
    simp only [readOut_writeOut]
    split_ifs with h1 h0
    · omega
    · rfl
    · rfl
    · rfl

/-- The explicit change out of a CTX scheme, at a triplet boundary with room: the unlatch 254 and a new chain (R115, R116). -/
theorem changeScheme_ctx_room (hs : s.scheme = .c40 ∨ s.scheme = .text ∨ s.scheme = .x12) (hv : s.chainValues.toNat % 3 = 0)
    (h : s.outLen.toNat ≠ s.params.outCap) : changeScheme .ascii .explicit s = .go (entered .ascii 254#8 s) := by
  rw [changeScheme_ascii, exitSequence_ctx (inCtx_of_ctx hs), ctxUnlatch, if_neg (not_not.2 hv), chainAppend_room h]; rfl

theorem changeScheme_ctx_full (hs : s.scheme = .c40 ∨ s.scheme = .text ∨ s.scheme = .x12) (hv : s.chainValues.toNat % 3 = 0)
    (h : s.outLen.toNat = s.params.outCap) : changeScheme .ascii .explicit s = .ended (overflowed s) := by
  rw [changeScheme_ascii, exitSequence_ctx (inCtx_of_ctx hs), ctxUnlatch, if_neg (not_not.2 hv), chainAppend_full h]; rfl

theorem changeScheme_ctx_offBoundary (hs : s.scheme = .c40 ∨ s.scheme = .text ∨ s.scheme = .x12)
    (hv : s.chainValues.toNat % 3 ≠ 0) :
    changeScheme .ascii .explicit s = .ended { s with status := .invalid, reason := .ctxUnlatchBoundary } := by
  rw [changeScheme_ascii, exitSequence_ctx (inCtx_of_ctx hs), ctxUnlatch, if_pos hv]; rfl

/-! ### The triplet (R160) -/

theorem ctxEmitPair_room {p : BitVec 16} (hcap : s.params.outCap < 65536) (h : s.outLen.toNat + 2 ≤ s.params.outCap) :
    ∃ t, appended s t [p.extractLsb' 8 8, p.extractLsb' 0 8] 3 ∧
      ctxEmitPair p s = .go { t with ctxN := 0#3, ctxLastn := 0#3 } := by
  obtain ⟨t, et, ht⟩ := chainAppend_appended (s := s) (p.extractLsb' 8 8) (by omega)
  have hlen := appended_outLen ht (by simp; omega)
  have hparams : t.params = s.params := by rw [ht.1]
  obtain ⟨u, eu, hu⟩ := chainAppend_appended (s := t) (p.extractLsb' 0 8) (by rw [hlen, hparams]; simp; omega)
  refine ⟨_, appended_count (appended_trans ht hu (by simp; omega)) 3, ?_⟩
  rw [ctxEmitPair, et, andThen_go, eu]; rfl

/-- With room for one codeword the pair overflows after its first (R43, R110). -/
theorem ctxEmitPair_half {p : BitVec 16} (hlen : s.outLen.toNat + 1 < 65536) (h : s.outLen.toNat + 1 = s.params.outCap) :
    ctxEmitPair p s = .ended (overflowed { writeOut s.outLen.toNat (p.extractLsb' 8 8) s with
      outLen := s.outLen + 1#16
      chainWords := s.chainWords + 1#16 }) := by
  rw [ctxEmitPair, chainAppend_room (by omega), andThen_go, chainAppend_full ((count_add hlen).trans h)]; rfl

theorem ctxEmitPair_full {p : BitVec 16} (h : s.outLen.toNat = s.params.outCap) :
    ctxEmitPair p s = .ended (overflowed s) := by
  rw [ctxEmitPair, chainAppend_full h]; rfl

end

/-- The high byte of a pair, as a number (R70). -/
theorem pair_high (p : BitVec 16) : p.extractLsb' 8 8 = BitVec.ofNat 8 (p.toNat / 256) :=
  BitVec.eq_of_toNat_eq (by simp [Nat.shiftRight_eq_div_pow])

/-- The low byte of a pair, as a number (R70). -/
theorem pair_low (p : BitVec 16) : p.extractLsb' 0 8 = BitVec.ofNat 8 (p.toNat % 256) := extractLsb'_zero_eq_ofNat p 8

/-! ### The obligations -/

/-- Settles O32: a row is one `AsciiAppend` of its codeword, the upper shift two. -/
theorem asciiRowsAppendTheirCodewords : Obligations.AsciiRowsAppendTheirCodewords := by
  intro c s hp hs hscheme
  have hcap := outCap_le hp
  have hin : inScheme .ascii s = true := inScheme_iff.2 hscheme
  have hchar : exec (.cwAsciiChar c) s = .next (asciiAppend c s).state := emitUnit_runs hs hin _
  have hpair : exec (.cwDigitPair c) s = .next (asciiAppend c s).state := emitUnit_runs hs hin _
  have hfirst : exec .cwPadFirst s = .next (asciiAppend 129#8 s).state := emitUnit_runs hs hin _
  have hshift : exec (.cwUpperShift c) s = .next (asciiAppendAll [235#8, c] s).state := emitUnit_runs hs hin _
  have hpad : exec (.padRandom c) s = emitUnit
    (fun s => inScheme .ascii s && c == rand253 129#8 (s.outLen.toNat + 1)) (asciiAppend c) s := rfl
  have hrandom : c = rand253 129#8 (s.outLen.toNat + 1) → exec (.padRandom c) s = .next (asciiAppend c s).state :=
    fun hc => by rw [hpad, emitUnit_runs hs (by simp [hin, ← hc])]
  refine ⟨fun h => ?_, fun h => ?_, fun h => ?_, fun h => ?_, fun h => ?_⟩
  · exact ⟨exec_asciiAppend_room hchar h, exec_asciiAppend_room hpair h, exec_asciiAppend_room hfirst h,
      fun hc => exec_asciiAppend_room (hrandom hc) h⟩
  · rw [hpad, emitUnit_elsewhere (by simp [h])]
  · obtain ⟨t, e, ht⟩ := asciiAppendAll_appended (s := s) (cws := [235#8, c]) (by omega) h
    exact ⟨t, by rw [hshift, e, state_go], ht⟩
  · exact ⟨exec_asciiAppend_full hchar h, exec_asciiAppend_full hpair h, exec_asciiAppend_full hfirst h,
      by rw [hshift, asciiAppendAll_full h, state_ended], fun hc => exec_asciiAppend_full (hrandom hc) h⟩
  · rw [hshift, asciiAppendAll, asciiAppend_room (by omega), andThen_go, asciiAppendAll_full ((count_add (by omega)).trans h)]
    exact ⟨_, rfl, rfl, readOut_writeOut_same _ 235#8 s, fun a ha => readOut_writeOut_other ha 235#8 s⟩

/-- Settles O28: a latch row is the scheme change from Ascii; Base256's goes on with the placeholder, an append of its own. -/
theorem latchRowsEnterTheirScheme : Obligations.LatchRowsEnterTheirScheme := by
  intro s hp hs hscheme
  have hcap := outCap_le hp
  have hin : inScheme .ascii s = true := inScheme_iff.2 hscheme
  have hb256 : exec .cwLatchBase256 s = .next (changeScheme .base256 .explicit s).state := emitUnit_runs hs hin _
  refine ⟨fun h row hrow => ?_, fun h => ?_, fun h i hi => ?_, fun h => ?_⟩
  · have hrun : exec row.1 s = .next (changeScheme row.2.1 .explicit s).state := by
      fin_cases hrow <;> exact emitUnit_runs hs hin _
    obtain ⟨hcode, hother⟩ : latchCodeword row.2.1 = some row.2.2 ∧ row.2.1 ≠ .base256 := by fin_cases hrow <;> decide
    rw [hrun, changeScheme_latch_room hscheme hcode h, placeholder_other hother]
    exact ⟨_, rfl, rfl, readOut_writeOut_same _ _ s, fun a ha => readOut_writeOut_other ha _ s⟩
  · have hcw : rand255 0#8 (s.outLen.toNat + 2) = BitVec.ofNat 8 ((149 * (s.outLen.toNat + 2)) % 255 + 1) :=
      BitVec.eq_of_toNat_eq (by simp [rand255])
    obtain ⟨m, e, hm⟩ := changeScheme_base256_room hscheme (by omega) h
    rw [hb256, e, ← hcw]
    refine ⟨_, rfl, rfl, ?_, ?_, fun a h0 h1 => ?_⟩
    · exact (hm _).trans (if_pos rfl)
    · exact (hm _).trans (by simp)
    · exact (hm a).trans (by simp [h0, h1])
  · fin_cases hi <;> exact (emitUnit_runs hs hin _).trans (by rw [changeScheme_latch_full hscheme rfl h, state_ended])
  · have hlen : (entered .base256 231#8 s).outLen.toNat = s.outLen.toNat + 1 := count_add (by omega)
    rw [hb256, changeScheme_latch_room hscheme rfl (by omega), placeholder, if_pos rfl,
      chainAppend_full (by rw [hlen]; exact h)]
    exact ⟨_, rfl, rfl, readOut_writeOut_same _ _ s, fun a ha => readOut_writeOut_other ha _ s⟩

/-- Settles O29: the row is the explicit change to Ascii, whose exit sequence is the CTX unlatch. -/
theorem ctxUnlatchRow : Obligations.CtxUnlatchRow := by
  intro s hs hscheme
  have hrun : exec .ctxUnlatch s = .next (changeScheme .ascii .explicit s).state := emitUnit_runs hs (inCtx_of_ctx hscheme) _
  rw [hrun]
  refine ⟨fun hv h => ?_, fun hv => ?_, fun hv h => ?_⟩
  · rw [changeScheme_ctx_room hscheme hv (Nat.ne_of_lt h)]
    exact ⟨_, rfl, rfl, readOut_writeOut_same _ _ s, fun a ha => readOut_writeOut_other ha _ s⟩
  · rw [changeScheme_ctx_offBoundary hscheme hv, state_ended]
  · rw [changeScheme_ctx_full hscheme hv h, state_ended]

/-- Settles O41: the two codewords of the pair are two appends. -/
theorem ctxTripletRow : Obligations.CtxTripletRow := by
  intro p s hp hs hscheme
  have hcap := outCap_le hp
  have hrun : exec (.ctx16Triplet p) s = .next (ctxEmitPair p s).state := emitUnit_runs hs (inCtx_of_ctx hscheme) _
  rw [hrun, ← pair_high, ← pair_low]
  refine ⟨fun h => ?_, fun h => ?_, fun h => ?_⟩
  · obtain ⟨t, ht, e⟩ := ctxEmitPair_room (p := p) (by omega) h
    exact ⟨t, ht, by rw [e, state_go]⟩
  · rw [ctxEmitPair_half (by omega) h]
    exact ⟨_, rfl, rfl, readOut_writeOut_same _ _ s, fun a ha => readOut_writeOut_other ha _ s⟩
  · rw [ctxEmitPair_full h, state_ended]

end Sys2Proof.Machine
end

section
/-! PROOFS. The EDIFACT rows (spec R71, R117, R192, R193): one packed value as the bits it sets in the codeword in flight and the
codeword it begins, at each phase; from it the unlatch row and the four-value row. -/

namespace Sys2Proof.Machine

/-! ### The bits of one value -/

/-- The bits of the shifted value `ev` that complete the codeword in flight at phase `p` (R192). -/
def ediLead (p : Nat) (ev : Byte) : Byte :=
  if p = 0 then 0#8 else if p = 1 then ev >>> 6 else if p = 2 then ev >>> 4 else ev >>> 2

/-- The codeword that the shifted value `ev` begins at phase `p`, below 3 (R192). -/
def ediTrail (p : Nat) (ev : Byte) : Byte := if p = 0 then ev else if p = 1 then ev <<< 2 else ev <<< 4

/-- The codeword of a quad that the value `e` begins at phase `p` and the value `f` completes. -/
def quadCodeword (p : Nat) (e f : BitVec 6) : Byte :=
  ediTrail p (e.setWidth 8 <<< 2) ||| ediLead (p + 1) (f.setWidth 8 <<< 2)

/-- A codeword of a quad: the value that begins it and the next value's leading bits, which share no bit (R71, R192). -/
theorem quadCodeword_toNat {p : Nat} (hp : p < 3) (e f : BitVec 6) :
    (quadCodeword p e f).toNat = 4 ^ (p + 1) * (e.toNat % 4 ^ (3 - p)) + f.toNat / 4 ^ (2 - p) := by
  have he := e.isLt
  have hf := f.isLt
  have htrail : (ediTrail p (e.setWidth 8 <<< 2)).toNat = 2 ^ (2 * (p + 1)) * (e.toNat % 4 ^ (3 - p)) := by
    interval_cases p <;> simp [ediTrail, Nat.shiftLeft_eq] <;> omega
  have hlead : (ediLead (p + 1) (f.setWidth 8 <<< 2)).toNat = f.toNat / 4 ^ (2 - p) := by
    interval_cases p <;> simp [ediLead, Nat.shiftLeft_eq, Nat.shiftRight_eq_div_pow] <;> omega
  have hlt : f.toNat / 4 ^ (2 - p) < 2 ^ (2 * (p + 1)) := by interval_cases p <;> omega
  rw [quadCodeword, BitVec.toNat_or, htrail, hlead, ← Nat.two_pow_add_eq_or_of_lt hlt, Nat.pow_mul]

section
variable {s : State}

/-! ### Packing one value (R192) -/

/-- What a phase below 3 does with room: bits set in the codeword in flight, and one codeword more. -/
theorem ediPack_room (e : BitVec 6) (hp : s.chainValues.toNat % 4 ≠ 3) (h : s.outLen.toNat ≠ s.params.outCap) :
    ∃ m, ediPack e s = .go { s with
        outMem := m
        outLen := s.outLen + 1#16
        chainWords := s.chainWords + 1#16
        chainValues := s.chainValues + 1#16 } ∧
      ∀ a, readOut { s with outMem := m } a =
        if a = s.outLen.toNat then ediTrail (s.chainValues.toNat % 4) (e.setWidth 8 <<< 2)
        else if a = s.outLen.toNat - 1 then readOut s a ||| ediLead (s.chainValues.toNat % 4) (e.setWidth 8 <<< 2)
        else readOut s a := by
  have hset : ∀ (v w : Byte) (a : Nat), readOut { s with outMem := memSet s.outLen.toNat w (orLast v s).outMem } a =
      if a = s.outLen.toNat then w else if a = s.outLen.toNat - 1 then readOut s a ||| v else readOut s a := fun v w a => by
    change readOut (writeOut _ w (orLast v s)) a = _
    rw [readOut_writeOut, readOut_orLast]
  rcases ediPackBits_cases (s.chainValues.toNat % 4) (e.setWidth 8 <<< 2) s with
    ⟨hp', eq⟩ | ⟨hp', eq⟩ | ⟨hp', eq⟩ | ⟨h0, h1, h2, -⟩
  · refine ⟨memSet s.outLen.toNat (e.setWidth 8 <<< 2) s.outMem, ?_, fun a => ?_⟩
    · rw [ediPack, eq, chainAppend_room h]; rfl
    · change readOut (writeOut _ _ s) a = _
      rw [readOut_writeOut, hp']
      simp [ediTrail, ediLead]
  · refine ⟨_, ?_, by rw [hp']; exact hset _ _⟩
    rw [ediPack, eq, chainAppend_room (s := orLast _ s) h]; rfl
  · refine ⟨_, ?_, by rw [hp']; exact hset _ _⟩
    rw [ediPack, eq, chainAppend_room (s := orLast _ s) h]; rfl
  · omega

/-- Without room the bits set in the codeword in flight stay (R43, R110). -/
theorem ediPack_full (e : BitVec 6) (hp : s.chainValues.toNat % 4 ≠ 3) (h : s.outLen.toNat = s.params.outCap) :
    ∃ m, ediPack e s = .ended (overflowed { s with outMem := m }) ∧
      ∀ a, readOut { s with outMem := m } a = if a = s.outLen.toNat - 1
        then readOut s a ||| ediLead (s.chainValues.toNat % 4) (e.setWidth 8 <<< 2) else readOut s a := by
  rcases ediPackBits_cases (s.chainValues.toNat % 4) (e.setWidth 8 <<< 2) s with
    ⟨hp', eq⟩ | ⟨hp', eq⟩ | ⟨hp', eq⟩ | ⟨h0, h1, h2, -⟩
  · refine ⟨s.outMem, ?_, fun a => ?_⟩
    · rw [ediPack, eq, chainAppend_full h]; rfl
    · simp [hp', ediLead]
  · refine ⟨_, ?_, by rw [hp']; exact readOut_orLast _ s⟩
    rw [ediPack, eq, chainAppend_full (s := orLast _ s) h]; rfl
  · refine ⟨_, ?_, by rw [hp']; exact readOut_orLast _ s⟩
    rw [ediPack, eq, chainAppend_full (s := orLast _ s) h]; rfl
  · omega

/-- Phase 3 completes the codeword in flight and appends none. -/
theorem ediPack_fill (e : BitVec 6) (hp : s.chainValues.toNat % 4 = 3) :
    ∃ m, ediPack e s = .go { s with outMem := m, chainValues := s.chainValues + 1#16 } ∧
      ∀ a, readOut { s with outMem := m } a = if a = s.outLen.toNat - 1
        then readOut s a ||| ediLead 3 (e.setWidth 8 <<< 2) else readOut s a :=
  ⟨(orLast _ s).outMem, by rw [ediPack, hp]; rfl, readOut_orLast _ s⟩

/-! ### The unlatch (R117) -/

theorem changeScheme_edifact (hs : s.scheme = .edifact) : changeScheme .ascii .explicit s =
    (ediPack ediUnlatchValue s).andThen fun u =>
      .go { u with scheme := .ascii, chainWords := 0#16, chainValues := 0#16 } := by
  have hexit : exitSequence .explicit s = ediPack ediUnlatchValue s := by simp [exitSequence, hs]
  rw [changeScheme_ascii, hexit]

/-- The bits of the unlatch value at each phase (R71, R195). -/
theorem ediLead_unlatch (p : Nat) : ediLead p (ediUnlatchValue.setWidth 8 <<< 2) =
    if p = 0 then 0#8 else if p = 1 then 1#8 else if p = 2 then 7#8 else 31#8 := rfl

theorem ediTrail_unlatch (p : Nat) : ediTrail p (ediUnlatchValue.setWidth 8 <<< 2) =
    if p = 0 then 124#8 else if p = 1 then 240#8 else 192#8 := rfl

/-! ### Values packed one after another from a clean boundary (R193) -/

/-- The state after `n` values, at most 3, from a clean boundary: as many codewords as values, in the output `m`. -/
def packed (n : Nat) (m : Memory) (s : State) : State :=
  { s with
    outMem := m
    outLen := s.outLen + BitVec.ofNat 16 n
    chainWords := s.chainWords + BitVec.ofNat 16 n
    chainValues := s.chainValues + BitVec.ofNat 16 n }

theorem packed_zero (s : State) : packed 0 s.outMem s = s := by simp [packed]

theorem packed_phase {n : Nat} (m : Memory) (hv : s.chainValues.toNat % 4 = 0) (hn : n < 4) :
    (packed n m s).chainValues.toNat % 4 = n := by
  simp only [packed, BitVec.toNat_add, BitVec.toNat_ofNat]
  omega

theorem packed_outLen {n : Nat} (m : Memory) (h : s.outLen.toNat + n < 65536) :
    (packed n m s).outLen.toNat = s.outLen.toNat + n := count_add h

/-- One more value, with room. -/
theorem ediPack_packed_room {n : Nat} {m : Memory} (e : BitVec 6) (hv : s.chainValues.toNat % 4 = 0) (hn : n < 3)
    (hcap : s.params.outCap < 65536) (h : s.outLen.toNat + n < s.params.outCap) :
    ∃ m', ediPack e (packed n m s) = .go (packed (n + 1) m' s) ∧
      ∀ a, readOut { s with outMem := m' } a =
        if a = s.outLen.toNat + n then ediTrail n (e.setWidth 8 <<< 2)
        else if a = s.outLen.toNat + n - 1 then readOut { s with outMem := m } a ||| ediLead n (e.setWidth 8 <<< 2)
        else readOut { s with outMem := m } a := by
  have hlen := packed_outLen m (show s.outLen.toNat + n < 65536 by omega)
  have hphase := packed_phase m hv (show n < 4 by omega)
  obtain ⟨m', eq, hm⟩ := ediPack_room (s := packed n m s) e (by omega) (by rw [hlen]; exact Nat.ne_of_lt h)
  rw [hlen, hphase] at hm
  refine ⟨m', ?_, hm⟩
  rw [eq]
  simp [packed, BitVec.ofNat_add, BitVec.add_assoc]

/-- One more value, without room. -/
theorem ediPack_packed_full {n : Nat} {m : Memory} (e : BitVec 6) (hv : s.chainValues.toNat % 4 = 0) (hn : n < 3)
    (hcap : s.params.outCap < 65536) (h : s.outLen.toNat + n = s.params.outCap) :
    ∃ m', ediPack e (packed n m s) = .ended (overflowed (packed n m' s)) ∧
      ∀ a, readOut { s with outMem := m' } a = if a = s.outLen.toNat + n - 1
        then readOut { s with outMem := m } a ||| ediLead n (e.setWidth 8 <<< 2) else readOut { s with outMem := m } a := by
  have hlen := packed_outLen m (show s.outLen.toNat + n < 65536 by omega)
  have hphase := packed_phase m hv (show n < 4 by omega)
  obtain ⟨m', eq, hm⟩ := ediPack_full (s := packed n m s) e (by omega) (hlen.trans h)
  rw [hlen, hphase] at hm
  exact ⟨m', eq, hm⟩

/-- Where a run of values goes on, the rest of the values follow. -/
theorem ediPackAll_append {es : List (BitVec 6)} (fs : List (BitVec 6)) :
    ∀ {s u : State}, ediPackAll es s = .go u → ediPackAll (es ++ fs) s = ediPackAll fs u := by
  induction es with
  | nil => exact fun h => by rw [← Flow.go.inj h]; rfl
  | cons e rest ih =>
    intro s u h
    obtain ⟨v, hv, hu⟩ := andThen_eq_go h
    rw [List.cons_append, ediPackAll, hv, andThen_go, ih hu]

theorem ediPackAll_cons_go {e : BitVec 6} {u : State} (h : ediPack e s = .go u) (rest : List (BitVec 6)) :
    ediPackAll (e :: rest) s = ediPackAll rest u := by
  rw [ediPackAll, h, andThen_go]

/-- Where the next value ends the encode, the values after it are not packed. -/
theorem ediPackAll_ended {es : List (BitVec 6)} {e : BitVec 6} {u v : State} (h : ediPackAll es s = .go u)
    (he : ediPack e u = .ended v) (rest : List (BitVec 6)) : ediPackAll (es ++ e :: rest) s = .ended v := by
  rw [ediPackAll_append _ h, ediPackAll, he, andThen_ended]

variable {e0 e1 e2 e3 : BitVec 6} (hv : s.chainValues.toNat % 4 = 0) (hcap : s.params.outCap < 65536)
include hv hcap

/-- One value begins a codeword. -/
theorem ediPackAll_one (h : s.outLen.toNat < s.params.outCap) :
    ∃ m, ediPackAll [e0] s = .go (packed 1 m s) ∧ ∀ a, readOut { s with outMem := m } a =
      if a = s.outLen.toNat then ediTrail 0 (e0.setWidth 8 <<< 2) else readOut s a := by
  obtain ⟨m, e, hm⟩ := ediPack_packed_room (n := 0) (m := s.outMem) e0 hv (by decide) hcap h
  rw [packed_zero] at e
  refine ⟨m, ediPackAll_cons_go e [], fun a => (hm a).trans ?_⟩
  simp [ediLead]

/-- Two values complete one codeword and begin another. -/
theorem ediPackAll_two (h : s.outLen.toNat + 1 < s.params.outCap) :
    ∃ m, ediPackAll [e0, e1] s = .go (packed 2 m s) ∧ ∀ a, readOut { s with outMem := m } a =
      if a = s.outLen.toNat then quadCodeword 0 e0 e1
      else if a = s.outLen.toNat + 1 then ediTrail 1 (e1.setWidth 8 <<< 2) else readOut s a := by
  obtain ⟨m, e, hm⟩ := ediPackAll_one (e0 := e0) hv hcap (by omega)
  obtain ⟨m', e', hm'⟩ := ediPack_packed_room (m := m) e1 hv (by omega) hcap h
  refine ⟨m', (ediPackAll_append [e1] e).trans (ediPackAll_cons_go e' []), fun a => (hm' a).trans ?_⟩
  rw [hm]
  grind [quadCodeword]

/-- Three values complete two codewords and begin a third. -/
theorem ediPackAll_three (h : s.outLen.toNat + 2 < s.params.outCap) :
    ∃ m, ediPackAll [e0, e1, e2] s = .go (packed 3 m s) ∧ ∀ a, readOut { s with outMem := m } a =
      if a = s.outLen.toNat then quadCodeword 0 e0 e1
      else if a = s.outLen.toNat + 1 then quadCodeword 1 e1 e2
      else if a = s.outLen.toNat + 2 then ediTrail 2 (e2.setWidth 8 <<< 2) else readOut s a := by
  obtain ⟨m, e, hm⟩ := ediPackAll_two (e0 := e0) (e1 := e1) hv hcap (by omega)
  obtain ⟨m', e', hm'⟩ := ediPack_packed_room (m := m) e2 hv (by omega) hcap h
  refine ⟨m', (ediPackAll_append [e2] e).trans (ediPackAll_cons_go e' []), fun a => (hm' a).trans ?_⟩
  rw [hm]
  grind [quadCodeword]

/-- Four values complete three codewords. -/
theorem ediPackAll_four (h : s.outLen.toNat + 2 < s.params.outCap) :
    ∃ t, ediPackAll [e0, e1, e2, e3] s = .go t ∧
      appended s t [quadCodeword 0 e0 e1, quadCodeword 1 e1 e2, quadCodeword 2 e2 e3] 4 := by
  obtain ⟨m, e, hm⟩ := ediPackAll_three (e0 := e0) (e1 := e1) (e2 := e2) hv hcap h
  have hlen := packed_outLen m (show s.outLen.toNat + 3 < 65536 by omega)
  obtain ⟨m', e', hm'⟩ := ediPack_fill (s := packed 3 m s) e3 (packed_phase m hv (by omega))
  rw [hlen] at hm'
  have hread : ∀ a, readOut { s with outMem := m' } a =
      if a = s.outLen.toNat then quadCodeword 0 e0 e1
      else if a = s.outLen.toNat + 1 then quadCodeword 1 e1 e2
      else if a = s.outLen.toNat + 2 then quadCodeword 2 e2 e3 else readOut s a := fun a => by
    refine (hm' a).trans ?_
    rw [show readOut (packed 3 m s) a = _ from hm a]
    grind [quadCodeword]
  refine ⟨_, (ediPackAll_append [e3] e).trans (ediPackAll_cons_go e' []), ?_, fun j hj => ?_, fun a ha => ?_⟩
  · simp [packed, BitVec.add_assoc]
  · refine (hread _).trans ?_
    simp only [List.length_cons, List.length_nil] at hj
    interval_cases j <;> simp
  · refine (hread a).trans ?_
    simp only [List.length_cons, List.length_nil] at ha
    rw [if_neg (by omega), if_neg (by omega), if_neg (by omega)]

/-- With room for only `n` of the three codewords: the first `n` values are counted, and the bits of the next complete their last
codeword (R43, R110, R192). -/
theorem ediPackAll_overflow {n : Nat} (hn : n < 3) (h : s.outLen.toNat + n = s.params.outCap) :
    ∃ m, ediPackAll [e0, e1, e2, e3] s = .ended (overflowed (packed n m s)) ∧
      (1 ≤ n → readOut { s with outMem := m } s.outLen.toNat = quadCodeword 0 e0 e1) ∧
      (n = 2 → readOut { s with outMem := m } (s.outLen.toNat + 1) = quadCodeword 1 e1 e2) ∧
      ∀ a, a < s.outLen.toNat ∨ s.outLen.toNat + n ≤ a → readOut { s with outMem := m } a = readOut s a := by
  match n with
  | 0 =>
    obtain ⟨m, e, hm⟩ := ediPack_packed_full (n := 0) (m := s.outMem) e0 hv hn hcap h
    rw [packed_zero] at e
    refine ⟨m, ediPackAll_ended (es := []) rfl e _, by omega, by omega, fun a _ => (hm a).trans ?_⟩
    simp [ediLead]
  | 1 =>
    obtain ⟨m, e, hm⟩ := ediPackAll_one (e0 := e0) hv hcap (by omega)
    obtain ⟨m', e', hm'⟩ := ediPack_packed_full (m := m) e1 hv hn hcap h
    simp only [hm] at hm'
    refine ⟨m', ediPackAll_ended e e' _, fun _ => (hm' _).trans ?_, by omega, fun a ha => (hm' a).trans ?_⟩
    · simp [quadCodeword]
    · rw [if_neg (by omega), if_neg (by omega)]
  | 2 =>
    obtain ⟨m, e, hm⟩ := ediPackAll_two (e0 := e0) (e1 := e1) hv hcap (by omega)
    obtain ⟨m', e', hm'⟩ := ediPack_packed_full (m := m) e2 hv hn hcap h
    simp only [hm] at hm'
    refine ⟨m', ediPackAll_ended e e' _, fun _ => (hm' _).trans ?_, fun _ => (hm' _).trans ?_, fun a ha => (hm' a).trans ?_⟩
    · simp
    · simp [quadCodeword]
    · rw [if_neg (by omega), if_neg (by omega), if_neg (by omega)]

end

/-! ### The obligations -/

/-- Settles O30: the row packs 31 at the current phase, then begins an Ascii chain. -/
theorem edifactUnlatchRow : Obligations.EdifactUnlatchRow := by
  intro s hs hscheme hpos
  have hrun : exec .ediUnlatch s = .next (changeScheme .ascii .explicit s).state := emitUnit_runs hs (inScheme_iff.2 hscheme) _
  rw [changeScheme_edifact hscheme] at hrun
  simp only [hrun, ← ediLead_unlatch, ← ediTrail_unlatch]
  refine ⟨fun h => ?_, fun h hp => ?_⟩
  · by_cases hp : s.chainValues.toNat % 4 = 3
    · obtain ⟨m, e, hm⟩ := ediPack_fill ediUnlatchValue hp
      rw [e, hp]
      exact ⟨_, rfl, rfl, rfl, (hm _).trans (if_pos rfl), fun hne => absurd rfl hne, fun a ha _ => (hm a).trans (if_neg ha)⟩
    · have hne : s.outLen.toNat ≠ s.params.outCap := Nat.ne_of_lt (h.resolve_right hp)
      obtain ⟨m, e, hm⟩ := ediPack_room ediUnlatchValue hp hne
      rw [e, if_neg hp]
      refine ⟨_, rfl, rfl, rfl, ?_, fun _ => (hm _).trans (if_pos rfl), fun a ha hb => ?_⟩
      · exact (hm _).trans (by rw [if_neg (by omega), if_pos rfl])
      · exact (hm a).trans (by rw [if_neg (hb.resolve_right hp), if_neg ha])
  · obtain ⟨m, e, hm⟩ := ediPack_full ediUnlatchValue hp h
    rw [e]
    exact ⟨_, rfl, rfl, (hm _).trans (if_pos rfl), fun a ha => (hm a).trans (if_neg ha)⟩

/-- Settles O48: the four values are packed one after another; without room, those before the full output stand. -/
theorem edifactQuadRow : Obligations.EdifactQuadRow := by
  intro e0 e1 e2 e3 s hp hs hscheme hv
  have hcap := outCap_le hp
  have hrun : exec (.edi24Quad e0 e1 e2 e3) s = .next (ediPackAll [e0, e1, e2, e3] s).state :=
    emitUnit_runs hs (inScheme_iff.2 hscheme) _
  have hcw0 := quadCodeword_toNat (p := 0) (by decide) e0 e1
  have hcw1 := quadCodeword_toNat (p := 1) (by decide) e1 e2
  have hcw2 := quadCodeword_toNat (p := 2) (by decide) e2 e3
  have h0 := e0.isLt
  have h1 := e1.isLt
  have h2 := e2.isLt
  refine ⟨fun h => ?_, fun n hn h => ?_⟩
  · obtain ⟨t, e, ht⟩ := ediPackAll_four (e0 := e0) (e1 := e1) (e2 := e2) (e3 := e3) hv (by omega) (by omega)
    refine ⟨t, _, _, _, by rw [hrun, e, state_go], ht, ?_⟩
    rw [hcw0, hcw1, hcw2]
    omega
  · obtain ⟨m, e, hfirst, hsecond, hframe⟩ :=
      ediPackAll_overflow (e0 := e0) (e1 := e1) (e2 := e2) (e3 := e3) hv (by omega) hn h
    rw [hrun, e]
    refine ⟨_, rfl, rfl, fun hn => (hfirst hn).trans ?_, fun hn => (hsecond hn).trans ?_, hframe⟩
    · exact BitVec.eq_of_toNat_eq (by rw [hcw0, BitVec.toNat_ofNat]; omega)
    · exact BitVec.eq_of_toNat_eq (by rw [hcw1, BitVec.toNat_ofNat]; omega)

end Sys2Proof.Machine
end

section
/-! PROOFS. The Base256 payload row and chunk (spec R224 to R230): the randomizer's inverse, what the header update writes in each of
its cases, and one appended payload codeword. -/

namespace Sys2Proof.Machine

/-! ### Nominal values (R225, R252, R253) -/

/-- The randomizer is undone at its own position (R259). -/
theorem unrand255_rand255 (v : Byte) (p : Nat) : unrand255 (rand255 v p) p = v := by
  have hv := v.isLt
  apply BitVec.eq_of_toNat_eq
  simp only [unrand255, rand255, BitVec.toNat_ofInt, BitVec.toNat_ofNat]
  omega

theorem nominal_of_readOut {s : State} {i : Nat} {v : Byte} (h : readOut s i = rand255 v (i + 1)) : nominal s i = v := by
  rw [nominal, h, unrand255_rand255]

/-- A moved codeword keeps its nominal value (R225). -/
theorem nominal_of_moved {s : State} {i p : Nat} {c : Byte} (h : readOut s i = moveCodeword c p (i + 1)) :
    nominal s i = unrand255 c p := nominal_of_readOut h

theorem headerHigh_toNat {l : Nat} (h : l < 1750) : (headerHigh l).toNat = l / 250 + 249 := by
  rw [headerHigh, BitVec.toNat_ofNat]
  omega

theorem headerLow_toNat (l : Nat) : (headerLow l).toNat = l % 250 := by
  rw [headerLow, BitVec.toNat_ofNat]
  omega

section
variable {s : State} {i v : Nat}

/-! ### The header update, case by case (R227, R228, R230) -/

theorem b256UpdateNormal_long (hi : headerIndex s = i) (hl : headerLength s = 2) (hv : s.chainValues.toNat = v) (h : 250 ≤ v)
    (h' : v < 1750) : b256UpdateNormal s =
    .go (writeOut (i + 1) (rand255 (headerLow v) (i + 2)) (writeOut i (rand255 (headerHigh v) (i + 1)) s)) := by
  subst hi hv
  rw [b256UpdateNormal_keeps_length (by omega), b256WriteHeader, if_neg (by omega), if_pos ⟨hl, h⟩, if_neg (by omega)]
  rfl

theorem b256UpdateNormal_tooLong (hl : headerLength s = 2) (h : 1750 ≤ s.chainValues.toNat) :
    b256UpdateNormal s = .ended { s with status := .invalid, reason := .b256TooLong } := by
  rw [b256UpdateNormal_keeps_length (by omega), b256WriteHeader, if_neg (by omega), if_pos ⟨hl, by omega⟩, if_pos h]
  rfl

theorem b256UpdateNormal_grow_full (hl : headerLength s = 1) (h : 249 < s.chainValues.toNat)
    (hfull : s.outLen.toNat = s.params.outCap) : b256UpdateNormal s = .ended (overflowed s) := by
  have hinsert : insertAt (headerIndex s + 1) s = .ended (overflowed s) := if_pos hfull
  simp only [b256UpdateNormal]
  rw [if_pos ⟨hl, h⟩, b256ShiftUp, hinsert]
  rfl

theorem rerandomize_draw (d j n : Nat) (s : State) : (rerandomize d j n s).draw = s.draw := by rw [rerandomize_frame]

theorem copyUp_draw (i n : Nat) (s : State) : (copyUp i n s).draw = s.draw := by rw [copyUp_frame]

/-- A slot opened at `i`: the codewords from `i` on stand one index higher, moved to their new positions (R226). -/
theorem b256ShiftUp_room (hlen : s.outLen.toNat + 1 < 65536) (hi : i ≤ s.outLen.toNat)
    (hroom : s.outLen.toNat ≠ s.params.outCap) :
    ∃ m, b256ShiftUp i s = .go { s with outMem := m, outLen := s.outLen + 1#16 } ∧
      ∀ a, readOut { s with outMem := m } a =
        if i < a ∧ a ≤ s.outLen.toNat then moveCodeword (readOut s (a - 1)) a (a + 1) else readOut s a := by
  have hcount : (s.outLen + 1#16).toNat - (i + 1) = s.outLen.toNat - i := by
    rw [count_add hlen]
    omega
  obtain ⟨hfull, -⟩ | ⟨-, e⟩ := insertAt_cases i s
  · exact absurd hfull hroom
  obtain ⟨u, hu⟩ : ∃ u, u = { copyUp i (s.outLen.toNat - i) s with outLen := s.outLen + 1#16 } := ⟨_, rfl⟩
  have hdraw : u.draw = s.draw := by rw [hu, copyUp_draw]
  have hread : ∀ a, readOut u a = if i < a ∧ a ≤ i + (s.outLen.toNat - i) then readOut s (a - 1) else readOut s a := by
    rw [hu]
    exact readOut_copyUp i _ s
  have hn : u.outLen = s.outLen + 1#16 := by rw [hu]
  refine ⟨(rerandomize 0 (i + 1) (s.outLen.toNat - i) u).outMem, ?_, fun a => ?_⟩
  · rw [b256ShiftUp, e, ← hu, andThen_go, hn, hcount, rerandomize_frame, hu, copyUp_frame]
  · have hsame : readOut { s with outMem := (rerandomize 0 (i + 1) (s.outLen.toNat - i) u).outMem } a =
        readOut (rerandomize 0 (i + 1) (s.outLen.toNat - i) u) a := by
      rw [readOut, readOut, rerandomize_draw, hdraw]
    rw [hsame, readOut_rerandomize, hread]
    grind

/-- The second header byte: a slot is opened after the first, and both are written (R227, R228). -/
theorem b256UpdateNormal_grow (hi : headerIndex s = i) (hl : headerLength s = 1) (hv : s.chainValues.toNat = v) (h : 250 ≤ v)
    (h' : v < 1750) (hlen : s.outLen.toNat + 1 < 65536) (hin : i < s.outLen.toNat)
    (hroom : s.outLen.toNat ≠ s.params.outCap) :
    ∃ m, b256UpdateNormal s = .go { s with
        outMem := m
        outLen := s.outLen + 1#16
        chainWords := s.chainWords + 1#16 } ∧
      ∀ a, readOut { s with outMem := m } a =
        if a = i then rand255 (headerHigh v) (i + 1)
        else if a = i + 1 then rand255 (headerLow v) (i + 2)
        else if i < a ∧ a ≤ s.outLen.toNat then moveCodeword (readOut s (a - 1)) a (a + 1)
        else readOut s a := by
  subst hi hv
  obtain ⟨m, e, hm⟩ := b256ShiftUp_room (i := headerIndex s + 1) hlen hin hroom
  refine ⟨memSet (headerIndex s + 1) (rand255 (headerLow s.chainValues.toNat) (headerIndex s + 2))
    (memSet (headerIndex s) (rand255 (headerHigh s.chainValues.toNat) (headerIndex s + 1)) m), ?_, fun a => ?_⟩
  · simp only [b256UpdateNormal]
    rw [if_pos ⟨hl, by omega⟩, e, andThen_go, b256WriteHeader, if_neg (by omega), if_pos ⟨rfl, h⟩, if_neg (by omega)]
    rfl
  · change readOut (writeOut _ _ (writeOut _ _ { s with outMem := m })) a = _
    simp only [readOut_writeOut, hm]
    grind

/-! ### One payload codeword (R224) -/

/-- The codeword `d` is appended, a word and a value of the chain. -/
def payloadAdded (d : Byte) (s : State) : State :=
  { writeOut s.outLen.toNat d s with
    outLen := s.outLen + 1#16
    chainWords := s.chainWords + 1#16
    chainValues := s.chainValues + 1#16 }

theorem readOut_payloadAdded (d : Byte) (s : State) (a : Nat) :
    readOut (payloadAdded d s) a = if a = s.outLen.toNat then d else readOut s a := readOut_writeOut _ a d s

theorem b256Payload_room (d : Byte) (h : s.outLen.toNat ≠ s.params.outCap) :
    b256Payload d s = b256UpdateNormal (payloadAdded d s) := by
  rw [b256Payload, chainAppend_room h]; rfl

theorem b256Payload_full (d : Byte) (h : s.outLen.toNat = s.params.outCap) : b256Payload d s = .ended (overflowed s) := by
  rw [b256Payload, chainAppend_full h]; rfl

/-- The chunk appends the next byte at its position and moves the cursor before the header update. -/
theorem b256Chunk_room (hne : s.inNext ≠ s.inLen) (h : s.outLen.toNat ≠ s.params.outCap) : b256Chunk s =
    b256UpdateNormal { payloadAdded (rand255 (readIn s s.inNext.toNat) (s.outLen.toNat + 1)) s with
      inNext := s.inNext + 1#16 } := by
  rw [b256Chunk, if_neg hne, chainAppend_room h]; rfl

/-- The header update does not read the input cursor. -/
theorem b256UpdateNormal_cursor (s : State) (n : Count) :
    (b256UpdateNormal { s with inNext := n }).state = { (b256UpdateNormal s).state with inNext := n } :=
  (congrArg Flow.state (b256UpdateNormal_put ⟨fun _ => n, id, id, id⟩ s)).trans (Flow.map_state _ _)

theorem payloadAdded_outLen (d : Byte) (hlen : s.outLen.toNat + 1 < 65536) :
    (payloadAdded d s).outLen.toNat = s.outLen.toNat + 1 := count_add hlen

section
variable (d : Byte) (hlen : s.outLen.toNat + 1 < 65536) (hw : s.chainWords.toNat < s.outLen.toNat)
include hlen hw

theorem payloadAdded_headerIndex : headerIndex (payloadAdded d s) = headerIndex s := by
  have hwords : (payloadAdded d s).chainWords.toNat = s.chainWords.toNat + 1 := count_add (by omega)
  rw [headerIndex, payloadAdded_outLen d hlen, hwords, headerIndex]
  omega

theorem payloadAdded_chainValues (hv : s.chainValues.toNat ≤ s.chainWords.toNat) :
    (payloadAdded d s).chainValues.toNat = s.chainValues.toNat + 1 := count_add (by omega)

theorem payloadAdded_headerLength (hv : s.chainValues.toNat ≤ s.chainWords.toNat) :
    headerLength (payloadAdded d s) = headerLength s := by
  have hwords : (payloadAdded d s).chainWords.toNat = s.chainWords.toNat + 1 := count_add (by omega)
  rw [headerLength, hwords, payloadAdded_chainValues d hlen hw hv, headerLength]
  omega

end

end

/-! ### The obligation -/

/-- Settles O55: a payload codeword is appended, and the header update runs in the case its new length asks for; the chunk does the
same with the cursor moved, which the header update does not read. -/
theorem base256PayloadRow : Obligations.Base256PayloadRow := by
  intro d s hp hs hscheme hw
  have hcap := outCap_le hp
  have hrun : ∀ d, exec (.b256D d) s = .next (b256Payload d s).state := fun d => emitUnit_runs hs (inScheme_iff.2 hscheme) _
  have hidx : headerIndex s = s.outLen.toNat - s.chainWords.toNat := rfl
  have hhl : headerLength s = s.chainWords.toNat - s.chainValues.toNat := rfl
  refine ⟨fun h => ?_, fun h => ?_, fun h => if_pos h, fun hne h => ?_, fun hne h => ?_⟩
  · rw [hrun, b256Payload_full d h, state_ended]
  · have hne := Nat.ne_of_lt h
    have hlen : s.outLen.toNat + 1 < 65536 := by omega
    have hn := payloadAdded_outLen d hlen
    have hi := payloadAdded_headerIndex d hlen hw
    rw [hrun, b256Payload_room d hne]
    have hv := payloadAdded_chainValues d hlen hw
    have hl := payloadAdded_headerLength d hlen hw
    refine ⟨fun hwv h249 => ?_, fun hwv h250 h1749 => ?_, fun hwv h249 hroom => ?_, fun hwv h1749 => ?_, fun hwv h249 hfull => ?_⟩
    · rw [b256UpdateNormal_short hi (by omega) (hv (by omega)) (by omega), state_go]
      refine ⟨_, rfl, rfl, ?_, ?_, fun a ha ha' => ?_⟩
      · rw [readOut_writeOut_other (by omega), readOut_payloadAdded, if_pos rfl]
      · rw [nominal_of_readOut (readOut_writeOut_same ..), BitVec.toNat_ofNat]
        omega
      · rw [readOut_writeOut_other ha, readOut_payloadAdded, if_neg ha']
    · rw [b256UpdateNormal_long hi (by omega) (hv (by omega)) (by omega) (by omega), state_go]
      refine ⟨_, rfl, rfl, ?_, ?_, ?_, fun a ha ha' ha'' => ?_⟩
      · rw [readOut_writeOut_other (by omega), readOut_writeOut_other (by omega), readOut_payloadAdded, if_pos rfl]
      · rw [nominal_of_readOut ((readOut_writeOut_other (by omega) _ _).trans (readOut_writeOut_same ..)),
          headerHigh_toNat (by omega)]
      · rw [nominal_of_readOut (readOut_writeOut_same ..), headerLow_toNat]
      · rw [readOut_writeOut_other ha', readOut_writeOut_other ha, readOut_payloadAdded, if_neg ha'']
    · have hv250 : (payloadAdded d s).chainValues.toNat = 250 := by omega
      obtain ⟨m, e, hm⟩ := b256UpdateNormal_grow hi (by omega) hv250 (by decide) (by decide) (by omega) (by omega)
        (by rw [hn]; exact Nat.ne_of_lt hroom)
      rw [e, state_go]
      simp only [hn, readOut_payloadAdded] at hm
      refine ⟨_, rfl, ?_, ?_, ?_, ?_, fun j hj hj' => ?_, fun a ha => (hm a).trans ?_⟩
      · simp [payloadAdded, BitVec.add_assoc]
      · exact nominal_of_moved ((hm _).trans (by grind))
      · exact (congrArg BitVec.toNat (nominal_of_readOut ((hm _).trans (if_pos rfl)))).trans (headerHigh_toNat (by decide))
      · exact nominal_of_readOut (v := headerLow 250) ((hm _).trans (by rw [if_neg (by omega), if_pos rfl]))
      · exact nominal_of_moved ((hm _).trans (by grind))
      · grind
    · rw [b256UpdateNormal_tooLong (by omega) (by omega), state_ended]
      exact ⟨_, rfl, rfl, (readOut_payloadAdded d s _).trans (if_pos rfl), fun a ha =>
        (readOut_payloadAdded d s a).trans (if_neg ha)⟩
    · rw [b256UpdateNormal_grow_full (by omega) (by omega) (hn.trans hfull), state_ended]
      exact ⟨_, rfl, rfl, (readOut_payloadAdded d s _).trans (if_pos rfl), fun a ha =>
        (readOut_payloadAdded d s a).trans (if_neg ha)⟩
  · rw [b256Chunk, if_neg hne, chainAppend_full h]; rfl
  · have hfull := Nat.ne_of_lt h
    rw [b256Chunk_room hne hfull]
    refine ⟨⟨_, appended_one _ 1 s, rfl⟩, fun u hu => ?_⟩
    rw [hrun, b256Payload_room _ hfull] at hu
    rw [b256UpdateNormal_cursor, Host.Outcome.next.inj hu]

end Sys2Proof.Machine
end

section
/-! PROOFS. The ends of a CTX encode after the rollback (spec R137, R163, R166 to R168, R255): the size `find` gives and the room for it,
the pads as a run of appended codewords, and the unlatch with the ASCII codewords that follow it. -/

namespace Sys2Proof.Machine

/-! ### The symbol-size port (R5, R254, R255) -/

theorem le_dw_of_findAmong {p : Config.Params} {n z : Nat} {l : List Nat} (h : findAmong p n l = some z) : n ≤ dw p z := by
  induction l generalizing z with
  | nil => cases h
  | cons y rest ih =>
    rw [findAmong] at h
    split at h
    · split_ifs at h with hy
      cases h; exact hy
    · split_ifs at h with hy
      · cases h; exact hy.1
      · cases h; exact ih ‹_›

/-- A size that is found holds the codewords. -/
theorem le_dw_of_find {p : Config.Params} {hint : BitVec 8} {n z : Nat} (h : find p hint n = some z) : n ≤ dw p z := by
  unfold find at h
  split_ifs at h with _ hfits
  · exact le_dw_of_findAmong h
  · cases h; exact hfits.2

/-- The data words of a symbol leave room in the output (R5). -/
theorem dw_lt_outCap {p : Config.Params} (hp : p.ok) (z : Nat) : dw p z < p.outCap := by
  have hpos := outCap_pos hp
  obtain ⟨-, hdw, -⟩ := hp
  by_cases hz : z < p.symDw.length
  · have := hdw _ (List.getElem_mem hz)
    rw [dw, List.getD_eq_getElem _ _ hz]
    omega
  · rwa [dw, List.getD_eq_default _ _ (Nat.not_lt.1 hz)]

theorem count_ofNat {n : Nat} (h : n < 65536) : (BitVec.ofNat 16 n).toNat = n := by
  rw [BitVec.toNat_ofNat]
  exact Nat.mod_eq_of_lt h

section
variable {s : State}

theorem findExact_some {n total z : Nat} (h : findSize s n = some z) (hz : dw s.params z = total) :
    findExact s n total = some z := by
  rw [findExact, h]
  exact if_pos hz

theorem findExact_none {n total : Nat} (h : ∀ y, findSize s n = some y → dw s.params y ≠ total) :
    findExact s n total = none := by
  unfold findExact
  split
  · exact if_neg (h _ ‹_›)
  · rfl

/-- With the symbol filled and the input exhausted, the encode completes (R112). -/
theorem complete_filled {z : Nat} (hlen : s.outLen.toNat = dw s.params z) (hin : s.inNext = s.inLen) :
    complete z s = .ended { s with sizeIdx := BitVec.ofNat 8 z, status := .complete } := by
  rw [complete, if_neg (not_not.2 hlen), if_neg (by rw [hin]; exact Nat.lt_irrefl _)]

/-! ### Pads (R137) -/

/-- The pads from output length `p` on: 129 if `first`, and the randomized pads of their positions. -/
def padCodewords (p : Nat) : Bool → Nat → List Byte
  | _, 0 => []
  | first, n + 1 => (if first then 129#8 else rand253 129#8 (p + 1)) :: padCodewords (p + 1) false n

theorem padCodewords_length (n : Nat) : ∀ (p : Nat) (first : Bool), (padCodewords p first n).length = n := by
  induction n with
  | zero => exact fun _ _ => rfl
  | succ n ih => exact fun p _ => congrArg (· + 1) (ih (p + 1) false)

theorem padCodewords_getD (n : Nat) : ∀ (p : Nat) (first : Bool) (j : Nat), j < n →
    (padCodewords p first n).getD j 0#8 = if first = true ∧ j = 0 then 129#8 else rand253 129#8 (p + j + 1) := by
  induction n with
  | zero => exact fun _ _ _ h => absurd h (Nat.not_lt_zero _)
  | succ n ih =>
    intro p first j hj
    cases j with
    | zero => simp [padCodewords]
    | succ j =>
      rw [padCodewords, List.getD_cons_succ, ih _ _ _ (Nat.lt_of_succ_lt_succ hj)]
      simp [Nat.add_assoc, Nat.add_comm 1 j]

/-- The pad loop appends the pads of its positions. -/
theorem padLoop_eq_asciiAppendAll (n : Nat) : ∀ {s : State} (first : Bool), s.params.outCap < 65536 →
    s.outLen.toNat + n ≤ s.params.outCap → padLoop n first s = asciiAppendAll (padCodewords s.outLen.toNat first n) s := by
  induction n with
  | zero => exact fun _ _ _ => rfl
  | succ n ih =>
    intro s first hcap h
    obtain ⟨t, e, ht⟩ := asciiAppend_appended (s := s) (if first then 129#8 else rand253 129#8 (s.outLen.toNat + 1)) (by omega)
    have hlen : t.outLen.toNat = s.outLen.toNat + 1 := appended_outLen ht (by simp only [List.length_singleton]; omega)
    have hparams : t.params = s.params := by rw [ht.1]
    rw [padLoop, padCodewords, asciiAppendAll, e, andThen_go, andThen_go, ih false (by rwa [hparams]) (by rw [hlen, hparams]; omega),
      hlen]

/-- Padding fills the symbol and touches nothing below or above it. -/
theorem pad_fills {z : Nat} (hp : s.params.ok) (h : s.outLen.toNat ≤ dw s.params z) :
    ∃ m, pad z s = .go { s with
        outMem := m
        outLen := BitVec.ofNat 16 (dw s.params z)
        chainWords := s.chainWords + BitVec.ofNat 16 (dw s.params z - s.outLen.toNat)
        chainValues := s.chainValues + BitVec.ofNat 16 (dw s.params z - s.outLen.toNat) } ∧
      paddedRun { s with outMem := m } s.outLen.toNat (dw s.params z) ∧
      ∀ a, a < s.outLen.toNat ∨ dw s.params z ≤ a → readOut { s with outMem := m } a = readOut s a := by
  have hcap := outCap_le hp
  have hdw := dw_lt_outCap hp z
  have hcount := padCodewords_length (dw s.params z - s.outLen.toNat) s.outLen.toNat true
  have hlen : s.outLen + BitVec.ofNat 16 (dw s.params z - s.outLen.toNat) = BitVec.ofNat 16 (dw s.params z) := by
    apply BitVec.eq_of_toNat_eq
    rw [count_add (by omega), BitVec.toNat_ofNat]
    omega
  obtain ⟨t, e, ht, hnew, hold⟩ := asciiAppendAll_appended (s := s)
    (cws := padCodewords s.outLen.toNat true (dw s.params z - s.outLen.toNat)) (by omega) (by omega)
  rw [hcount] at ht hnew hold
  have hread : ∀ a, readOut { s with outMem := t.outMem } a = readOut t a := readOut_congr rfl (by rw [ht])
  refine ⟨t.outMem, ?_, fun i hi hi' => ?_, fun a ha => (hread a).trans (hold a (by omega))⟩
  · rw [pad, padLoop_eq_asciiAppendAll _ true (by omega) (by omega), e, ← hlen, ← ht]
  · have hpad := hnew (i - s.outLen.toNat) (by omega)
    rw [padCodewords_getD _ _ _ _ (by omega), show s.outLen.toNat + (i - s.outLen.toNat) = i by omega] at hpad
    rw [hread, hpad]
    grind

/-- The common end of R138, R168 and R198 in a symbol that is found: the pads, and completion. -/
theorem finishSized_found {z : Nat} (hp : s.params.ok) (hin : s.inNext = s.inLen) (h : findSize s s.outLen.toNat = some z) :
    ∃ m, finishSized s = .ended { s with
        outMem := m
        outLen := BitVec.ofNat 16 (dw s.params z)
        chainWords := s.chainWords + BitVec.ofNat 16 (dw s.params z - s.outLen.toNat)
        chainValues := s.chainValues + BitVec.ofNat 16 (dw s.params z - s.outLen.toNat)
        status := .complete
        sizeIdx := BitVec.ofNat 8 z } ∧
      paddedRun { s with outMem := m } s.outLen.toNat (dw s.params z) ∧
      ∀ a, a < s.outLen.toNat ∨ dw s.params z ≤ a → readOut { s with outMem := m } a = readOut s a := by
  have hcap := outCap_le hp
  have hdw := dw_lt_outCap hp z
  obtain ⟨m, e, hpad, hold⟩ := pad_fills hp (le_dw_of_find h)
  refine ⟨m, ?_, hpad, hold⟩
  rw [finishSized, h]
  change (pad z s).andThen (complete z) = _
  rw [e, andThen_go]
  exact complete_filled (count_ofNat (by omega)) hin

theorem finishSized_none (h : findSize s s.outLen.toNat = none) :
    finishSized s = .ended { s with status := .invalid, reason := .sizeUndefined } := by
  rw [finishSized, h]
  rfl

/-! ### After the rollback (R166 to R168) -/

/-- The input from an index on depends on the input RAM and the draw of its reset bytes alone. -/
theorem inputFrom_congr {t : State} (hm : t.inMem = s.inMem) (hd : t.draw = s.draw) (n : Nat) :
    ∀ i, inputFrom t i n = inputFrom s i n := by
  induction n with
  | zero => exact fun _ => rfl
  | succ n ih => exact fun i => by rw [inputFrom, inputFrom, readIn_congr hm hd, ih]

/-- The input taken back, with the count of R166 written out. -/
theorem remainingInput_ctxRollback (s : State) : remainingInput (ctxRollback s) = remainingInput { s with
    inNext := s.inNext - (if s.ctxN = 2#3 ∧ s.ctxLastn = 1#3 then 2#16 else 1#16) } := by
  have hback : BitVec.ofNat 16 (ctxRollbackBytes s) = if s.ctxN = 2#3 ∧ s.ctxLastn = 1#3 then 2#16 else 1#16 := by
    unfold ctxRollbackBytes
    split <;> rfl
  rw [← hback]
  refine inputFrom_congr ?_ ?_ _ _ <;> rfl

/-- Where case (b) does not apply, the rollback and the finish in Ascii follow (R163). -/
theorem ctxPartial_rollback {k : CtxSet} (h : s.ctxN = 1#3 ∨ (s.ctxN = 2#3 ∧
      (k = .x12 ∨ ∀ y, findSize s (s.outLen.toNat + 2) = some y → dw s.params y ≠ s.outLen.toNat + 2))) :
    ctxPartial k s = ctxFinishInAscii (asciiEncode (remainingInput (ctxRollback s))) (ctxRollback s) := by
  have hnone : ctxShiftPadSize k s = none := by
    rcases h with h | ⟨-, h | h⟩
    · simp [ctxShiftPadSize, h]
    · simp [ctxShiftPadSize, h]
    · rw [ctxShiftPadSize, findExact_none h, ite_self]
  rw [ctxPartial, hnone]

/-- Case (d): the one codeword fills the symbol, with no unlatch (R167). -/
theorem ctxFinishInAscii_implicit {z : Nat} {c : Byte} (hp : s.params.ok) (h : findSize s (s.outLen.toNat + 1) = some z)
    (hz : dw s.params z = s.outLen.toNat + 1) : ctxFinishInAscii [c] s =
    .ended { writeOut s.outLen.toNat c s with
      outLen := s.outLen + 1#16
      inNext := s.inLen
      scheme := .ascii
      chainWords := 1#16
      chainValues := 1#16
      status := .complete
      sizeIdx := BitVec.ofNat 8 z } := by
  have hcap := outCap_le hp
  have hdw := dw_lt_outCap hp z
  have hsize : ctxImplicitSize [c] s = some z := findExact_some h hz
  have hlen : (s.outLen + 1#16).toNat = s.outLen.toNat + 1 := count_add (by omega)
  rw [ctxFinishInAscii, hsize]
  change ((changeScheme .ascii .implicit s).andThen _) = _
  rw [changeScheme_ascii_implicit, andThen_go, asciiAppendAll, asciiAppend_room (by simp only; omega)]
  exact complete_filled (hlen.trans hz.symm) rfl

/-- Case (c) begins with the explicit change to Ascii (R168). -/
theorem ctxFinishInAscii_explicit {tail : List Byte} (hsize : ctxImplicitSize tail s = none) :
    ctxFinishInAscii tail s = (changeScheme .ascii .explicit s).andThen fun u =>
      (asciiAppendAll tail u).andThen fun v => finishSized { v with inNext := v.inLen } := by
  rw [ctxFinishInAscii, hsize]

section
variable {tail : List Byte} (hs : s.scheme = .c40 ∨ s.scheme = .text ∨ s.scheme = .x12) (hv : s.chainValues.toNat % 3 = 0)
  (hcap : s.params.outCap < 65536) (hsize : ctxImplicitSize tail s = none)
include hs hv hcap hsize

/-- Case (c) without room for the unlatch and the codewords fills the output and overflows (R43, R168). -/
theorem ctxFinishInAscii_overflow (hl : s.outLen.toNat ≤ s.params.outCap)
    (h : s.params.outCap < s.outLen.toNat + 1 + tail.length) :
    ∃ t, ctxFinishInAscii tail s = .ended t ∧ t.status = .invalid ∧ t.reason = .outOverflow ∧
      t.outLen.toNat = s.params.outCap := by
  rw [ctxFinishInAscii_explicit hsize]
  by_cases hfull : s.outLen.toNat = s.params.outCap
  · rw [changeScheme_ctx_full hs hv hfull]
    exact ⟨_, rfl, rfl, rfl, hfull⟩
  · have hlen : (entered .ascii 254#8 s).outLen.toNat = s.outLen.toNat + 1 := count_add (by omega)
    obtain ⟨t, e, ht⟩ := asciiAppendAll_overflow (s := entered .ascii 254#8 s) (cws := tail) hcap
      (by rw [hlen]; exact Nat.lt_of_le_of_ne hl hfull) (by rw [hlen]; exact h)
    rw [changeScheme_ctx_room hs hv hfull, andThen_go, e]
    exact ⟨t, rfl, ht⟩

/-- Case (c) with room: the unlatch and the codewords are appended, the input is consumed, and the size is resolved (R168). -/
theorem ctxFinishInAscii_room (h : s.outLen.toNat + 1 + tail.length ≤ s.params.outCap) :
    ∃ m, ctxFinishInAscii tail s = finishSized { s with
        outMem := m
        outLen := BitVec.ofNat 16 (s.outLen.toNat + 1 + tail.length)
        inNext := s.inLen
        scheme := .ascii
        chainWords := BitVec.ofNat 16 tail.length
        chainValues := BitVec.ofNat 16 tail.length } ∧
      readOut { s with outMem := m } s.outLen.toNat = 254#8 ∧
      (∀ j, j < tail.length → readOut { s with outMem := m } (s.outLen.toNat + 1 + j) = tail.getD j 0#8) ∧
      ∀ a, a < s.outLen.toNat ∨ s.outLen.toNat + 1 + tail.length ≤ a → readOut { s with outMem := m } a = readOut s a := by
  have hlen : (entered .ascii 254#8 s).outLen.toNat = s.outLen.toNat + 1 := count_add (by omega)
  have hlen' : s.outLen + 1#16 + BitVec.ofNat 16 tail.length = BitVec.ofNat 16 (s.outLen.toNat + 1 + tail.length) := by
    simp [BitVec.ofNat_add]
  obtain ⟨t, e, ht, hnew, hold⟩ := asciiAppendAll_appended (s := entered .ascii 254#8 s) (cws := tail) hcap (by rw [hlen]; exact h)
  rw [hlen] at hnew hold
  have hread : ∀ a, readOut { s with outMem := t.outMem } a = readOut t a := readOut_congr rfl (by rw [ht]; rfl)
  have hwrite : ∀ a, readOut (entered .ascii 254#8 s) a = if a = s.outLen.toNat then 254#8 else readOut s a := fun a =>
    readOut_writeOut _ a 254#8 s
  refine ⟨t.outMem, ?_, ?_, fun j hj => (hread _).trans (hnew j hj), fun a ha => ?_⟩
  · rw [ctxFinishInAscii_explicit hsize, changeScheme_ctx_room hs hv (by omega), andThen_go, e, andThen_go, ht]
    simp [entered, hlen']
  · rw [hread, hold _ (.inl (Nat.lt_succ_self _)), hwrite, if_pos rfl]
  · rw [hread, hold a (by omega), hwrite, if_neg (by omega)]

/-- Case (c) in a symbol that is found: the unlatch, the codewords and the pads fill it (R168). -/
theorem ctxFinishInAscii_found {z : Nat} (hp : s.params.ok) (h : findSize s (s.outLen.toNat + 1 + tail.length) = some z) :
    ∃ m, ctxFinishInAscii tail s = .ended { s with
        outMem := m
        outLen := BitVec.ofNat 16 (dw s.params z)
        inNext := s.inLen
        scheme := .ascii
        chainWords := BitVec.ofNat 16 (dw s.params z - (s.outLen.toNat + 1))
        chainValues := BitVec.ofNat 16 (dw s.params z - (s.outLen.toNat + 1))
        status := .complete
        sizeIdx := BitVec.ofNat 8 z } ∧
      readOut { s with outMem := m } s.outLen.toNat = 254#8 ∧
      (∀ j, j < tail.length → readOut { s with outMem := m } (s.outLen.toNat + 1 + j) = tail.getD j 0#8) ∧
      paddedRun { s with outMem := m } (s.outLen.toNat + 1 + tail.length) (dw s.params z) ∧
      ∀ a, a < s.outLen.toNat ∨ dw s.params z ≤ a → readOut { s with outMem := m } a = readOut s a := by
  have hdw := dw_lt_outCap hp z
  have hle : s.outLen.toNat + 1 + tail.length ≤ dw s.params z := le_dw_of_find h
  have hn : (BitVec.ofNat 16 (s.outLen.toNat + 1 + tail.length)).toNat = s.outLen.toNat + 1 + tail.length :=
    count_ofNat (by omega)
  have hcount : BitVec.ofNat 16 tail.length + BitVec.ofNat 16 (dw s.params z - (s.outLen.toNat + 1 + tail.length)) =
      BitVec.ofNat 16 (dw s.params z - (s.outLen.toNat + 1)) := by
    rw [← BitVec.ofNat_add]
    congr 1
    omega
  obtain ⟨m, e, hunlatch, htail, hold⟩ := ctxFinishInAscii_room hs hv hcap hsize (by omega)
  obtain ⟨m', e', hpad, hold'⟩ := finishSized_found (s := { s with
    outMem := m
    outLen := BitVec.ofNat 16 (s.outLen.toNat + 1 + tail.length)
    inNext := s.inLen
    scheme := .ascii
    chainWords := BitVec.ofNat 16 tail.length
    chainValues := BitVec.ofNat 16 tail.length }) hp rfl ((congrArg (findSize s) hn).trans h)
  simp only [hn, hcount] at hpad hold' e'
  refine ⟨m', e.trans e', ?_, fun j hj => ?_, hpad, fun a ha => (hold' a (by omega)).trans (hold a (by omega))⟩
  · exact (hold' s.outLen.toNat (.inl (by omega))).trans hunlatch
  · exact (hold' (s.outLen.toNat + 1 + j) (.inl (by omega))).trans (htail j hj)

end

end

/-! ### The obligation -/

/-- Settles O46: after the rollback the finish in Ascii is either the implicit end or the unlatch, the codewords and the common end. -/
theorem ctxImplicitUnlatch : Obligations.CtxImplicitUnlatch := by
  intro k s hp hpart
  have hcap := outCap_le hp
  rw [← remainingInput_ctxRollback, ctxPartial_rollback hpart]
  generalize asciiEncode (remainingInput (ctxRollback s)) = tail
  refine ⟨fun z c hc h hz => ?_, fun hs hv hl hexact => ?_⟩
  · subst hc
    rw [ctxFinishInAscii_implicit (s := ctxRollback s) hp h hz]
    exact ⟨_, rfl, rfl, readOut_writeOut_same _ _ s, fun a ha => readOut_writeOut_other ha _ s⟩
  · have hsize : ctxImplicitSize tail (ctxRollback s) = none := by
      rcases hexact with hone | hnone
      · exact if_neg hone
      · rw [ctxImplicitSize, ctxRollback_outLen, findExact_none (s := ctxRollback s) hnone, ite_self]
    have hcap' : (ctxRollback s).params.outCap < 65536 := Nat.lt_of_le_of_lt hcap (by decide)
    refine ⟨fun h => ?_, fun h hnone => ?_, fun z h => ?_⟩
    · exact ctxFinishInAscii_overflow (s := ctxRollback s) hs hv hcap' hsize hl h
    · obtain ⟨m, e, hm⟩ := ctxFinishInAscii_room (s := ctxRollback s) hs hv hcap' hsize h
      rw [e, finishSized_none ((congrArg (findSize s) (count_ofNat (by omega))).trans hnone)]
      exact ⟨_, rfl, rfl, hm⟩
    · obtain ⟨m, e, hm⟩ := ctxFinishInAscii_found (s := ctxRollback s) hs hv hcap' hsize hp h
      rw [e]
      exact ⟨_, rfl, rfl, hm⟩

end Sys2Proof.Machine
end

section
/-! PROOFS. The encoding (spec R49, R60, R65 to R76, R111): the address map as a bijection between the places and the word addresses,
bus transactions from their fields, the decoder on encoded words, where a codeword unit is emitted, and the CTX pair. -/

namespace Sys2Proof

/-! ### The address map (R49) -/

/-- A place the address map can give: an address counts as unmapped only where no register and no RAM window is. -/
def Place.valid : Place → Bool
  | .unmapped a => Addr.isUnmapped a
  | _ => true

/-- An address is its window and its index in the window. -/
theorem window_append (a : Addr) : a.extractLsb' 12 4 ++ a.extractLsb' 0 12 = a :=
  (BitVec.extractLsb'_append_extractLsb'_eq_extractLsb' (by decide)).trans BitVec.extractLsb'_eq_self

theorem window_eq_iff {a : Addr} {k : BitVec 4} : a.extractLsb' 12 4 = k ↔ a.toNat / 4096 = k.toNat := by
  rw [← BitVec.toNat_inj, BitVec.extractLsb'_toNat, Nat.shiftRight_eq_div_pow, Nat.mod_eq_of_lt (by omega)]

theorem addr_cases (a : Addr) : (∃ n < 0x14, a = BitVec.ofNat 16 n) ∨ 0x14 ≤ a.toNat := by
  by_cases h : a.toNat < 0x14
  · exact .inl ⟨_, h, BitVec.eq_of_toNat_eq (by simp)⟩
  · exact .inr (Nat.not_lt.1 h)

/-- Above the registers only the windows are mapped. -/
theorem addressMap_above {a : Addr} (h : 0x14 ≤ a.toNat) : addressMap a =
    if a.extractLsb' 12 4 = 1#4 then .inMem (a.extractLsb' 0 12)
    else if a.extractLsb' 12 4 = 2#4 then .outMem (a.extractLsb' 0 12)
    else .unmapped a := by
  have hne : ∀ n < 0x14, a ≠ BitVec.ofNat 16 n := by
    rintro n hn rfl
    rw [BitVec.toNat_ofNat] at h
    omega
  unfold addressMap
  iterate 14 rw [if_neg (hne _ (by decide))]

/-- The addresses up to the last register. -/
theorem addressMap_below : ∀ n < 0x14, placeAddr (addressMap (BitVec.ofNat 16 n)) = BitVec.ofNat 16 n ∧
    (addressMap (BitVec.ofNat 16 n)).valid = true ∧
    (Addr.isUnmapped (BitVec.ofNat 16 n) = true → addressMap (BitVec.ofNat 16 n) = .unmapped (BitVec.ofNat 16 n)) := by decide

theorem isUnmapped_above {a : Addr} (h : 0x14 ≤ a.toNat) :
    Addr.isUnmapped a = true ↔ a.extractLsb' 12 4 ≠ 1#4 ∧ a.extractLsb' 12 4 ≠ 2#4 := by
  have hin : (1#4).toNat = 1 := rfl
  have hout : (2#4).toNat = 2 := rfl
  simp only [Addr.isUnmapped, Ne, window_eq_iff, Bool.or_eq_true, Bool.and_eq_true, decide_eq_true_eq, hin, hout]
  omega

theorem placeAddr_addressMap (a : Addr) : placeAddr (addressMap a) = a := by
  obtain ⟨n, hn, rfl⟩ | h := addr_cases a
  · obtain ⟨haddr, -⟩ := addressMap_below n hn
    exact haddr
  · rw [addressMap_above h]
    split_ifs with hin hout
    · rw [placeAddr, ← hin, window_append]
    · rw [placeAddr, ← hout, window_append]
    · rfl

theorem addressMap_valid (a : Addr) : (addressMap a).valid = true := by
  obtain ⟨n, hn, rfl⟩ | h := addr_cases a
  · obtain ⟨-, hvalid, -⟩ := addressMap_below n hn
    exact hvalid
  · rw [addressMap_above h]
    split_ifs with hin hout
    · rfl
    · rfl
    · exact (isUnmapped_above h).2 ⟨hin, hout⟩

/-- An address in a RAM window is no register. -/
theorem window_above {k : BitVec 4} (hk : k ≠ 0#4) (i : BitVec 12) : 0x14 ≤ (k ++ i).toNat := by
  have hwin : (k ++ i).toNat / 4096 = k.toNat := window_eq_iff.1 BitVec.extractLsb'_append_eq_left
  have : k.toNat ≠ 0 := fun e => hk (BitVec.eq_of_toNat_eq e)
  omega

theorem addressMap_placeAddr {p : Place} (h : p.valid = true) : addressMap (placeAddr p) = p := by
  cases p with
  | inMem i =>
    rw [placeAddr, addressMap_above (window_above (by decide) i), BitVec.extractLsb'_append_eq_left,
      BitVec.extractLsb'_append_eq_right, if_pos rfl]
  | outMem i =>
    rw [placeAddr, addressMap_above (window_above (by decide) i), BitVec.extractLsb'_append_eq_left,
      BitVec.extractLsb'_append_eq_right, if_neg (by decide), if_pos rfl]
  | unmapped a =>
    obtain ⟨n, hn, rfl⟩ | ha := addr_cases a
    · obtain ⟨-, -, hunmapped⟩ := addressMap_below n hn
      exact hunmapped h
    · obtain ⟨hin, hout⟩ := (isUnmapped_above ha).1 h
      rw [placeAddr, addressMap_above ha, if_neg hin, if_neg hout]
  | _ => rfl

/-! ### Bus transactions from their fields (R65, R66) -/

section
variable (w : BitVec 1) (a : Addr) (d : Word)

theorem hostWord_direction : (hostWord w a d).getLsbD 48 = w.getLsbD 0 := by
  rw [hostWord, BitVec.getLsbD_append, if_neg (by decide), BitVec.getLsbD_append, if_neg (by decide)]

theorem hostWord_addr : (hostWord w a d).extractLsb' 32 16 = a := by
  rw [hostWord, BitVec.extractLsb'_append_eq_of_le (Nat.le_refl 32)]
  exact BitVec.extractLsb'_append_eq_right

theorem hostWord_data : (hostWord w a d).extractLsb' 0 32 = d := BitVec.extractLsb'_append_eq_right

/-- The mask of `W` and ADDR clears DATA. -/
theorem hostWord_and_mask : hostWord w a d &&& 0x1FFFF00000000#49 = hostWord w a 0#32 := by
  change (w ++ a ++ d) &&& (BitVec.allOnes 1 ++ BitVec.allOnes 16 ++ 0#32) = _
  rw [BitVec.and_append, BitVec.and_append, BitVec.and_allOnes, BitVec.and_allOnes, BitVec.and_zero, hostWord]

theorem decodeHost_hostWord_write : decodeHost (hostWord 1#1 a d) = decodeWrite (addressMap a) d := by
  rw [decodeHost, hostWord_direction, hostWord_addr, hostWord_data]
  rfl

theorem decodeHost_hostWord_read : decodeHost (hostWord 0#1 a d) = decodeRead (addressMap a) := by
  rw [decodeHost, hostWord_direction, hostWord_addr]
  rfl

end

theorem ofBool_getLsbD {n : Nat} (t : BitVec n) (i : Nat) : BitVec.ofBool (t.getLsbD i) = t.extractLsb' i 1 := by
  apply BitVec.eq_of_getLsbD_eq
  intro j hj
  obtain rfl : j = 0 := by omega
  simp

/-- A transaction is its direction, its address and its data (R65). -/
theorem hostWord_fields (t : BitVec 49) :
    hostWord (BitVec.ofBool (t.getLsbD 48)) (t.extractLsb' 32 16) (t.extractLsb' 0 32) = t := by
  rw [ofBool_getLsbD, hostWord, BitVec.extractLsb'_append_extractLsb'_eq_extractLsb' (by decide),
    BitVec.extractLsb'_append_extractLsb'_eq_extractLsb' (by decide), BitVec.extractLsb'_eq_self]

/-! ### Reads and writes of a place (R49, R66) -/

/-- CTRL data is its bit 0, which tells START, and the rest. -/
theorem ctrlData_fields (d : Word) : d.extractLsb' 1 31 ++ BitVec.ofBool (d.getLsbD 0) = d := by
  rw [ofBool_getLsbD, BitVec.extractLsb'_append_extractLsb'_eq_extractLsb' (by decide), BitVec.extractLsb'_eq_self]

theorem decodeWrite_ctrl (hi : BitVec 31) (b : Bool) :
    decodeWrite .ctrl (hi ++ BitVec.ofBool b) = if b then .start hi else .wrCtrlNop hi := by
  have hbit : (hi ++ BitVec.ofBool b).getLsbD 0 = b := by
    rw [BitVec.getLsbD_append, if_pos (by decide)]
    cases b <;> rfl
  have hrest : (hi ++ BitVec.ofBool b).extractLsb' 1 31 = hi := BitVec.extractLsb'_append_eq_left
  rw [decodeWrite, hbit, hrest]

theorem encode_decodeWrite (p : Place) (d : Word) : encode (decodeWrite p d) = encodeWrite p d := by
  cases p with
  | ctrl =>
    rw [← ctrlData_fields d, decodeWrite_ctrl]
    cases d.getLsbD 0 <;> rfl
  | _ => rfl

theorem encode_decodeRead (p : Place) : encode (decodeRead p) = encodeRead p := by cases p <;> rfl

theorem decodeWrite_wellFormed {p : Place} (h : p.valid = true) (d : Word) : (decodeWrite p d).wellFormed = true := by
  cases p with
  | ctrl => rw [decodeWrite]; split <;> rfl
  | unmapped a => exact h
  | _ => rfl

theorem decodeRead_wellFormed {p : Place} (h : p.valid = true) : (decodeRead p).wellFormed = true := by
  cases p with
  | unmapped a => exact h
  | _ => rfl

/-! ### The decoder, format by format -/

theorem setWidth_back {n : Nat} (hn : n ≤ 56) (v : BitVec n) : (v.setWidth 56 : Raw).setWidth n = v := by
  rw [BitVec.setWidth_setWidth_of_le _ hn, BitVec.setWidth_eq]

/-- A value of a format's width is not too wide for it (R60). -/
theorem not_tooWide {n : Nat} (v : BitVec n) : ¬ 2 ^ n ≤ (v.setWidth 56 : Raw).toNat :=
  Nat.not_le.2 (Laws.EncodeFits.setWidth_lt v)

theorem decode_host (t : BitVec 49) : decode .host (t.setWidth 56) = .ok (decodeHost t) :=
  (if_neg (not_tooWide t)).trans (congrArg (fun v => Except.ok (decodeHost v)) (setWidth_back (by decide) t))

theorem decode_cw8 (c : Byte) : decode .cw8 (c.setWidth 56) = decodeCw8 c :=
  (if_neg (not_tooWide c)).trans (congrArg decodeCw8 (setWidth_back (by decide) c))

theorem decode_asciiUs (v : BitVec 16) : decode .asciiUs (v.setWidth 56) = decodeAsciiUs v :=
  (if_neg (not_tooWide v)).trans (congrArg decodeAsciiUs (setWidth_back (by decide) v))

theorem decode_ctx16 (p : BitVec 16) : decode .ctx16 (p.setWidth 56) = decodeCtx16 p :=
  (if_neg (not_tooWide p)).trans (congrArg decodeCtx16 (setWidth_back (by decide) p))

theorem decode_edi24 (v : BitVec 24) : decode .edi24 (v.setWidth 56) = .ok (decodeEdi24 v) :=
  (if_neg (not_tooWide v)).trans (congrArg (fun v => Except.ok (decodeEdi24 v)) (setWidth_back (by decide) v))

theorem decode_b256H1 (h : Byte) : decode .b256H1 (h.setWidth 56) = .ok (.b256H1 h) :=
  (if_neg (not_tooWide h)).trans (congrArg (fun v => Except.ok (Instr.b256H1 v)) (setWidth_back (by decide) h))

theorem decode_b256D (d : Byte) : decode .b256D (d.setWidth 56) = .ok (.b256D d) :=
  (if_neg (not_tooWide d)).trans (congrArg (fun v => Except.ok (Instr.b256D v)) (setWidth_back (by decide) d))

theorem decode_pad (p : Byte) : decode .pad (p.setWidth 56) = decodePad p :=
  (if_neg (not_tooWide p)).trans (congrArg decodePad (setWidth_back (by decide) p))

theorem decode_b256H2 (h l : Byte) : decode .b256H2 ((h ++ l).setWidth 56) = .ok (.b256H2 h l) := by
  have hhigh : ((h ++ l).setWidth 56 : Raw).extractLsb' 8 8 = h :=
    (BitVec.extractLsb'_setWidth_of_le (by decide)).trans BitVec.extractLsb'_append_eq_left
  have hlow : ((h ++ l).setWidth 56 : Raw).extractLsb' 0 8 = l :=
    (BitVec.extractLsb'_setWidth_of_le (by decide)).trans BitVec.extractLsb'_append_eq_right
  refine (if_neg (not_tooWide (h ++ l))).trans ?_
  simp only [hhigh, hlow]

/-! ### Decoding what was encoded -/

theorem decode_encodeWrite {p : Place} (h : p.valid = true) (d : Word) :
    decode .host (encodeWrite p d) = .ok (decodeWrite p d) := by
  rw [encodeWrite, decode_host, decodeHost_hostWord_write, addressMap_placeAddr h]

theorem decode_encodeRead {p : Place} (h : p.valid = true) : decode .host (encodeRead p) = .ok (decodeRead p) := by
  rw [encodeRead, decode_host, decodeHost_hostWord_read, addressMap_placeAddr h]

theorem decodeCw8_asciiChar {c : Byte} (h : 1 ≤ c.toNat ∧ c.toNat ≤ 128) : decodeCw8 c = .ok (.cwAsciiChar c) := if_pos h

theorem decodeCw8_digitPair {c : Byte} (h : 130 ≤ c.toNat ∧ c.toNat ≤ 229) : decodeCw8 c = .ok (.cwDigitPair c) := by
  have hpad : c ≠ 129#8 := by
    rintro rfl
    exact absurd h (by decide)
  rw [decodeCw8, if_neg (by omega), if_neg hpad, if_pos h]

theorem decodeAsciiUs_upperShift {lo : Byte} (h : 1 ≤ lo.toNat ∧ lo.toNat ≤ 128) :
    decodeAsciiUs (235#8 ++ lo) = .ok (.cwUpperShift lo) := by
  simp only [decodeAsciiUs]
  rw [BitVec.extractLsb'_append_eq_left, BitVec.extractLsb'_append_eq_right, if_pos ⟨rfl, h⟩]

theorem decodeEdi24_quad (e0 e1 e2 e3 : BitVec 6) : decodeEdi24 (e0 ++ e1 ++ e2 ++ e3) = .edi24Quad e0 e1 e2 e3 := by
  have h12 : (e0 ++ e1 ++ e2 ++ e3).extractLsb' 12 6 = e1 := by
    rw [BitVec.extractLsb'_append_eq_of_le (by decide), BitVec.extractLsb'_append_eq_of_le (by decide)]
    exact BitVec.extractLsb'_append_eq_right
  have h18 : (e0 ++ e1 ++ e2 ++ e3).extractLsb' 18 6 = e0 := by
    rw [BitVec.extractLsb'_append_eq_of_le (by decide), BitVec.extractLsb'_append_eq_of_le (by decide)]
    exact BitVec.extractLsb'_append_eq_left
  have h6 : (e0 ++ e1 ++ e2 ++ e3).extractLsb' 6 6 = e2 := by
    rw [BitVec.extractLsb'_append_eq_of_le (by decide)]
    exact BitVec.extractLsb'_append_eq_right
  rw [decodeEdi24, h18, h12, h6, BitVec.extractLsb'_append_eq_right]

/-! ### The obligations -/

/-- Settles O1, by the rows: a bus transaction through the address map, a codeword row through its format's decoder. -/
theorem decodeEncodeRoundTrip : Obligations.DecodeEncodeRoundTrip := by
  intro i hw
  cases i with
  | start hi => exact (decode_encodeWrite (p := .ctrl) rfl _).trans (congrArg Except.ok (decodeWrite_ctrl hi true))
  | wrCtrlNop hi => exact (decode_encodeWrite (p := .ctrl) rfl _).trans (congrArg Except.ok (decodeWrite_ctrl hi false))
  | wrTarget d | wrHint d | wrInLen d | wrStatus d | wrReason d | wrSizeIdx d | wrOutLen d | wrCaps d | wrNsizes d
  | wrDbgCursor d | wrDbgScheme d | wrDbgChain d | wrDbgCtx d | wrInMem _ d | wrOutMem _ d => exact decode_encodeWrite rfl d
  | wrUnmapped a d => exact decode_encodeWrite (p := .unmapped a) hw d
  | rdCtrl | rdTarget | rdHint | rdInLen | rdStatus | rdReason | rdSizeIdx | rdOutLen | rdCaps | rdNsizes | rdDbgCursor
  | rdDbgScheme | rdDbgChain | rdDbgCtx | rdInMem _ | rdOutMem _ => exact decode_encodeRead rfl
  | rdUnmapped a => exact decode_encodeRead (p := .unmapped a) hw
  | cwAsciiChar c => exact (decode_cw8 c).trans (decodeCw8_asciiChar (by simpa [Instr.wellFormed] using hw))
  | cwDigitPair c => exact (decode_cw8 c).trans (decodeCw8_digitPair (by simpa [Instr.wellFormed] using hw))
  | cwPadFirst | cwLatchC40 | cwLatchBase256 | cwLatchX12 | cwLatchText | cwLatchEdifact | ctxUnlatch | ediUnlatch => rfl
  | cwUpperShift lo =>
    exact (decode_asciiUs (235#8 ++ lo)).trans (decodeAsciiUs_upperShift (by simpa [Instr.wellFormed] using hw))
  | ctx16Triplet p => exact (decode_ctx16 p).trans (if_pos (by simpa [Instr.wellFormed] using hw))
  | edi24Quad e0 e1 e2 e3 =>
    exact (decode_edi24 (e0 ++ e1 ++ e2 ++ e3)).trans (congrArg Except.ok (decodeEdi24_quad e0 e1 e2 e3))
  | b256H1 h => exact decode_b256H1 h
  | b256H2 h l => exact decode_b256H2 h l
  | b256D d => exact decode_b256D d
  | padRandom p => exact (decode_pad p).trans (if_pos (by simpa [Instr.wellFormed] using hw))

/-- Settles O2: the place an address names is one the rows can encode. -/
theorem everyBusTransactionDecodes : Obligations.EveryBusTransactionDecodes := by
  refine fun t => ⟨decode_host t, Machine.decodeHost_format t, ?_⟩
  simp only [decodeHost]
  split
  · exact decodeWrite_wellFormed (addressMap_valid _) _
  · exact decodeRead_wellFormed (addressMap_valid _)

/-- Settles O3: a write is encoded from all its fields, a read from its address, and the address map loses no address. -/
theorem busDecodingDropsOnlyReadData : Obligations.BusDecodingDropsOnlyReadData := by
  intro t
  have hfields := hostWord_fields t
  simp only [decodeHost]
  cases hdir : t.getLsbD 48 <;> rw [hdir] at hfields
  case true =>
    rw [if_pos rfl, if_pos rfl, encode_decodeWrite, encodeWrite, placeAddr_addressMap]
    exact congrArg _ hfields
  case false =>
    rw [if_neg Bool.false_ne_true, if_neg Bool.false_ne_true, encode_decodeRead, encodeRead, placeAddr_addressMap]
    have hmask := hostWord_and_mask (BitVec.ofBool false) (t.extractLsb' 32 16) (t.extractLsb' 0 32)
    rw [hfields] at hmask
    exact congrArg _ hmask.symm

/-- Settles O4: each word runs through the decoder. -/
theorem specWordsDecode : Obligations.SpecWordsDecode :=
  ⟨rfl, rfl, rfl, rfl, rfl, rfl, rfl, rfl, rfl, rfl, rfl, rfl, rfl, rfl, rfl, rfl⟩

end Sys2Proof

namespace Sys2Proof.Machine

/-! ### Where a codeword unit is emitted (R76, R111) -/

/-- The scheme register holds the scheme the unit is emitted in; a CTX unit is emitted in each of the three (R76). -/
def atHome (i : Instr) (s : State) : Prop :=
  ∃ t, emittedIn i = some t ∧ (s.scheme = t ∨ t = .c40 ∧ inCtx s = true)

section
variable {s : State} {t : Scheme}

theorem atHome_of_inScheme {i : Instr} (hi : emittedIn i = some t) (h : inScheme t s = true) : atHome i s :=
  ⟨t, hi, .inl (inScheme_iff.1 h)⟩

theorem atHome_of_inScheme_and {i : Instr} {b : Bool} (hi : emittedIn i = some t) (h : (inScheme t s && b) = true) :
    atHome i s := atHome_of_inScheme hi (Bool.and_eq_true_iff.1 h).1

theorem atHome_of_inCtx {i : Instr} (hi : emittedIn i = some .c40) (h : inCtx s = true) : atHome i s :=
  ⟨.c40, hi, .inr ⟨rfl, h⟩⟩

end

/-- Every codeword row is a unit that is emitted at home only. -/
theorem exec_codeword {i : Instr} (hi : i.format ≠ .host) :
    ∃ here op, (∀ s, exec i s = emitUnit here op s) ∧ ∀ s, here s = true → atHome i s := by
  cases i with
  | cwAsciiChar _ | cwPadFirst | cwDigitPair _ | cwLatchC40 | cwLatchBase256 | cwLatchX12 | cwLatchText | cwLatchEdifact
  | cwUpperShift _ | edi24Quad _ _ _ _ | ediUnlatch | b256D _ => exact ⟨_, _, fun _ => rfl, fun _ => atHome_of_inScheme rfl⟩
  | b256H1 _ | b256H2 _ _ | padRandom _ => exact ⟨_, _, fun _ => rfl, fun _ => atHome_of_inScheme_and rfl⟩
  | ctx16Triplet _ | ctxUnlatch => exact ⟨_, _, fun _ => rfl, fun _ => atHome_of_inCtx rfl⟩
  | _ => exact absurd rfl hi

/-- Settles O31: every codeword row is a unit of the emitter, which emits it in a running encode and at home only. -/
theorem codewordUnitsOutsideTheirPlace : Obligations.CodewordUnitsOutsideTheirPlace := by
  intro i s hi
  obtain ⟨here, op, hexec, hhome⟩ := exec_codeword hi
  rw [hexec]
  refine ⟨emitUnit_idle, fun t ht hne hctx => emitUnit_elsewhere (Bool.eq_false_iff.2 fun h => ?_) op⟩
  obtain ⟨u, hu, hplace⟩ := hhome s h
  obtain rfl : t = u := Option.some.inj (ht.symm.trans hu)
  rcases hplace with hscheme | ⟨rfl, hin⟩
  · exact hne hscheme
  · rw [inCtx, hctx rfl] at hin
    cases hin

/-! ### The CTX pair (R70) -/

theorem ctxPair_toNat {v0 v1 v2 : CtxValue} (h0 : v0.toNat ≤ 39) (h1 : v1.toNat ≤ 39) (h2 : v2.toNat ≤ 39) :
    (ctxPair v0 v1 v2).toNat = 1600 * v0.toNat + 40 * v1.toNat + v2.toNat + 1 := by
  rw [ctxPair, BitVec.toNat_ofNat]
  omega

/-- Settles O40: the pair is the number in base 40 of its three values, plus 1. -/
theorem ctxPairBounds : Obligations.CtxPairBounds := by
  intro v0 v1 v2 h0 h1 h2 p
  have hp : p = 1600 * v0.toNat + 40 * v1.toNat + v2.toNat + 1 := ctxPair_toNat h0 h1 h2
  refine ⟨hp, ?_, ?_, ?_, ?_, ?_, ?_⟩ <;> omega

end Sys2Proof.Machine
end

section
/-! PROOFS. The Base256 header rows (spec R73, R226 to R231): a header codeword is the randomized one of its nominal value, and at the
exact fit the second header codeword is taken out and the encode ends. -/

namespace Sys2Proof.Machine

/-! ### Stored header codewords (R250 to R253) -/

/-- The randomizer's inverse is undone at its own position (R259). -/
theorem rand255_unrand255 (c : Byte) (p : Nat) : rand255 (unrand255 c p) p = c := by
  have hc := c.isLt
  apply BitVec.eq_of_toNat_eq
  simp only [unrand255, rand255, BitVec.toNat_ofInt, BitVec.toNat_ofNat]
  omega

/-- A stored codeword whose nominal value is known. -/
theorem eq_rand255 {c v : Byte} {p : Nat} (h : (unrand255 c p).toNat = v.toNat) : c = rand255 v p := by
  rw [← BitVec.eq_of_toNat_eq h, rand255_unrand255]

section
variable {s : State}

/-! ### The exact fit (R226, R229, R231) -/

/-- Closing a slot changes the output RAM and the output length alone (R226). -/
theorem b256ShiftDown_frame (i : Nat) (s : State) :
    b256ShiftDown i s = { s with outMem := (b256ShiftDown i s).outMem, outLen := s.outLen - 1#16 } := by
  simp only [b256ShiftDown]
  rw [rerandomize_frame, removeAt_frame]

theorem outLen_pred (h : 0 < s.outLen.toNat) : (s.outLen - 1#16).toNat = s.outLen.toNat - 1 :=
  BitVec.toNat_sub_of_le (BitVec.le_def.2 h)

/-- The slot at `i` closed: the codewords above it stand one index lower, moved to their new positions (R226). -/
theorem readOut_b256ShiftDown {i : Nat} (hi : i < s.outLen.toNat) (a : Nat) : readOut (b256ShiftDown i s) a =
    if i ≤ a ∧ a + 1 < s.outLen.toNat then moveCodeword (readOut s (a + 1)) (a + 2) (a + 1) else readOut s a := by
  have hlen : (removeAt i s).outLen.toNat = s.outLen.toNat - 1 := outLen_pred (by omega)
  have hcopied : readOut (removeAt i s) a =
      if i ≤ a ∧ a < i + (s.outLen.toNat - 1 - i) then readOut s (a + 1) else readOut s a := readOut_copyDown _ i s a
  simp only [b256ShiftDown]
  rw [readOut_rerandomize, hlen, hcopied]
  grind

/-- The exact-fit header update: the second header codeword is taken out, and the first is set to nominal 0 (R229). -/
theorem b256UpdatePerfect_fits {i z : Nat} (hi : headerIndex s = i) (hl : headerLength s = 2)
    (hlen : (s.outLen - 1#16).toNat = dw s.params z) : b256UpdatePerfect z s =
    .go { writeOut i (rand255 0#8 (i + 1)) (b256ShiftDown (i + 1) s) with chainWords := s.chainWords - 1#16 } := by
  subst hi
  simp only [b256UpdatePerfect]
  rw [if_neg (not_not.2 hl), b256ShiftDown_frame, if_neg (not_not.2 hlen)]
  rfl

theorem b256ExactSize_some {z : Nat} (hl : headerLength s = 2) (hfind : findSize s (s.outLen.toNat - 1) = some z)
    (hz : dw s.params z = s.outLen.toNat - 1) : b256ExactSize s = some z := (if_pos hl).trans (findExact_some hfind hz)

/-- At the exact fit the completion collapses the header, and the encode is complete in Base256 (R231). -/
theorem b256Complete_exact {z : Nat} (hl : headerLength s = 2) (hin : s.inNext = s.inLen) (hpos : 0 < s.outLen.toNat)
    (hfind : findSize s (s.outLen.toNat - 1) = some z) (hz : dw s.params z = s.outLen.toNat - 1) :
    b256Complete s = .ended { writeOut (headerIndex s) (rand255 0#8 (headerIndex s + 1)) (b256ShiftDown (headerIndex s + 1) s) with
      chainWords := s.chainWords - 1#16
      status := .complete
      sizeIdx := BitVec.ofNat 8 z } := by
  have hlen : (s.outLen - 1#16).toNat = dw s.params z := (outLen_pred hpos).trans hz.symm
  rw [b256Complete, if_neg (by rw [hin]; exact Nat.lt_irrefl _), b256ExactSize_some hl hfind hz]
  change (b256UpdatePerfect z s).andThen (complete z) = _
  rw [b256UpdatePerfect_fits rfl hl hlen, andThen_go, b256ShiftDown_frame]
  exact complete_filled hlen hin

/-- The output after the collapse of the header: the payload one index lower at its nominal values (R229). -/
theorem readOut_collapsed {i : Nat} (hi : i + 1 < s.outLen.toNat) (v : Byte) (a : Nat) :
    readOut (writeOut i v (b256ShiftDown (i + 1) s)) a =
      if a = i then v
      else if i < a ∧ a + 1 < s.outLen.toNat then moveCodeword (readOut s (a + 1)) (a + 2) (a + 1)
      else readOut s a := by
  rw [readOut_writeOut, readOut_b256ShiftDown hi]
  rfl

/-! ### The header rows (R73, R228) -/

theorem isShortHeader_iff {h : Byte} : isShortHeader h s = true ↔ headerLength s = 1 ∧ s.chainValues.toNat ≤ 249 ∧
    h = rand255 (BitVec.ofNat 8 s.chainValues.toNat) (headerIndex s + 1) := by
  simp only [isShortHeader, Bool.and_eq_true, beq_iff_eq, decide_eq_true_eq, and_assoc]

theorem isLongHeader_iff {h l : Byte} : isLongHeader h l s = true ↔ (headerLength s = 1 ∨ headerLength s = 2) ∧
    250 ≤ s.chainValues.toNat ∧ s.chainValues.toNat ≤ 1749 ∧
    h = rand255 (headerHigh s.chainValues.toNat) (headerIndex s + 1) ∧
    l = rand255 (headerLow s.chainValues.toNat) (headerIndex s + 2) := by
  simp only [isLongHeader, Bool.and_eq_true, Bool.or_eq_true, beq_iff_eq, decide_eq_true_eq, and_assoc]

theorem isExactHeader_iff {h : Byte} : isExactHeader h s = true ↔ s.inLen.toNat ≤ s.inNext.toNat ∧
    (b256ExactSize s).isSome = true ∧ h = rand255 0#8 (headerIndex s + 1) := by
  simp only [isExactHeader, Bool.and_eq_true, beq_iff_eq, decide_eq_true_eq, and_assoc]

section
variable (hs : s.status = .encoding) (hscheme : s.scheme = .base256)
include hs hscheme

theorem exec_b256H1_short {h : Byte} (hh : isShortHeader h s = true) : exec (.b256H1 h) s = .next (b256UpdateNormal s).state := by
  have hhere : (inScheme .base256 s && (isShortHeader h s || isExactHeader h s)) = true := by simp [inScheme_iff.2 hscheme, hh]
  change execB256H1 h s = _
  rw [execB256H1, emitUnit_runs hs hhere, if_pos hh]

theorem exec_b256H1_exact {h : Byte} (hshort : isShortHeader h s = false) (hh : isExactHeader h s = true) :
    exec (.b256H1 h) s = .next (b256Complete s).state := by
  have hhere : (inScheme .base256 s && (isShortHeader h s || isExactHeader h s)) = true := by simp [inScheme_iff.2 hscheme, hh]
  change execB256H1 h s = _
  rw [execB256H1, emitUnit_runs hs hhere, if_neg (Bool.eq_false_iff.1 hshort)]

theorem exec_b256H2_long {h l : Byte} (hh : isLongHeader h l s = true) :
    exec (.b256H2 h l) s = .next (b256UpdateNormal s).state := by
  have hhere : (inScheme .base256 s && isLongHeader h l s) = true := by simp [inScheme_iff.2 hscheme, hh]
  change execB256H2 h l s = _
  rw [execB256H2, emitUnit_runs hs hhere]

end

end

/-! ### The obligation -/

/-- Settles O56: the header update writes the header that is already the one of its length, in place; at the exact fit the row runs
the completion. -/
theorem base256HeaderRows : Obligations.Base256HeaderRows := by
  intro h l s hs hscheme hw
  have hhl : headerLength s = s.chainWords.toNat - s.chainValues.toNat := rfl
  refine ⟨fun hwv h249 hh => ?_, fun hwv h250 h1749 hh hl => ?_, fun z hp hwv hin hfind hz hh => ?_⟩
  · have hhead : h = rand255 (BitVec.ofNat 8 s.chainValues.toNat) (headerIndex s + 1) :=
      eq_rand255 (by rw [hh, BitVec.toNat_ofNat]; omega)
    rw [exec_b256H1_short hs hscheme (isShortHeader_iff.2 ⟨by omega, h249, hhead⟩),
      b256UpdateNormal_short rfl (by omega) rfl h249, ← hhead, state_go]
    exact ⟨_, rfl, rfl, readOut_writeOut_same .., fun a ha => readOut_writeOut_other ha _ s⟩
  · have hhead : h = rand255 (headerHigh s.chainValues.toNat) (headerIndex s + 1) :=
      eq_rand255 (by rw [hh, headerHigh_toNat (by omega)])
    have htail : l = rand255 (headerLow s.chainValues.toNat) (headerIndex s + 2) :=
      eq_rand255 (by rw [hl, headerLow_toNat])
    rw [exec_b256H2_long hs hscheme (isLongHeader_iff.2 ⟨by omega, h250, h1749, hhead, htail⟩),
      b256UpdateNormal_long rfl (by omega) rfl h250 (by omega), ← hhead, ← htail, state_go]
    refine ⟨_, rfl, rfl, ?_, readOut_writeOut_same .., fun a ha ha' => ?_⟩
    · rw [readOut_writeOut_other (by omega), readOut_writeOut_same]
    · rw [readOut_writeOut_other ha', readOut_writeOut_other ha]
  · have hhead : h = rand255 0#8 (headerIndex s + 1) := eq_rand255 (by rw [hh])
    have htwo : headerLength s = 2 := by omega
    have hshort : isShortHeader h s = false := Bool.eq_false_iff.2 fun hc => by
      obtain ⟨hone, -⟩ := isShortHeader_iff.1 hc
      omega
    have hexact : isExactHeader h s = true :=
      isExactHeader_iff.2 ⟨by rw [hin], by rw [b256ExactSize_some htwo hfind hz]; rfl, hhead⟩
    have hidx : headerIndex s + 1 < s.outLen.toNat := by
      rw [headerIndex]
      omega
    rw [exec_b256H1_exact hs hscheme hshort hexact, b256Complete_exact htwo hin (by omega) hfind hz, ← hhead, state_ended]
    have hread := readOut_collapsed hidx h
    refine ⟨_, rfl, ?_, (hread _).trans (if_pos rfl), fun j hj hj' => ?_, fun a ha => (hread a).trans ?_⟩
    · rw [b256ShiftDown_frame]
      rfl
    · obtain ⟨i, rfl⟩ := Nat.exists_eq_add_of_le' (show 1 ≤ j by omega)
      refine nominal_of_moved ((hread i).trans ?_)
      rw [if_neg (by omega), if_pos (by omega)]
      rfl
    · rw [if_neg (by omega), if_neg (by omega)]

end Sys2Proof.Machine
end

section
/-! PROOFS. The outcome registers (spec R62, R63, R104, R112, R271, R272): an operation of the encoder that goes on leaves them
undecided, and one that ends the encode leaves a reachable reason without a size, or the size of the symbol the output fills. -/

namespace Sys2Proof.Machine

/-! ### Undecided and decided states -/

/-- The encode runs and has neither a reason nor a size yet (R104). -/
abbrev Undecided (s : State) : Prop :=
  s.params.ok ∧ s.status = .encoding ∧ s.reason = .none ∧ s.sizeIdx = Config.undefCode

/-- Two postconditions of one operation. -/
theorem Flow.Meets.and {P Q E D : State → Prop} {f : Flow} (hf : f.Meets P D) (hg : f.Meets Q E) :
    f.Meets (fun u => P u ∧ Q u) E := by
  cases f with
  | go u => exact ⟨hf, hg⟩
  | ended u => exact hg

section
variable {s : State} {P : State → Prop}

theorem outcomeConsistent_of_undecided (h : Undecided s) : outcomeConsistent s := by
  obtain ⟨-, hs, hr, hz⟩ := h
  simp [outcomeConsistent, hs, hr, hz]

theorem undecided_of_consistent (hi : MachineInv s) (ho : outcomeConsistent s) (hs : s.status = .encoding) : Undecided s := by
  obtain ⟨hp, -⟩ := hi
  obtain ⟨hrun, -⟩ := ho
  obtain ⟨hr, hz⟩ := hrun (.inr hs)
  exact ⟨hp, hs, hr, hz⟩

/-- A reachable Invalid reason (R271). -/
theorem raise_invalid_outcome (h : Undecided s) {r : Reason} (hr : r.isReachableInvalid = true) :
    (raise .invalid r s).Meets P outcomeConsistent := by
  obtain ⟨-, -, -, hz⟩ := h
  simp [raise, Flow.Meets, outcomeConsistent, hr, hz]

/-- With the symbol filled and the input exhausted no guard of `complete` raises (R112, R272). -/
theorem complete_outcome (h : Undecided s) {z : Nat} (hz : z < s.params.nSizes) (hlen : s.outLen.toNat = dw s.params z)
    (hin : s.inLen.toNat ≤ s.inNext.toNat) : (complete z s).Meets P outcomeConsistent := by
  obtain ⟨⟨⟨-, hn⟩, -⟩, -, hr, -⟩ := h
  have hcode : (BitVec.ofNat 8 z).toNat = z := by
    rw [Config.Params.nSizes] at hz
    rw [BitVec.toNat_ofNat, Nat.mod_eq_of_lt (by omega)]
  obtain ⟨hne, -⟩ | ⟨-, hlt, -⟩ | ⟨-, -, e⟩ := complete_cases z s
  · exact absurd hlen hne
  · omega
  · rw [e]
    simpa [Flow.Meets, outcomeConsistent, hr, hcode] using ⟨hz, hlen⟩

/-! ### The sizes `find` gives (R255) -/

theorem mem_of_findAmong {p : Config.Params} {n z : Nat} {l : List Nat} (h : findAmong p n l = some z) : z ∈ l := by
  induction l generalizing z with
  | nil => cases h
  | cons y rest ih =>
    rw [findAmong] at h
    split at h
    · split_ifs at h
      cases h; exact List.mem_cons_self
    · split_ifs at h
      · cases h; exact List.mem_cons_self
      · cases h; exact List.mem_cons_of_mem _ (ih ‹_›)

theorem findSize_lt (hp : s.params.ok) {n z : Nat} (h : findSize s n = some z) : z < s.params.nSizes := by
  obtain ⟨-, -, ⟨-, -, hset⟩, -⟩ := hp
  unfold findSize find at h
  split_ifs at h with _ hfits
  · exact hset z (mem_of_findAmong h)
  · cases h; exact hfits.1

theorem findSize_of_findExact {n total z : Nat} (h : findExact s n total = some z) :
    findSize s n = some z ∧ dw s.params z = total := by
  unfold findExact at h
  split at h
  · split_ifs at h with hz
    cases h
    exact ⟨‹_›, hz⟩
  · cases h

/-! ### The appends and the pads (R43, R135, R137) -/

theorem chainAppend_outcome (h : Undecided s) (v : Byte)
    (k : P { writeOut s.outLen.toNat v s with outLen := s.outLen + 1#16, chainWords := s.chainWords + 1#16 }) :
    (chainAppend v s).Meets P outcomeConsistent := by
  obtain ⟨-, e⟩ | ⟨-, e⟩ := chainAppend_cases v s <;> rw [e]
  · exact raise_invalid_outcome (P := P) h rfl
  · exact k

theorem asciiAppend_outcome (v : Byte) (s : State) (h : Undecided s) : (asciiAppend v s).Meets Undecided outcomeConsistent :=
  .bind (chainAppend_outcome h v h)

/-- Pads fill the symbol exactly, so completion follows (R112, R137). -/
theorem pad_complete_outcome (h : Undecided s) {z : Nat} (hz : z < s.params.nSizes) (hlen : s.outLen.toNat ≤ dw s.params z)
    (hin : s.inLen.toNat ≤ s.inNext.toNat) : ((pad z s).andThen (complete z)).Meets P outcomeConsistent := by
  obtain ⟨hp, -⟩ := id h
  have hcap := outCap_le hp
  have hdw := dw_lt_outCap hp z
  obtain ⟨m, e, -⟩ := pad_fills hp hlen
  rw [e, andThen_go]
  refine complete_outcome ?_ hz (count_ofNat (by omega)) hin
  exact h

theorem finishSized_outcome (h : Undecided s) (hin : s.inLen.toNat ≤ s.inNext.toNat) :
    (finishSized s).Meets P outcomeConsistent := by
  obtain ⟨hp, -⟩ := id h
  obtain ⟨-, e⟩ | ⟨z, hfind, e⟩ := finishSized_cases s <;> rw [e]
  · exact raise_invalid_outcome (P := P) h rfl
  · exact pad_complete_outcome h (findSize_lt hp hfind) (le_dw_of_find hfind) hin

/-- The ASCII codewords of an implicit end, in a symbol that holds them (R167, R196). -/
theorem asciiAppendAll_fits (h : Undecided s) {tail : List Byte} {z : Nat}
    (hlen : s.outLen.toNat + tail.length ≤ dw s.params z) :
    ∃ t, asciiAppendAll tail s = .go t ∧ Undecided t ∧ t.params = s.params ∧ t.outLen.toNat = s.outLen.toNat + tail.length := by
  obtain ⟨hp, -⟩ := id h
  have hcap := outCap_le hp
  have hdw := dw_lt_outCap hp z
  obtain ⟨t, e, ht⟩ := asciiAppendAll_appended (s := s) (cws := tail) (by omega) (by omega)
  refine ⟨t, e, ?_, ?_, appended_outLen ht (by omega)⟩
  · rw [ht.1]; exact h
  · rw [ht.1]

/-! ### The ASCII packer (R134, R138) -/

theorem asciiChunk_outcome (h : Undecided s) : (asciiChunk s).Meets Undecided outcomeConsistent := by
  unfold asciiChunk
  split
  · exact h
  · exact (asciiAppendAll_meets asciiAppend_outcome _ h).andThen fun _ hu => hu

theorem asciiComplete_outcome (h : Undecided s) : (asciiComplete s).Meets Undecided outcomeConsistent := by
  unfold asciiComplete
  split
  · exact h
  · exact finishSized_outcome h (Nat.not_lt.1 ‹_›)

/-! ### The scheme change (R115 to R119) and the packers it runs -/

theorem ediPack_outcome (h : Undecided s) (e : BitVec 6) : (ediPack e s).Meets Undecided outcomeConsistent := by
  refine .bind ?_
  obtain ⟨-, eq⟩ | ⟨-, eq⟩ | ⟨-, eq⟩ | ⟨-, -, -, eq⟩ := ediPackBits_cases (s.chainValues.toNat % 4) (e.setWidth 8 <<< 2) s <;>
    rw [eq]
  · exact chainAppend_outcome h _ h
  · exact chainAppend_outcome (s := orLast _ s) h _ h
  · exact chainAppend_outcome (s := orLast _ s) h _ h
  · exact h

/-- A header length that allows the payload never raises B256_HEADER (R228, R272). -/
theorem b256WriteHeader_outcome (h : Undecided s) {hidx hl lc : Nat} (hfit : hl = 1 ∧ lc ≤ 249 ∨ hl = 2 ∧ 250 ≤ lc) :
    (b256WriteHeader hidx hl lc s).Meets Undecided outcomeConsistent := by
  obtain ⟨-, -, e⟩ | ⟨-, -, -, e⟩ | ⟨-, -, e⟩ | ⟨hshort, hlong, -⟩ := b256WriteHeader_cases hidx hl lc s
  · rw [e]; exact h
  · rw [e]; exact h
  · rw [e]; exact raise_invalid_outcome (P := Undecided) h rfl
  · exact absurd hfit (not_or.2 ⟨hshort, hlong⟩)

theorem b256ShiftUp_outcome (h : Undecided s) (i : Nat) : (b256ShiftUp i s).Meets Undecided outcomeConsistent := by
  unfold b256ShiftUp
  obtain ⟨-, e⟩ | ⟨-, e⟩ := insertAt_cases i s <;> rw [e]
  · exact raise_invalid_outcome (P := Undecided) h rfl
  · rw [andThen_go, copyUp_frame, rerandomize_frame]
    exact h

theorem b256UpdateNormal_outcome (h : Undecided s) (hfit : headerLength s = 1 ∨ headerLength s = 2 ∧ 250 ≤ s.chainValues.toNat) :
    (b256UpdateNormal s).Meets Undecided outcomeConsistent := by
  simp only [b256UpdateNormal]
  split
  · refine (b256ShiftUp_outcome h _).andThen fun u hu => ?_
    exact b256WriteHeader_outcome (s := { u with chainWords := u.chainWords + 1#16 }) hu (.inr ⟨rfl, by omega⟩)
  · exact b256WriteHeader_outcome h (by omega)

/-- The exit sequence at a triplet boundary (R116, R271). -/
theorem exitSequence_outcome (h : Undecided s) (hctx : (ctxSetOf s.scheme).isSome = true → s.chainValues.toNat % 3 = 0)
    (mode : ChangeMode) : (exitSequence mode s).Meets Undecided outcomeConsistent := by
  have hunlatch : (ctxSetOf s.scheme).isSome = true → (ctxUnlatch s).Meets Undecided outcomeConsistent := fun hset => by
    rw [ctxUnlatch, if_neg (not_not.2 (hctx hset))]
    exact chainAppend_outcome h _ h
  unfold exitSequence
  split
  next hs => exact hunlatch (by rw [hs]; rfl)
  next hs => exact hunlatch (by rw [hs]; rfl)
  next hs => exact hunlatch (by rw [hs]; rfl)
  · exact ediPack_outcome h _
  · exact h
  · exact h
  · exact h

theorem changeScheme_ascii_outcome (h : Undecided s) (hctx : (ctxSetOf s.scheme).isSome = true → s.chainValues.toNat % 3 = 0)
    (mode : ChangeMode) : (changeScheme .ascii mode s).Meets Undecided outcomeConsistent :=
  (exitSequence_outcome h hctx mode).andThen fun _ hu => hu

/-- From Ascii into another scheme, in Base256 with the placeholder's one-byte header (R115, R118, R119). -/
theorem changeScheme_enter_outcome (h : Undecided s) (hs : s.scheme = .ascii) {t : Scheme} (ht : t ≠ .ascii) :
    (changeScheme t .explicit s).Meets Undecided outcomeConsistent := by
  obtain ⟨rfl, -⟩ | ⟨c, hc, -⟩ := latchInto_cases t s
  · exact absurd rfl ht
  rw [changeScheme_from_ascii hs hc]
  refine (asciiAppend_outcome c s h).andThen fun u hu => ?_
  by_cases hb : t = .base256
  · rw [placeholder, if_pos hb]
    refine .bind (chainAppend_outcome ?_ _ ?_)
    · exact hu
    · exact b256UpdateNormal_outcome hu (.inl rfl)
  · rw [placeholder_other hb]
    exact hu

/-! ### The cursor (R12) -/

/-- An operation that does not read the cursor does not move it. -/
theorem cursor_kept {op : State → Flow} (hop : ∀ (a : Aside) (s : State), op (a.put s) = (op s).map a.put) (s : State) :
    (op s).Meets (fun u => u.inNext = s.inNext) fun _ => True := by
  have hsame : op s = (op s).map (Aside.put ⟨fun _ => s.inNext, id, id, id⟩) := hop ⟨fun _ => s.inNext, id, id, id⟩ s
  cases hs : op s with
  | go u =>
    rw [hs] at hsame
    have hput : u = Aside.put ⟨fun _ => s.inNext, id, id, id⟩ u := Flow.go.inj hsame
    have hnext := congrArg State.inNext hput
    exact hnext
  | ended u => trivial

theorem inLen_kept {f : Flow} (hf : f.Keeps s) : f.Meets (fun u => u.inLen = s.inLen) fun _ => True := by
  cases f with
  | go u =>
    obtain ⟨-, -, -, hlen, -⟩ := untouched_eq_iff.1 hf
    exact hlen
  | ended u => trivial

/-! ### The EDIFACT packer (R194 to R199, R257) -/

theorem ediChunk_outcome (h : Undecided s) : (ediChunk s).Meets Undecided outcomeConsistent := by
  simp only [ediChunk]
  split
  · exact h
  · split
    · exact (ediPack_outcome h _).andThen fun _ hu => hu
    · exact raise_invalid_outcome h rfl

theorem asciiUnitAt_pos (s : State) (i : Nat) : 0 < (asciiUnitAt s i).1.length := by
  unfold asciiUnitAt asciiByte
  split
  · exact Nat.one_pos
  · split <;> exact Nat.succ_pos _

theorem ediProbeLoop_length_le (n : Nat) : ∀ (j : Nat) (acc : List Byte), acc.length ≤ (ediProbeLoop s n j acc).2.length := by
  induction n with
  | zero => exact fun _ _ => Nat.le_refl _
  | succ n ih =>
    intro j acc
    simp only [ediProbeLoop]
    split_ifs
    · exact Nat.le_refl _
    · exact Nat.le_refl _
    · refine Nat.le_trans ?_ (ih _ _)
      rw [List.length_append]
      exact Nat.le_add_right _ _

/-- A probe that fits without a codeword found no input. -/
theorem exhausted_of_ediProbe (h : (ediProbe s).1 = true) (hlen : (ediProbe s).2.length = 0) :
    s.inLen.toNat ≤ s.inNext.toNat := by
  by_contra hlt
  have hpos := asciiUnitAt_pos s s.inNext.toNat
  simp only [ediProbe, ediProbeLoop, if_neg hlt] at h hlen
  split_ifs at h hlen
  have hle := ediProbeLoop_length_le (s := s) Config.ediScratch (s.inNext.toNat + (asciiUnitAt s s.inNext.toNat).2)
    ([] ++ (asciiUnitAt s s.inNext.toNat).1)
  rw [List.length_append] at hle
  omega

/-- The implicit end has the codewords of a probe that fits, and the size that holds them (R196). -/
theorem ediImplicitEnd_some {z : Nat} {tail : List Byte} (h : ediImplicitEnd s = some (z, tail)) :
    (ediProbe s).1 = true ∧ tail = (ediProbe s).2 ∧ findSize s (s.outLen.toNat + tail.length) = some z := by
  unfold ediImplicitEnd at h
  split_ifs at h with hfits
  obtain ⟨-, hprobe, -⟩ := hfits
  split at h
  · split_ifs at h
    cases h
    exact ⟨hprobe, rfl, ‹_›⟩
  · cases h

theorem ediEnd_outcome (h : Undecided s) (hs : s.scheme = .edifact) : (ediEnd s).Meets Undecided outcomeConsistent := by
  obtain ⟨hp, -⟩ := id h
  unfold ediEnd
  split
  next z tail hend =>
    obtain ⟨hprobe, rfl, hfind⟩ := ediImplicitEnd_some hend
    have hz := findSize_lt hp hfind
    split
    next hdone =>
      obtain ⟨hnone, hfull⟩ := hdone
      exact complete_outcome h hz hfull.symm (exhausted_of_ediProbe hprobe hnone)
    · rw [changeScheme_ascii_implicit, andThen_go]
      obtain ⟨t, e, ht, hparams, hlen⟩ := asciiAppendAll_fits
        (s := { s with scheme := .ascii, chainWords := 0#16, chainValues := 0#16 }) h (le_dw_of_find hfind)
      rw [e, andThen_go]
      have hroom : t.outLen.toNat ≤ dw t.params z := by
        rw [hlen, hparams]
        exact le_dw_of_find hfind
      exact pad_complete_outcome (s := { t with inNext := t.inLen }) ht (by rw [hparams]; exact hz) hroom (Nat.le_refl _)
  · split
    next hin =>
      have hctx : (ctxSetOf s.scheme).isSome = true → s.chainValues.toNat % 3 = 0 := fun hset => by rw [hs] at hset; cases hset
      refine ((cursor_kept (fun a s => changeScheme_put a s .ascii .explicit) s).and <|
        (inLen_kept (changeScheme_keeps s .ascii .explicit)).and (changeScheme_ascii_outcome h hctx .explicit)).andThen ?_
      rintro u ⟨hnext, hlen, hu⟩
      exact finishSized_outcome hu (by rw [hnext, hlen, hin])
    · exact h

/-! ### The Base256 packer (R224, R231) -/

theorem b256Chunk_outcome (h : Undecided s) (hrun : Running .base256 0 s) : (b256Chunk s).Meets Undecided outcomeConsistent := by
  have hrel := chainRelation_base256.1 hrun.chain
  have hw := hrun.chainWords_add (n := 1) (by omega)
  have hv := hrun.chainValues_add (n := 1) (by omega)
  unfold b256Chunk
  split
  · exact h
  · refine .bind (chainAppend_outcome h _ (b256UpdateNormal_outcome h ?_))
    simp only [headerLength, writeOut_chainValues, hw, hv]
    omega

theorem b256ExactSize_eq_some {z : Nat} (h : b256ExactSize s = some z) : headerLength s = 2 ∧
    findSize s (s.outLen.toNat - 1) = some z ∧ dw s.params z = s.outLen.toNat - 1 := by
  unfold b256ExactSize at h
  split_ifs at h with hl
  exact ⟨hl, findSize_of_findExact h⟩

theorem b256Complete_outcome (h : Undecided s) (hrun : Running .base256 0 s) :
    (b256Complete s).Meets Undecided outcomeConsistent := by
  have hlen : s.outLen.toNat = s.chainWords.toNat + 1 := hrun.length
  obtain ⟨hp, -⟩ := id h
  unfold b256Complete
  split
  · exact h
  next hleft =>
    have hin := Nat.not_lt.1 hleft
    split
    next z hexact =>
      obtain ⟨hl, hfind, hz⟩ := b256ExactSize_eq_some hexact
      have hfits : (s.outLen - 1#16).toNat = dw s.params z := (outLen_pred (by omega)).trans hz.symm
      rw [b256UpdatePerfect_fits rfl hl hfits, b256ShiftDown_frame, andThen_go]
      refine complete_outcome ?_ (findSize_lt hp hfind) hfits hin
      exact h
    · split
      · exact raise_invalid_outcome h rfl
      next z hfind =>
        rw [changeScheme_ascii_implicit, andThen_go]
        refine pad_complete_outcome ?_ (findSize_lt hp hfind) (le_dw_of_find hfind) hin
        exact h

/-! ### The CTX packer (R157 to R170) -/

theorem expand_error {k : CtxSet} {b : Byte} {r : Reason} (h : expand k b = .error r) : r.isReachableInvalid = true := by
  unfold expand expandX12 at h
  split at h
  · cases h
  · cases h
  · split_ifs at h <;> cases h <;> rfl

theorem ctxEmitPair_outcome (h : Undecided s) (p : BitVec 16) : (ctxEmitPair p s).Meets Undecided outcomeConsistent :=
  .bind (chainAppend_outcome h _ (.bind (chainAppend_outcome (s := { writeOut s.outLen.toNat _ s with
    outLen := s.outLen + 1#16
    chainWords := s.chainWords + 1#16 }) h _ h)))

theorem ctxPush_outcome (h : Undecided s) (v : CtxValue) : (ctxPush v s).Meets Undecided outcomeConsistent := by
  obtain ⟨-, e⟩ | ⟨-, e⟩ := ctxPush_cases v s <;> rw [e]
  · refine ctxEmitPair_outcome ?_ _
    exact h
  · exact h

theorem ctxPushAll_outcome (vals : List CtxValue) :
    ∀ {s : State}, Undecided s → (ctxPushAll vals s).Meets Undecided outcomeConsistent := by
  induction vals with
  | nil => exact fun h => h
  | cons v rest ih => exact fun h => (ctxPush_outcome h v).andThen fun _ hu => ih hu

theorem ctxByte_outcome (h : Undecided s) (k : CtxSet) : (ctxByte k s).Meets Undecided outcomeConsistent := by
  unfold ctxByte
  split
  · exact raise_invalid_outcome h (expand_error ‹_›)
  · refine ctxPushAll_outcome _ ?_
    exact h

theorem ctxLoop_outcome (k : CtxSet) (n : Nat) :
    ∀ {s : State}, Undecided s → (ctxLoop k n s).Meets Undecided outcomeConsistent := by
  induction n with
  | zero => exact fun h => h
  | succ n ih =>
    refine fun h => (ctxByte_outcome h k).andThen fun u hu => ?_
    split
    · exact hu
    · exact ih hu

/-- One pass takes one byte (R162). -/
theorem ctxByte_consumes (k : CtxSet) (s : State) :
    (ctxByte k s).Meets (fun u => u.inNext = s.inNext + 1#16 ∧ u.inLen = s.inLen) fun _ => True := by
  unfold ctxByte
  split
  · trivial
  · exact (cursor_kept (fun a s => ctxPushAll_put a _ s) _).and (inLen_kept (ctxPushAll_keeps _ _))

/-- The loop stops with an empty buffer or at the end of the input (R162). -/
theorem ctxLoop_stops {k : CtxSet} (n : Nat) : ∀ {s : State}, Running k.scheme 2 s → s.inNext ≠ s.inLen →
    s.inLen.toNat - s.inNext.toNat ≤ n → (ctxLoop k n s).Meets (fun u => u.ctxN = 0#3 ∨ u.inNext = u.inLen) fun _ => True := by
  induction n with
  | zero =>
    intro s h hne hn
    have := h.cursor_lt hne
    omega
  | succ n ih =>
    intro s h hne hn
    have hlt := h.cursor_lt hne
    have hnext := h.inNext_add (n := 1) hlt
    have hpass := (ctxByte_running h hlt).and (ctxByte_consumes k s)
    refine hpass.andThen ?_
    rintro u ⟨hu, hcursor, hlen⟩
    split
    · assumption
    next hgo => exact ih hu (not_or.1 hgo).2 (by rw [hcursor, hlen, hnext]; omega)

theorem ctxFinishInAscii_outcome (h : Undecided s) (hv : s.chainValues.toNat % 3 = 0) (tail : List Byte) :
    (ctxFinishInAscii tail s).Meets P outcomeConsistent := by
  obtain ⟨hp, -⟩ := id h
  unfold ctxFinishInAscii
  split
  next z hsize =>
    unfold ctxImplicitSize at hsize
    split_ifs at hsize with hone
    obtain ⟨hfind, hz⟩ := findSize_of_findExact hsize
    rw [changeScheme_ascii_implicit, andThen_go]
    obtain ⟨t, e, ht, hparams, hlen⟩ := asciiAppendAll_fits (tail := tail) (z := z)
      (s := { s with scheme := .ascii, chainWords := 0#16, chainValues := 0#16 }) h (by simp only; omega)
    rw [e, andThen_go]
    refine complete_outcome (s := { t with inNext := t.inLen }) ht ?_ ?_ (Nat.le_refl _)
    · rw [hparams]; exact findSize_lt hp hfind
    · rw [hlen, hparams, hone]; exact hz.symm
  · refine (changeScheme_ascii_outcome h (fun _ => hv) .explicit).andThen fun u hu => ?_
    refine (asciiAppendAll_meets asciiAppend_outcome tail hu).andThen fun v hv => ?_
    exact finishSized_outcome (s := { v with inNext := v.inLen }) hv (Nat.le_refl _)

/-- A pair that fills the symbol completes the encode (R160, R164). -/
theorem ctxPack_complete_outcome (h : Undecided s) {z : Nat} (hz : z < s.params.nSizes)
    (hlen : s.outLen.toNat + 2 = dw s.params z) (hin : s.inLen.toNat ≤ s.inNext.toNat) :
    ((ctxPack s).andThen (complete z)).Meets P outcomeConsistent := by
  obtain ⟨hp, -⟩ := id h
  have hcap := outCap_le hp
  have hdw := dw_lt_outCap hp z
  obtain ⟨t, ht, e⟩ := ctxEmitPair_room (p := ctxPair s.ctxBuf[0] s.ctxBuf[1] s.ctxBuf[2]) (s := s) (by omega) (by omega)
  have htwo : t.outLen.toNat = s.outLen.toNat + 2 := appended_outLen ht (by simp only [List.length_cons, List.length_nil]; omega)
  obtain ⟨ht, -⟩ := ht
  rw [ctxPack, e, andThen_go]
  refine complete_outcome ?_ ?_ (htwo.trans (hlen.trans ?_)) ?_ <;> rw [ht]
  · exact h
  · exact hz
  · exact hin

/-- A partial triplet at the end of the input ends the encode in one of its cases (R163 to R168). -/
theorem ctxPartial_outcome {k : CtxSet} (h : Undecided s) (hrun : Running k.scheme 2 s) (hin : s.inNext = s.inLen) :
    (ctxPartial k s).Meets P outcomeConsistent := by
  obtain ⟨hp, -⟩ := id h
  obtain ⟨hv, -⟩ := (chainRelation_ctx k).1 hrun.chain
  unfold ctxPartial
  split
  next z hsize =>
    unfold ctxShiftPadSize at hsize
    split_ifs at hsize with hpadded
    obtain ⟨htwo, -⟩ := hpadded
    obtain ⟨hfind, hz⟩ := findSize_of_findExact hsize
    obtain ⟨-, e⟩ | ⟨hne, -⟩ := ctxPush_cases 0#6 s
    · rw [e]
      refine ctxPack_complete_outcome ?_ (findSize_lt hp hfind) hz.symm (by rw [hin])
      exact h
    · exact absurd htwo hne
  · exact ctxFinishInAscii_outcome (s := ctxRollback s) h hv _

theorem ctxChunk_outcome {k : CtxSet} (h : Undecided s) (hrun : Running k.scheme 0 s) :
    (ctxChunk k s).Meets Undecided outcomeConsistent := by
  unfold ctxChunk
  split
  · exact h
  next hne =>
    have hrun2 : Running k.scheme 2 s := hrun.weaken (by omega)
    refine ((ctxLoop_running _ hrun2 hne).and <| (ctxLoop_stops _ hrun2 hne (Nat.le_refl _)).and (ctxLoop_outcome k _ h)).andThen ?_
    rintro u ⟨hu, hstop, ho⟩
    split
    next hheld =>
      have hn : u.ctxN ≠ 0#3 := fun e => by rw [e] at hheld; exact absurd hheld (by decide)
      exact ctxPartial_outcome ho hu (hstop.resolve_left hn)
    · exact ho

theorem ctx_of_running {k : CtxSet} {held : Nat} (h : Running k.scheme held s) :
    s.scheme = .c40 ∨ s.scheme = .text ∨ s.scheme = .x12 := by
  rw [h.scheme]
  cases k <;> decide

theorem ctxComplete_outcome {k : CtxSet} (h : Undecided s) (hrun : Running k.scheme 0 s) :
    (ctxComplete s).Meets Undecided outcomeConsistent := by
  obtain ⟨hp, -⟩ := id h
  obtain ⟨hv, -⟩ := (chainRelation_ctx k).1 hrun.chain
  unfold ctxComplete
  split
  · exact h
  next hleft =>
    split
    · exact raise_invalid_outcome h rfl
    next z hfind =>
      have hz := findSize_lt hp hfind
      have hdw := dw_lt_outCap hp z
      have hroom := le_dw_of_find hfind
      split
      next hfull => exact complete_outcome h hz hfull.symm (Nat.not_lt.1 hleft)
      next hnotFull =>
        have hlen : (s.outLen + 1#16).toNat = s.outLen.toNat + 1 := count_add (by have := outCap_le hp; omega)
        rw [changeScheme_ctx_room (ctx_of_running hrun) hv (by omega), andThen_go]
        have hunlatched : (s.outLen + 1#16).toNat ≤ dw s.params z := by omega
        refine pad_complete_outcome ?_ hz hunlatched (Nat.not_lt.1 hleft)
        exact h

/-! ### The iteration (R105 to R109) -/

theorem schemeCode_injective {t u : Scheme} (h : schemeCode t = schemeCode u) : t = u := by
  have hback : ∀ t, schemeOfCode (schemeCode t) = some t := fun t => by cases t <;> rfl
  exact Option.some.inj (by rw [← hback, h, hback])

/-- The scheme step reaches neither of its guards (R106, R272). -/
theorem schemeStep_outcome {t : Scheme} (hi : MachineInv s) (h : Undecided s) (ht : schemeCode t = s.target) :
    (schemeStep t s).Meets Undecided outcomeConsistent := by
  obtain ⟨-, hs, -⟩ := id h
  obtain ⟨-, -, -, -, -, hrun⟩ := hi
  obtain ⟨-, -, -, -, -, -, hfirst, hlater⟩ := hrun hs
  refine Flow.Meets.andThen (P := Undecided) ?_ fun _ hu => hu
  split
  · exact h
  next hother =>
    split
    next hlatched => exact absurd (schemeCode_injective ((hlater hlatched).trans ht.symm)) hother
    next hlatched =>
      obtain ⟨hascii, -⟩ := hfirst (Bool.eq_false_iff.2 hlatched)
      rw [if_neg (not_not.2 hascii)]
      exact changeScheme_enter_outcome h hascii fun e => hother (hascii.trans e.symm)

theorem preCheck_outcome (h : Undecided s) : (preCheck s).Meets Undecided outcomeConsistent := by
  unfold preCheck
  split
  · exact ediEnd_outcome h ‹_›
  · exact h

theorem chunk_outcome {t : Scheme} (h : Undecided s) (hrun : Running t 0 s) : (chunk s).Meets Undecided outcomeConsistent := by
  unfold chunk
  rw [hrun.scheme]
  cases t with
  | ascii => exact asciiChunk_outcome h
  | c40 => exact ctxChunk_outcome (k := .c40) h hrun
  | text => exact ctxChunk_outcome (k := .text) h hrun
  | x12 => exact ctxChunk_outcome (k := .x12) h hrun
  | edifact => exact ediChunk_outcome h
  | base256 => exact b256Chunk_outcome h hrun

theorem completeIfDone_outcome {t : Scheme} (h : Undecided s) (hrun : Running t 0 s) :
    (completeIfDone s).Meets Undecided outcomeConsistent := by
  unfold completeIfDone
  rw [hrun.scheme]
  cases t with
  | ascii => exact asciiComplete_outcome h
  | c40 => exact ctxComplete_outcome (k := .c40) h hrun
  | text => exact ctxComplete_outcome (k := .text) h hrun
  | x12 => exact ctxComplete_outcome (k := .x12) h hrun
  | edifact => exact ediEnd_outcome h hrun.scheme
  | base256 => exact b256Complete_outcome h hrun

theorem iterate_outcome {t : Scheme} (hi : MachineInv s) (h : Undecided s) (ht : schemeCode t = s.target) :
    (iterate t s).Meets Undecided outcomeConsistent := by
  obtain ⟨-, hs, -⟩ := id h
  refine ((schemeStep_running hi hs ht).and (schemeStep_outcome hi h ht)).andThen fun u ⟨hu, ho⟩ => ?_
  refine ((preCheck_running hu).and (preCheck_outcome ho)).andThen fun v ⟨hv, ho⟩ => ?_
  refine ((chunk_running hv).and (chunk_outcome ho hv)).andThen fun w ⟨hw, ho⟩ => ?_
  exact completeIfDone_outcome ho hw

theorem encoderTurn_outcome {u : State} (hi : MachineInv s) (ho : outcomeConsistent s) (hu : encoderTurn s = .next u) :
    outcomeConsistent u := by
  obtain ⟨-, e⟩ | ⟨t, hs, -, ht, e⟩ | ⟨-, -, e⟩ := encoderTurn_cases s <;> rw [e] at hu
  · cases hu; exact ho
  · cases hu
    exact (iterate_outcome hi (undecided_of_consistent hi ho hs) (schemeCode_of_schemeOfCode ht)).state
      (fun _ => outcomeConsistent_of_undecided) fun _ h => h
  · cases hu

/-! ### Host accesses (R100, R101) -/

/-- The reasons of START_CHECKS are reachable, each of its class (R101, R271, R272). -/
theorem startCheck_some {st : Status} {r : Reason} (h : startCheck s = some (st, r)) :
    (st = .fatal ∧ r.isReachableFatal = true) ∨ (st = .invalid ∧ r.isReachableInvalid = true) := by
  unfold startCheck at h
  split_ifs at h <;> cases h
  · exact .inl ⟨rfl, rfl⟩
  · exact .inl ⟨rfl, rfl⟩
  · exact .inr ⟨rfl, rfl⟩

theorem beginEncode_outcome (s : State) : outcomeConsistent (beginEncode s).state := by
  unfold beginEncode
  split
  · simp [outcomeConsistent]
  · obtain ⟨rfl, hr⟩ | ⟨rfl, hr⟩ := startCheck_some ‹_›
    · simp [outcomeConsistent, hr]
    · simp [outcomeConsistent, hr]

theorem hostEffect_outcome {t : State} (h : outcomeConsistent s) (he : HostEffect s t) : outcomeConsistent t := by
  cases he with
  | start _ => exact beginEncode_outcome s
  | _ => exact h

theorem hardReset_outcome (s : State) : outcomeConsistent (hardReset s) := by
  simp [outcomeConsistent]

end

/-! ### The obligation -/

/-- Settles O22, by the kinds of step, as for the machine invariant: an iteration (`iterate_outcome`), a host access and a reset. -/
theorem everyStepKeepsTheOutcomeConsistent : Obligations.EveryStepKeepsTheOutcomeConsistent := by
  intro s t hi ho hst
  obtain ⟨-, hturn⟩ | ⟨slot, rest, hq, hslot⟩ := step_cases hst
  · exact encoderTurn_outcome hi ho hturn
  obtain ⟨hhost, hrest⟩ := machineInv_of_queue hi hq
  obtain ⟨-, hturn⟩ | ⟨-, rfl⟩ | ⟨w, -, hbus⟩ | ⟨f, w, i, rfl, -⟩ := hslot
  · exact encoderTurn_outcome hrest ho hturn
  · exact hardReset_outcome _
  · obtain ⟨u, hu, heff⟩ := exec_host_effect (decodeHost_format w) { s with queue := rest }
    rw [runWord_host, hu] at hbus
    cases hbus
    exact hostEffect_outcome (s := { s with queue := rest }) ho heff
  · cases hhost

end Sys2Proof.Machine
end

section
/-! PROOFS. The latch as the first codeword (spec R106, R115, R118): once codeword 0 is emitted, no operation of the encoder writes
index 0 again: appends write at `out_len`, EDIFACT sets bits of the chain's own codewords, and a Base256 header stands in its chain. -/

namespace Sys2Proof.Machine

/-- The first codeword of the output is `c`; the output is in range, so its length does not wrap (R13). -/
def LedBy (c : Byte) (s : State) : Prop :=
  s.params.ok ∧ 0 < s.outLen.toNat ∧ s.outLen.toNat ≤ s.params.outCap ∧ readOut s 0 = c

section
variable {c : Byte} {s : State}

/-! ### What keeps the first codeword -/

/-- The operation leaves the first codeword, whether it goes on or has ended the encode. -/
def Flow.Leads (c : Byte) : Flow → Prop := Flow.Meets (LedBy c) (LedBy c)

theorem Flow.Leads.andThen {f : Flow} {k : State → Flow} (hf : f.Leads c) (hk : ∀ u, LedBy c u → (k u).Leads c) :
    (f.andThen k).Leads c := Flow.Meets.andThen hf hk

/-- Where the operation also keeps `P`, the next one may use it. -/
theorem Flow.Leads.andThen_and {P E : State → Prop} {f : Flow} {k : State → Flow} (hf : f.Leads c) (hP : f.Meets P E)
    (hk : ∀ u, LedBy c u → P u → (k u).Leads c) : (f.andThen k).Leads c := by
  cases f with
  | go u => exact hk u hf hP
  | ended u => exact hf

theorem LedBy.write (h : LedBy c s) {i : Nat} (hi : 0 < i) (v : Byte) : LedBy c (writeOut i v s) :=
  let ⟨hp, hpos, hroom, hfirst⟩ := h
  ⟨hp, hpos, hroom, (readOut_writeOut_other (by omega) v s).trans hfirst⟩

/-- One codeword written at `out_len`. -/
theorem LedBy.push (h : LedBy c s) (hl : s.outLen.toNat ≠ s.params.outCap) (v : Byte) :
    LedBy c { writeOut s.outLen.toNat v s with outLen := s.outLen + 1#16 } := by
  obtain ⟨hp, hpos, hroom, hfirst⟩ := h
  have hcap := outCap_le hp
  have hn : (s.outLen + 1#16).toNat = s.outLen.toNat + 1 := count_add (by omega)
  refine ⟨hp, ?_, ?_, (readOut_writeOut_other (by omega) v s).trans hfirst⟩ <;> simp only [hn, writeOut_params] <;> omega

theorem overflow_leads (h : LedBy c s) : (Flow.ended (overflowed s)).Leads c := h

theorem raise_leads (h : LedBy c s) (st : Status) (r : Reason) : (raise st r s).Leads c := h

/-! ### The appends and the ends of an encode -/

theorem complete_leads (h : LedBy c s) (z : Nat) : (complete z s).Leads c := by
  obtain ⟨-, e⟩ | ⟨-, -, e⟩ | ⟨-, -, e⟩ := complete_cases z s <;> rw [e] <;> exact h

theorem chainAppend_leads (h : LedBy c s) (v : Byte) : (chainAppend v s).Leads c := by
  obtain ⟨-, e⟩ | ⟨hl, e⟩ := chainAppend_cases v s <;> rw [e]
  · exact overflow_leads h
  · exact h.push hl v

theorem asciiAppend_leads (v : Byte) (s : State) (h : LedBy c s) : (asciiAppend v s).Leads c :=
  (chainAppend_leads h v).andThen fun _ hu => hu

theorem asciiAppendAll_leads (h : LedBy c s) (cws : List Byte) : (asciiAppendAll cws s).Leads c :=
  asciiAppendAll_meets asciiAppend_leads cws h

theorem padLoop_leads (n : Nat) : ∀ {first : Bool} {s : State}, LedBy c s → (padLoop n first s).Leads c := by
  induction n with
  | zero => exact fun h => h
  | succ n ih => exact fun h => (asciiAppend_leads _ _ h).andThen fun _ hu => ih hu

theorem pad_complete_leads (h : LedBy c s) (z : Nat) : ((pad z s).andThen (complete z)).Leads c :=
  (padLoop_leads _ h).andThen fun _ hu => complete_leads hu z

theorem finishSized_leads (h : LedBy c s) : (finishSized s).Leads c := by
  obtain ⟨-, e⟩ | ⟨z, -, e⟩ := finishSized_cases s <;> rw [e]
  · exact raise_leads h _ _
  · exact pad_complete_leads h z

/-! ### The EDIFACT packer (R192) -/

/-- Off the clean boundary the codeword in flight is one of the chain, after the latch. -/
theorem ediPack_leads (h : LedBy c s) (e : BitVec 6) (hflight : s.chainValues.toNat % 4 ≠ 0 → 2 ≤ s.outLen.toNat) :
    (ediPack e s).Leads c := by
  have hset : ∀ v, 2 ≤ s.outLen.toNat → LedBy c (orLast v s) := fun v hlen => h.write (by omega) _
  refine Flow.Leads.andThen ?_ fun _ hu => hu
  obtain ⟨-, eq⟩ | ⟨hp, eq⟩ | ⟨hp, eq⟩ | ⟨hp, -, -, eq⟩ :=
    ediPackBits_cases (s.chainValues.toNat % 4) (e.setWidth 8 <<< 2) s <;> rw [eq]
  · exact chainAppend_leads h _
  · exact chainAppend_leads (hset _ (hflight (by omega))) _
  · exact chainAppend_leads (hset _ (hflight (by omega))) _
  · exact hset _ (hflight hp)

/-- In a running EDIFACT chain the output is the latch and the chain (R24). -/
theorem Running.flight (h : Running .edifact 0 s) (hp : s.chainValues.toNat % 4 ≠ 0) : 2 ≤ s.outLen.toNat := by
  have hlen : s.outLen.toNat = s.chainWords.toNat + 1 := h.length
  have := chainRelation_edifact.1 h.chain
  omega

/-! ### The Base256 header (R226 to R229) -/

theorem b256WriteHeader_leads (h : LedBy c s) {hidx : Nat} (hi : 0 < hidx) (hl lc : Nat) :
    (b256WriteHeader hidx hl lc s).Leads c := by
  obtain ⟨-, -, e⟩ | ⟨-, -, -, e⟩ | ⟨-, -, e⟩ | ⟨-, -, e⟩ := b256WriteHeader_cases hidx hl lc s <;> rw [e]
  · exact h.write hi _
  · exact (h.write hi _).write (Nat.succ_pos _) _
  · exact raise_leads h _ _
  · exact raise_leads h _ _

theorem b256ShiftUp_leads (h : LedBy c s) {i : Nat} (hi : i ≤ s.outLen.toNat) : (b256ShiftUp i s).Leads c := by
  obtain ⟨hp, hpos, hroom, hfirst⟩ := id h
  have hcap := outCap_le hp
  by_cases hl : s.outLen.toNat = s.params.outCap
  · have hinsert : insertAt i s = .ended (overflowed s) := if_pos hl
    rw [b256ShiftUp, hinsert]
    exact overflow_leads h
  · have hn : (s.outLen + 1#16).toNat = s.outLen.toNat + 1 := count_add (by omega)
    obtain ⟨m, e, hm⟩ := b256ShiftUp_room (by omega) hi hl
    rw [e]
    have hkept : readOut { s with outMem := m } 0 = readOut s 0 := (hm 0).trans (if_neg (by omega))
    refine ⟨hp, ?_, ?_, hkept.trans hfirst⟩ <;> simp only [hn] <;> omega

/-- The header stands after the latch. -/
theorem b256UpdateNormal_leads (h : LedBy c s) (hw : 0 < s.chainWords.toNat) (hchain : s.chainWords.toNat < s.outLen.toNat) :
    (b256UpdateNormal s).Leads c := by
  have hidx : headerIndex s = s.outLen.toNat - s.chainWords.toNat := rfl
  have hpos : 0 < headerIndex s := by omega
  simp only [b256UpdateNormal]
  split
  · refine (b256ShiftUp_leads h (by omega)).andThen fun u hu => ?_
    exact b256WriteHeader_leads (s := { u with chainWords := u.chainWords + 1#16 }) hu hpos _ _
  · exact b256WriteHeader_leads h hpos _ _

theorem b256UpdatePerfect_leads (h : LedBy c s) (hchain : s.chainWords.toNat < s.outLen.toNat) (z : Nat) :
    (b256UpdatePerfect z s).Leads c := by
  have hidx : headerIndex s = s.outLen.toNat - s.chainWords.toNat := rfl
  have hhl : headerLength s = s.chainWords.toNat - s.chainValues.toNat := rfl
  obtain ⟨hp, hpos, hroom, hfirst⟩ := id h
  unfold b256UpdatePerfect
  split
  · exact raise_leads h _ _
  · have hin : headerIndex s + 1 < s.outLen.toNat := by omega
    have hn := outLen_pred hpos
    have hkept : readOut (b256ShiftDown (headerIndex s + 1) s) 0 = readOut s 0 :=
      (readOut_b256ShiftDown hin 0).trans (if_neg (by omega))
    have hdown : LedBy c (b256ShiftDown (headerIndex s + 1) s) := by
      rw [b256ShiftDown_frame] at hkept ⊢
      refine ⟨hp, ?_, ?_, hkept.trans hfirst⟩ <;> simp only [hn] <;> omega
    dsimp only
    split
    · exact hdown
    · exact hdown.write (by omega) _

/-! ### The scheme change (R115) -/

/-- The change out of a scheme; in EDIFACT the unlatch sets bits of the codeword in flight. -/
theorem changeScheme_ascii_leads (h : LedBy c s)
    (hflight : s.scheme = .edifact → s.chainValues.toNat % 4 ≠ 0 → 2 ≤ s.outLen.toNat) (mode : ChangeMode) :
    (changeScheme .ascii mode s).Leads c := by
  have hctx : (ctxUnlatch s).Leads c := by
    obtain ⟨-, e⟩ | ⟨-, e⟩ := ctxUnlatch_cases s <;> rw [e]
    · exact raise_leads h _ _
    · exact chainAppend_leads h _
  rw [changeScheme_ascii]
  refine Flow.Leads.andThen ?_ fun _ hu => hu
  unfold exitSequence
  split
  · exact hctx
  · exact hctx
  · exact hctx
  · exact ediPack_leads h _ (hflight ‹_›)
  · exact h
  · exact h
  · exact h

/-- An empty output, in Ascii: the latch becomes its first codeword (R106, R118). -/
theorem changeScheme_enter_leads {t : Scheme} (hp : s.params.ok) (hs : s.scheme = .ascii) (hlen : s.outLen = 0#16)
    (hc : latchCodeword t = some c) : (changeScheme t .explicit s).Leads c := by
  have hcap := outCap_pos hp
  have hentered : LedBy c (entered t c s) := by
    have hn : (entered t c s).outLen.toNat = 1 := by simp [entered, hlen]
    have hfirst : readOut (entered t c s) 0 = if 0 = s.outLen.toNat then c else readOut s 0 := readOut_writeOut _ 0 c s
    exact ⟨hp, by omega, by rw [hn]; exact hcap, hfirst.trans (if_pos (by rw [hlen]; rfl))⟩
  rw [changeScheme_latch_room hs hc (by rw [hlen]; exact hcap)]
  unfold placeholder
  split
  · obtain ⟨-, e⟩ | ⟨hl, e⟩ := chainAppend_cases 0#8 (entered t c s) <;> rw [e]
    · exact overflow_leads hentered
    · have hu := hentered.push hl 0#8
      rw [andThen_go]
      refine b256UpdateNormal_leads ?_ ?_ ?_
      · exact hu
      · simp [entered]
      · simp [entered, hlen]
  · exact hentered

/-! ### The chunks and the completions (R134 to R138, R159 to R170, R194 to R199, R224, R231) -/

theorem asciiChunk_leads (h : LedBy c s) : (asciiChunk s).Leads c := by
  unfold asciiChunk
  split
  · exact h
  · exact (asciiAppendAll_leads h _).andThen fun _ hu => hu

theorem asciiComplete_leads (h : LedBy c s) : (asciiComplete s).Leads c := by
  unfold asciiComplete
  split
  · exact h
  · exact finishSized_leads h

theorem ediChunk_leads (h : LedBy c s) (hrun : Running .edifact 0 s) : (ediChunk s).Leads c := by
  simp only [ediChunk]
  split
  · exact h
  · split
    · exact (ediPack_leads h _ hrun.flight).andThen fun _ hu => hu
    · exact raise_leads h _ _

theorem ediEnd_leads (h : LedBy c s) (hrun : Running .edifact 0 s) : (ediEnd s).Leads c := by
  unfold ediEnd
  split
  · split
    · exact complete_leads h _
    · refine (changeScheme_ascii_leads h (fun _ => hrun.flight) .implicit).andThen fun u hu => ?_
      refine (asciiAppendAll_leads hu _).andThen fun v hv => ?_
      exact pad_complete_leads (s := { v with inNext := v.inLen }) hv _
  · split
    · exact (changeScheme_ascii_leads h (fun _ => hrun.flight) .explicit).andThen fun _ hu => finishSized_leads hu
    · exact h

theorem b256Chunk_leads (h : LedBy c s) (hrun : Running .base256 0 s) : (b256Chunk s).Leads c := by
  have hlen : s.outLen.toNat = s.chainWords.toNat + 1 := hrun.length
  have hw := hrun.chainWords_add (n := 1) (by omega)
  unfold b256Chunk
  split
  · exact h
  · obtain ⟨-, e⟩ | ⟨hl, e⟩ := chainAppend_cases (rand255 (readIn s s.inNext.toNat) (s.outLen.toNat + 1)) s <;> rw [e]
    · exact overflow_leads h
    · have hn := hrun.outLen_succ (Nat.lt_of_le_of_ne hrun.room hl)
      have hu := h.push hl (rand255 (readIn s s.inNext.toNat) (s.outLen.toNat + 1))
      rw [andThen_go]
      refine b256UpdateNormal_leads ?_ ?_ ?_
      · exact hu
      · simp only [hw]; omega
      · simp only [hw, hn]; omega

theorem b256Complete_leads (h : LedBy c s) (hrun : Running .base256 0 s) : (b256Complete s).Leads c := by
  have hlen : s.outLen.toNat = s.chainWords.toNat + 1 := hrun.length
  unfold b256Complete
  split
  · exact h
  · split
    · exact (b256UpdatePerfect_leads h (by omega) _).andThen fun u hu => complete_leads hu _
    · split
      · exact raise_leads h _ _
      · rw [changeScheme_ascii_implicit, andThen_go]
        refine pad_complete_leads ?_ _
        exact h

theorem ctxPush_leads (v : CtxValue) (h : LedBy c s) : (ctxPush v s).Leads c := by
  obtain ⟨-, e⟩ | ⟨-, e⟩ := ctxPush_cases v s <;> rw [e]
  · refine Flow.Leads.andThen (chainAppend_leads ?_ _) fun u hu => (chainAppend_leads hu _).andThen fun _ hw => hw
    exact h
  · exact h

theorem ctxPushAll_leads (vals : List CtxValue) : ∀ {s : State}, LedBy c s → (ctxPushAll vals s).Leads c := by
  induction vals with
  | nil => exact fun h => h
  | cons v rest ih => exact fun h => (ctxPush_leads v h).andThen fun _ hu => ih hu

theorem ctxLoop_leads (k : CtxSet) (n : Nat) : ∀ {s : State}, LedBy c s → (ctxLoop k n s).Leads c := by
  induction n with
  | zero => exact fun h => h
  | succ n ih =>
    intro s h
    have hbyte : (ctxByte k s).Leads c := by
      unfold ctxByte
      split
      · exact raise_leads h _ _
      · refine ctxPushAll_leads _ ?_
        exact h
    refine hbyte.andThen fun u hu => ?_
    split
    · exact hu
    · exact ih hu

/-- A partial triplet ends the encode in a CTX scheme, which has no codeword in flight. -/
theorem ctxPartial_leads {k : CtxSet} (h : LedBy c s) (hs : s.scheme ≠ .edifact) : (ctxPartial k s).Leads c := by
  have hback : LedBy c (ctxRollback s) := h
  have tailed : ∀ (tail : List Byte) (u : State), LedBy c u →
      (asciiAppendAll tail u).Meets (fun v => LedBy c { v with inNext := v.inLen }) (LedBy c) := fun tail u hu =>
    Flow.Meets.mono (asciiAppendAll_leads hu tail) fun _ hv => hv
  have hflight : (ctxRollback s).scheme = .edifact → (ctxRollback s).chainValues.toNat % 4 ≠ 0 →
      2 ≤ (ctxRollback s).outLen.toNat := fun e => absurd e hs
  unfold ctxPartial
  split
  · exact (ctxPush_leads _ h).andThen fun u hu => complete_leads hu _
  · unfold ctxFinishInAscii
    split
    · exact (changeScheme_ascii_leads hback hflight .implicit).andThen fun u hu =>
        Flow.Meets.andThen (tailed _ u hu) fun v hv => complete_leads hv _
    · exact (changeScheme_ascii_leads hback hflight .explicit).andThen fun u hu =>
        Flow.Meets.andThen (tailed _ u hu) fun v hv => finishSized_leads hv

theorem Running.not_edifact {k : CtxSet} {held : Nat} (h : Running k.scheme held s) : s.scheme ≠ .edifact := by
  rw [h.scheme]
  cases k <;> decide

theorem ctxChunk_leads {k : CtxSet} (h : LedBy c s) (hrun : Running k.scheme 0 s) : (ctxChunk k s).Leads c := by
  unfold ctxChunk
  split
  · exact h
  · refine (ctxLoop_leads k _ h).andThen_and (ctxLoop_running _ (hrun.weaken (by omega)) ‹_›) fun u hu hrunu => ?_
    split
    · exact ctxPartial_leads hu hrunu.not_edifact
    · exact hu

theorem ctxComplete_leads (h : LedBy c s) (hs : s.scheme ≠ .edifact) : (ctxComplete s).Leads c := by
  unfold ctxComplete
  split
  · exact h
  · split
    · exact raise_leads h _ _
    · split
      · exact complete_leads h _
      · exact (changeScheme_ascii_leads h (fun e => absurd e hs) .explicit).andThen fun _ hu => pad_complete_leads hu _

/-! ### The iteration (R105 to R109) -/

section
variable {t : Scheme}

theorem preCheck_leads (h : LedBy c s) (hrun : Running t 0 s) : (preCheck s).Leads c := by
  unfold preCheck
  split
  next hs =>
    obtain rfl : t = .edifact := hrun.scheme.symm.trans hs
    exact ediEnd_leads h hrun
  · exact h

theorem chunk_leads (h : LedBy c s) (hrun : Running t 0 s) : (chunk s).Leads c := by
  unfold chunk
  rw [hrun.scheme]
  cases t with
  | ascii => exact asciiChunk_leads h
  | c40 => exact ctxChunk_leads (k := .c40) h hrun
  | text => exact ctxChunk_leads (k := .text) h hrun
  | x12 => exact ctxChunk_leads (k := .x12) h hrun
  | edifact => exact ediChunk_leads h hrun
  | base256 => exact b256Chunk_leads h hrun

theorem completeIfDone_leads (h : LedBy c s) (hrun : Running t 0 s) : (completeIfDone s).Leads c := by
  unfold completeIfDone
  rw [hrun.scheme]
  cases t with
  | ascii => exact asciiComplete_leads h
  | c40 => exact ctxComplete_leads h (hrun.not_edifact (k := .c40))
  | text => exact ctxComplete_leads h (hrun.not_edifact (k := .text))
  | x12 => exact ctxComplete_leads h (hrun.not_edifact (k := .x12))
  | edifact => exact ediEnd_leads h hrun
  | base256 => exact b256Complete_leads h hrun

/-- The scheme step of the first iteration emits the latch, that of a later one finds it (R106). -/
theorem schemeStep_leads (hi : MachineInv s) (hs : s.status = .encoding) (ht : schemeCode t = s.target)
    (hc : latchCodeword t = some c) (hfirst : s.latched = true → readOut s 0 = c) : (schemeStep t s).Leads c := by
  obtain ⟨hp, -, -, -, -, hrun⟩ := hi
  obtain ⟨-, -, hroom, hlen, -, -, hnew, hlatched⟩ := hrun hs
  refine Flow.Leads.andThen ?_ fun _ hu => hu
  cases hl : s.latched with
  | false =>
    obtain ⟨hascii, hout, -⟩ := hnew hl
    have hne : s.scheme ≠ t := fun e => by rw [← e, hascii] at hc; cases hc
    rw [if_neg hne, if_neg Bool.false_ne_true, if_neg (not_not.2 hascii)]
    exact changeScheme_enter_leads hp hascii hout hc
  | true =>
    have hin : s.scheme = t := schemeCode_injective ((hlatched hl).trans ht.symm)
    have hne : s.scheme ≠ .ascii := fun e => by rw [← hin, e] at hc; cases hc
    rw [if_neg hne] at hlen
    rw [if_pos hin]
    exact ⟨hp, by omega, hroom, hfirst hl⟩

theorem iterate_leads (hi : MachineInv s) (hs : s.status = .encoding) (ht : schemeCode t = s.target)
    (hc : latchCodeword t = some c) (hfirst : s.latched = true → readOut s 0 = c) : (iterate t s).Leads c :=
  (schemeStep_leads hi hs ht hc hfirst).andThen_and (schemeStep_running hi hs ht) fun _ hu hrunu =>
    (preCheck_leads hu hrunu).andThen_and (preCheck_running hrunu) fun _ hv hrunv =>
      (chunk_leads hv hrunv).andThen_and (chunk_running hrunv) fun _ hw hrunw => completeIfDone_leads hw hrunw

end

end

/-! ### The obligation -/

/-- The turn of a running encode with a legal configuration is one iteration in the scheme the target names (R105). -/
theorem encoderTurn_iterate {s : State} {t : Scheme} (hs : s.status = .encoding) (hcheck : startCheck s = none)
    (ht : schemeOfCode s.target = some t) : encoderTurn s = .next (iterate t s).state := by
  rw [encoderTurn, if_pos hs, checkedTarget, hcheck, ht]
  rfl

/-- Settles O27: the scheme step makes the latch the first codeword or finds it there, and the rest of the iteration keeps it. -/
theorem latchIsTheFirstCodeword : Obligations.LatchIsTheFirstCodeword := by
  intro s t goal c hi hs hgoal hc hfirst hturn
  obtain ⟨-, -, -, -, -, hrun⟩ := id hi
  obtain ⟨hcheck, -⟩ := hrun hs
  rw [encoderTurn_iterate hs hcheck hgoal] at hturn
  cases hturn
  have hled : LedBy c (iterate goal s).state :=
    (iterate_leads hi hs (schemeCode_of_schemeOfCode hgoal) hc hfirst).state (fun _ h => h) fun _ h => h
  obtain ⟨-, hpos, -, hled⟩ := hled
  exact ⟨hpos, hled⟩

end Sys2Proof.Machine
end

section
/-! PROOFS. Beginning an encode (spec R66, R100 to R103, R111): START writes the stream's registers and the outcome of its first failing
check, and no other access and no codeword unit can make an encode run. -/

namespace Sys2Proof.Machine

section
variable {s : State}

/-! ### START_CHECKS (R101) -/

/-- The state START leaves: the registers of R100 and the outcome of the first check that applies. -/
theorem beginEncode_state (s : State) : (beginEncode s).state = { startState s with
    status := ((startCheck s).getD (.encoding, .none)).1
    reason := ((startCheck s).getD (.encoding, .none)).2 } := by
  have hcheck : startCheck (startState s) = startCheck s := rfl
  rw [beginEncode, hcheck]
  cases startCheck s <;> rfl

/-! ### Which steps can make an encode run (R111) -/

/-- A write of any place but CTRL leaves the status, and one of CTRL is START or has no effect (R100, R103). -/
theorem exec_decodeWrite_status (p : Place) (d : Word) (s : State) :
    (∃ hi, decodeWrite p d = .start hi) ∨ ∃ t, exec (decodeWrite p d) s = .next t ∧ t.status = s.status := by
  have guarded : ∀ f : State → State, (∀ u, (f u).status = u.status) → (unlessEncoding f s).status = s.status := fun f hf => by
    unfold unlessEncoding
    split
    · rfl
    · exact hf s
  cases p with
  | ctrl =>
    by_cases hd : d.getLsbD 0
    · exact .inl ⟨_, if_pos hd⟩
    · refine .inr ⟨s, ?_, rfl⟩
      simp only [decodeWrite, if_neg hd]
      rfl
  | target | hint | inLen => exact .inr ⟨_, rfl, guarded _ fun _ => rfl⟩
  | inMem i =>
    refine .inr ⟨_, rfl, guarded _ fun u => ?_⟩
    split <;> rfl
  | status | reason | sizeIdx | outLen | caps | nsizes | dbgCursor | dbgScheme | dbgChain | dbgCtx | outMem _ | unmapped _ =>
    exact .inr ⟨s, rfl, rfl⟩

/-- A bus transaction other than START leaves the status. -/
theorem exec_decodeHost_status (w : BitVec 49) (s : State) :
    (∃ hi, decodeHost w = .start hi) ∨ ∃ t, exec (decodeHost w) s = .next t ∧ t.status = s.status := by
  unfold decodeHost
  split
  · exact exec_decodeWrite_status _ _ s
  · obtain ⟨t, e, v, n, rfl⟩ := exec_decodeRead (addressMap (w.extractLsb' 32 16)) s
    exact .inr ⟨_, e, rfl⟩

/-- A word of a codeword format decodes to a codeword row. -/
theorem decode_format_ne_host {f : Format} {w : Raw} {i : Instr} (hf : f ≠ .host) (h : decode f w = .ok i) :
    i.format ≠ .host := by
  unfold decode at h
  split at h
  · cases h
  cases f with
  | host => exact absurd rfl hf
  | cw8 => simp only [decodeCw8] at h; split_ifs at h <;> cases h <;> exact nofun
  | asciiUs => simp only [decodeAsciiUs] at h; split_ifs at h; cases h; exact nofun
  | ctx16 => simp only [decodeCtx16] at h; split_ifs at h; cases h; exact nofun
  | pad => simp only [decodePad] at h; split_ifs at h; cases h; exact nofun
  | ediSlot => dsimp only at h; split_ifs at h; cases h; exact nofun
  | edi24 | b256H1 | b256H2 | b256D => cases h; exact nofun

theorem encoderTurn_idle (h : s.status ≠ .encoding) : encoderTurn s = .next s := if_neg h

theorem exec_codeword_idle {i : Instr} (hi : i.format ≠ .host) (h : s.status ≠ .encoding) : exec i s = .next s := by
  obtain ⟨here, op, hexec, -⟩ := exec_codeword hi
  rw [hexec, emitUnit_idle h]

/-- Outside an encode a step is a bus transaction, a hardware reset, or no more than the schedule moving on. -/
theorem step_idle_cases {t : State} (hs : s.status ≠ .encoding) (h : step s = .next t) :
    (∃ w rest, s.queue = .bus w :: rest ∧ exec (decodeHost w) { s with queue := rest } = .next t) ∨
    (∃ rest, s.queue = .reset :: rest ∧ t = hardReset { s with queue := rest }) ∨
    t = { s with queue := s.queue.tail } := by
  obtain ⟨hq, hturn⟩ | ⟨slot, rest, hq, hslot⟩ := step_cases h
  · rw [encoderTurn_idle hs] at hturn
    cases hturn
    exact .inr (.inr (by rw [hq, List.tail_nil, ← hq]))
  have hrest : s.queue.tail = rest := by rw [hq, List.tail_cons]
  rw [hrest]
  obtain ⟨-, hturn⟩ | ⟨rfl, ht⟩ | ⟨w, rfl, hword⟩ | ⟨f, w, i, -, hf, hd, hexec⟩ := hslot
  · rw [encoderTurn_idle (s := { s with queue := rest }) hs] at hturn
    exact .inr (.inr (Host.Outcome.next.inj hturn).symm)
  · exact .inr (.inl ⟨rest, hq, ht⟩)
  · exact .inl ⟨w, rest, hq, (runWord_host w _).symm.trans hword⟩
  · rw [exec_codeword_idle (s := { s with queue := rest }) (decode_format_ne_host hf hd) hs] at hexec
    exact .inr (.inr (Host.Outcome.next.inj hexec).symm)

end

/-! ### The obligations -/

/-- Settles O7: the checks are one chain of conditions on the configuration, which START does not write. -/
theorem startBeginsAnEncode : Obligations.StartBeginsAnEncode := by
  intro hi s hs
  refine (next_write_idle hs _).trans (congrArg Host.Outcome.next ?_)
  rw [beginEncode_state, show 0xFF#8 = Config.undefCode from rfl, startCheck]
  split_ifs <;> rfl

/-- Settles O8: a busy START is a guarded write, and the other rows of CTRL have no effect of their own. -/
theorem ctrlWritesWithoutEffect : Obligations.CtrlWritesWithoutEffect :=
  ⟨fun _ _ hs => next_write_busy hs _, fun _ _ => rfl, fun _ => rfl⟩

/-- Settles O17, by the kinds of step: an idle encoder and its units write nothing, and of the accesses only START sets the status. -/
theorem encoderIsFrozenOutsideAnEncode : Obligations.EncoderIsFrozenOutsideAnEncode := by
  intro s hs
  refine ⟨encoderTurn_idle hs, fun t hst ht => ?_, fun t hst hbus hreset => ?_⟩
  · obtain ⟨w, rest, hq, hexec⟩ | ⟨rest, -, rfl⟩ | rfl := step_idle_cases hs hst
    · obtain ⟨hi, hstart⟩ | ⟨u, hu, hstatus⟩ := exec_decodeHost_status w { s with queue := rest }
      · exact ⟨w, rest, hi, hq, hstart⟩
      · rw [hu] at hexec
        cases hexec
        exact absurd (hstatus.symm.trans ht) hs
    · cases ht
    · exact absurd ht hs
  · obtain ⟨w, rest, hq, -⟩ | ⟨rest, hq, -⟩ | ht := step_idle_cases hs hst
    · exact absurd hq (hbus w rest)
    · exact absurd hq (hreset rest)
    · exact ht

end Sys2Proof.Machine
end

section
/-! PROOFS. What an iteration does to the registers beside the output (spec R105 to R114): an operation on the output leaves them, a chunk
moves the cursor, a completion waits for the end of the input, and an encode that completes has consumed its input and filled its
symbol. -/

namespace Sys2Proof.Machine

/-! ### The registers beside the output -/

/-- The state without its output, chain counters and CTX buffer: what operations on the output leave as it was. -/
def control (s : State) : State :=
  { s with
    outMem := []
    outLen := 0#16
    chainWords := 0#16
    chainValues := 0#16
    ctxBuf := #v[0#6, 0#6, 0#6, 0#6]
    ctxN := 0#3
    ctxLastn := 0#3 }

theorem control_fields {s t : State} (h : control t = control s) :
    t.params = s.params ∧ t.inLen = s.inLen ∧ t.inNext = s.inNext ∧ t.scheme = s.scheme ∧ t.status = s.status := by
  simp only [control, State.mk.injEq] at h
  obtain ⟨hparams, -, -, hlen, hnext, -, hscheme, -, -, hstatus, -⟩ := h
  exact ⟨hparams, hlen, hnext, hscheme, hstatus⟩

theorem control_scheme {s u : State} (h : control u = control s) (t : Scheme) :
    control { u with scheme := t } = control { s with scheme := t } := congrArg (fun w : State => { w with scheme := t }) h

theorem control_cursor {s u : State} (h : control u = control s) (n : Count) :
    control { u with inNext := n } = control { s with inNext := n } := congrArg (fun w : State => { w with inNext := n }) h

/-- What R114 says of a completed encode. -/
def Filled (s : State) : Prop :=
  s.status = .complete → s.inNext = s.inLen ∧ s.sizeIdx.toNat < s.params.nSizes ∧ s.outLen.toNat = dw s.params s.sizeIdx.toNat

theorem filled_of_ne {s : State} (h : s.status ≠ .complete) : Filled s := fun hc => absurd hc h

theorem Flow.Meets.imp {P Q E D : State → Prop} {f : Flow} (hf : f.Meets P E) (hP : ∀ u, P u → Q u) (hE : ∀ u, E u → D u) :
    f.Meets Q D := by
  cases f with
  | go u => exact hP u hf
  | ended u => exact hE u hf

/-- Operations that agree on where the first one goes on. -/
theorem Flow.andThen_congr {P E : State → Prop} {f : Flow} {k k' : State → Flow} (hf : f.Meets P E) (h : ∀ u, P u → k u = k' u) :
    f.andThen k = f.andThen k' := by
  cases f with
  | go u => exact h u hf
  | ended u => rfl

/-- The operation goes on with the control registers of `s`, or has raised. -/
def Flow.Steady (s : State) : Flow → Prop := Flow.Meets (fun u => control u = control s) Filled

theorem Flow.Steady.andThen {s : State} {f : Flow} {k : State → Flow} (hf : f.Steady s) (hk : ∀ u, (k u).Steady u) :
    (f.andThen k).Steady s :=
  Flow.Meets.andThen hf fun u hu => (hk u).mono fun _ hv => hv.trans hu

section
variable (s : State)

theorem raise_steady {st : Status} (hst : st ≠ .complete) (r : Reason) : (raise st r s).Steady s := filled_of_ne hst

theorem chainAppend_steady (v : Byte) : (chainAppend v s).Steady s := by
  obtain ⟨-, e⟩ | ⟨-, e⟩ := chainAppend_cases v s <;> rw [e]
  · exact filled_of_ne nofun
  · rfl

theorem asciiAppend_steady (v : Byte) : (asciiAppend v s).Steady s := (chainAppend_steady s v).andThen fun _ => rfl

theorem asciiAppendAll_steady (cws : List Byte) : ∀ s, (asciiAppendAll cws s).Steady s := by
  induction cws with
  | nil => exact fun _ => rfl
  | cons c rest ih => exact fun s => (asciiAppend_steady s c).andThen ih

theorem padLoop_steady (n : Nat) : ∀ (first : Bool) (s : State), (padLoop n first s).Steady s := by
  induction n with
  | zero => exact fun _ _ => rfl
  | succ n ih => exact fun _ s => (asciiAppend_steady s _).andThen (ih false)

theorem ediPack_steady (e : BitVec 6) : (ediPack e s).Steady s := by
  refine Flow.Steady.andThen ?_ fun _ => rfl
  obtain ⟨-, eq⟩ | ⟨-, eq⟩ | ⟨-, eq⟩ | ⟨-, -, -, eq⟩ :=
    ediPackBits_cases (s.chainValues.toNat % 4) (e.setWidth 8 <<< 2) s <;> rw [eq]
  · exact chainAppend_steady s _
  · exact chainAppend_steady (orLast _ s) _
  · exact chainAppend_steady (orLast _ s) _
  · rfl

theorem b256WriteHeader_steady (hidx hl lc : Nat) : (b256WriteHeader hidx hl lc s).Steady s := by
  obtain ⟨-, -, e⟩ | ⟨-, -, -, e⟩ | ⟨-, -, e⟩ | ⟨-, -, e⟩ := b256WriteHeader_cases hidx hl lc s <;> rw [e]
  · rfl
  · rfl
  · exact filled_of_ne nofun
  · exact filled_of_ne nofun

theorem b256UpdateNormal_steady : (b256UpdateNormal s).Steady s := by
  have hup : ∀ i, (b256ShiftUp i s).Steady s := fun i => by
    unfold b256ShiftUp
    obtain ⟨-, e⟩ | ⟨-, e⟩ := insertAt_cases i s <;> rw [e]
    · exact filled_of_ne nofun
    · rw [andThen_go, copyUp_frame, rerandomize_frame]
      rfl
  simp only [b256UpdateNormal]
  split
  · exact (hup _).andThen fun u => b256WriteHeader_steady { u with chainWords := u.chainWords + 1#16 } _ _ _
  · exact b256WriteHeader_steady s _ _ _

theorem b256UpdatePerfect_steady (z : Nat) : (b256UpdatePerfect z s).Steady s := by
  unfold b256UpdatePerfect
  split
  · exact raise_steady s (by decide) _
  · have hdown : control (b256ShiftDown (headerIndex s + 1) s) = control s := by rw [b256ShiftDown_frame]; rfl
    dsimp only
    split
    · exact filled_of_ne nofun
    · exact hdown

theorem exitSequence_steady (mode : ChangeMode) : (exitSequence mode s).Steady s := by
  have hctx : (ctxUnlatch s).Steady s := by
    obtain ⟨-, e⟩ | ⟨-, e⟩ := ctxUnlatch_cases s <;> rw [e]
    · exact filled_of_ne nofun
    · exact chainAppend_steady s _
  unfold exitSequence
  split
  · exact hctx
  · exact hctx
  · exact hctx
  · exact ediPack_steady s _
  · rfl
  · rfl
  · rfl

/-- The scheme change goes on in its scheme (R115). -/
theorem changeScheme_steady (t : Scheme) (mode : ChangeMode) : (changeScheme t mode s).Steady { s with scheme := t } := by
  have hplace : ∀ u, (placeholder t u).Steady u := fun u => by
    unfold placeholder
    split
    · exact (chainAppend_steady u _).andThen b256UpdateNormal_steady
    · rfl
  have hlatch : ∀ u : State, (latchInto t { u with scheme := .ascii }).Steady { u with scheme := t } := fun u => by
    obtain ⟨rfl, e⟩ | ⟨c, -, e⟩ := latchInto_cases t { u with scheme := .ascii } <;> rw [e]
    · rfl
    · exact Flow.Meets.andThen (asciiAppend_steady _ c) fun _ hv => control_scheme hv t
  refine Flow.Meets.andThen (exitSequence_steady s mode) fun u hu => ?_
  refine Flow.Meets.andThen (hlatch u) fun v hv => (hplace _).mono fun w hw => hw.trans ?_
  exact hv.trans (control_scheme hu t)

theorem ctxEmitPair_steady (p : BitVec 16) : (ctxEmitPair p s).Steady s :=
  (chainAppend_steady s _).andThen fun u => (chainAppend_steady u _).andThen fun _ => rfl

theorem ctxPush_steady (v : CtxValue) : (ctxPush v s).Steady s := by
  obtain ⟨-, e⟩ | ⟨-, e⟩ := ctxPush_cases v s <;> rw [e]
  · exact ctxEmitPair_steady _ _
  · rfl

theorem ctxPushAll_steady (vals : List CtxValue) : ∀ s, (ctxPushAll vals s).Steady s := by
  induction vals with
  | nil => exact fun _ => rfl
  | cons v rest ih => exact fun s => (ctxPush_steady s v).andThen ih

/-- One pass of the CTX loop takes one byte (R162). -/
theorem ctxByte_steady (k : CtxSet) : (ctxByte k s).Steady { s with inNext := s.inNext + 1#16 } := by
  unfold ctxByte
  split
  · exact filled_of_ne nofun
  · exact ctxPushAll_steady _ { s with inNext := s.inNext + 1#16, ctxLastn := 0#3 }

/-! ### Ends of an encode (R112, R121) -/

/-- The operation does not go on. -/
def Flow.Ends : Flow → Prop := Flow.Meets (fun _ => False) fun _ => True

theorem Flow.Ends.andThen {f : Flow} {k : State → Flow} (hk : ∀ u, (k u).Ends) : (f.andThen k).Ends := by
  cases f with
  | go u => exact hk u
  | ended u => trivial

theorem complete_ends (z : Nat) : (complete z s).Ends := by
  obtain ⟨-, e⟩ | ⟨-, -, e⟩ | ⟨-, -, e⟩ := complete_cases z s <;> rw [e] <;> trivial

theorem pad_complete_ends (z : Nat) : ((pad z s).andThen (complete z)).Ends := .andThen fun u => complete_ends u z

theorem finishSized_ends : (finishSized s).Ends := by
  obtain ⟨-, e⟩ | ⟨z, -, e⟩ := finishSized_cases s <;> rw [e]
  · trivial
  · exact pad_complete_ends s z

theorem ctxPartial_ends (k : CtxSet) : (ctxPartial k s).Ends := by
  unfold ctxPartial ctxFinishInAscii
  split
  · exact .andThen fun u => complete_ends u _
  · split
    · exact .andThen fun u => .andThen fun v => complete_ends _ _
    · exact .andThen fun u => .andThen fun v => finishSized_ends _

end

/-- The operation goes on with input left only, and then has changed nothing. -/
def Flow.Waits (s : State) : Flow → Prop := Flow.Meets (fun u => u = s ∧ s.inNext ≠ s.inLen) fun _ => True

theorem Flow.Ends.waits {s : State} {f : Flow} (h : f.Ends) : f.Waits s := h.mono fun _ hf => hf.elim

section
variable (s : State)

theorem waits_of_lt (h : s.inNext.toNat < s.inLen.toNat) : (Flow.go s).Waits s :=
  ⟨rfl, fun e => absurd h (by rw [e]; exact Nat.lt_irrefl _)⟩

theorem asciiComplete_waits : (asciiComplete s).Waits s := by
  unfold asciiComplete
  split
  · exact waits_of_lt s ‹_›
  · exact (finishSized_ends s).waits

theorem ctxComplete_waits : (ctxComplete s).Waits s := by
  unfold ctxComplete
  split
  · exact waits_of_lt s ‹_›
  · split
    · trivial
    · split
      · exact (complete_ends s _).waits
      · exact (Flow.Ends.andThen fun u => pad_complete_ends u _).waits

theorem b256Complete_waits : (b256Complete s).Waits s := by
  unfold b256Complete
  split
  · exact waits_of_lt s ‹_›
  · split
    · exact (Flow.Ends.andThen fun u => complete_ends u _).waits
    · split
      · trivial
      · exact (Flow.Ends.andThen fun u => pad_complete_ends u _).waits

theorem ediEnd_waits : (ediEnd s).Waits s := by
  unfold ediEnd
  split
  · split
    · exact (complete_ends s _).waits
    · exact (Flow.Ends.andThen fun u => .andThen fun v => pad_complete_ends _ _).waits
  · split
    · exact (Flow.Ends.andThen fun u => finishSized_ends u).waits
    · exact ⟨rfl, ‹_›⟩

theorem preCheck_kept : (preCheck s).Meets (fun u => u = s) fun _ => True := by
  unfold preCheck
  split
  · exact (ediEnd_waits s).mono fun _ ⟨hu, _⟩ => hu
  · rfl

theorem completeIfDone_waits : (completeIfDone s).Waits s := by
  unfold completeIfDone
  split
  · exact asciiComplete_waits s
  · exact ctxComplete_waits s
  · exact ctxComplete_waits s
  · exact ctxComplete_waits s
  · exact ediEnd_waits s
  · exact b256Complete_waits s

/-! ### Chunks consume input (R108, R113) -/

end

/-- Of the control registers at most the cursor has changed; and unless the input was at its end, it has moved on. -/
def Advanced (s u : State) : Prop :=
  control u = control { s with inNext := u.inNext } ∧
  (s.inNext.toNat ≤ s.inLen.toNat → u.inNext = u.inLen ∨ s.inNext.toNat < u.inNext.toNat)

section
variable {s u : State}

theorem advanced_self (h : s.inNext = s.inLen) : Advanced s s := ⟨rfl, fun _ => .inl h⟩

/-- The cursor has moved by `n` within the input. -/
theorem advanced_of_add {n : Nat} (h : control u = control { s with inNext := s.inNext + BitVec.ofNat 16 n }) (hn : 0 < n)
    (hne : s.inNext ≠ s.inLen) (hle : s.inNext.toNat < s.inLen.toNat → s.inNext.toNat + n ≤ s.inLen.toNat) : Advanced s u := by
  obtain ⟨-, -, hnext, -⟩ := control_fields h
  refine ⟨by rw [hnext]; exact h, fun hin => .inr ?_⟩
  have hin' := hle (Nat.lt_of_le_of_ne hin fun e => hne (BitVec.eq_of_toNat_eq e))
  have := s.inLen.isLt
  rw [hnext]
  change _ < (s.inNext + BitVec.ofNat 16 n).toNat
  rw [count_add (by omega)]
  omega

theorem asciiUnitAt_taken_pos (s : State) (i : Nat) : 0 < (asciiUnitAt s i).2 := by
  unfold asciiUnitAt
  split <;> exact Nat.succ_pos _

theorem asciiChunk_advances (s : State) : (asciiChunk s).Meets (Advanced s) Filled := by
  unfold asciiChunk
  split
  · exact advanced_self ‹_›
  · refine Flow.Meets.andThen (asciiAppendAll_steady _ s) fun u hu => ?_
    refine advanced_of_add ?_ (asciiUnitAt_taken_pos s s.inNext.toNat) ‹_› asciiUnitAt_le
    obtain ⟨-, -, hnext, -⟩ := control_fields hu
    rw [hnext]
    exact control_cursor hu _

theorem ediChunk_advances (s : State) : (ediChunk s).Meets (Advanced s) Filled := by
  simp only [ediChunk]
  split
  · exact advanced_self ‹_›
  · split
    · refine Flow.Meets.andThen (ediPack_steady s _) fun u hu => ?_
      refine advanced_of_add ?_ Nat.one_pos ‹_› id
      obtain ⟨-, -, hnext, -⟩ := control_fields hu
      rw [hnext]
      exact control_cursor hu _
    · exact filled_of_ne nofun

theorem b256Chunk_advances (s : State) : (b256Chunk s).Meets (Advanced s) Filled := by
  unfold b256Chunk
  split
  · exact advanced_self ‹_›
  · refine Flow.Meets.andThen (chainAppend_steady s _) fun u hu => ?_
    refine (b256UpdateNormal_steady _).mono fun v hv => advanced_of_add (hv.trans ?_) Nat.one_pos ‹_› id
    obtain ⟨-, -, hnext, -⟩ := control_fields hu
    rw [hnext]
    exact control_cursor hu _

/-- The CTX loop moves the cursor by the bytes it takes, at least one if it may take any. -/
theorem ctxLoop_advances (k : CtxSet) (n : Nat) : ∀ s, s.inNext ≠ s.inLen →
    (ctxLoop k n s).Meets (fun u => control u = control { s with inNext := u.inNext } ∧ (s.inNext.toNat ≤ s.inLen.toNat →
      s.inNext.toNat ≤ u.inNext.toNat ∧ (0 < n → s.inNext.toNat < u.inNext.toNat))) Filled := by
  induction n with
  | zero => exact fun s _ => ⟨rfl, fun _ => ⟨Nat.le_refl _, fun h => absurd h (Nat.lt_irrefl 0)⟩⟩
  | succ n ih =>
    intro s hne
    refine Flow.Meets.andThen (ctxByte_steady s k) fun u hu => ?_
    obtain ⟨-, hlen, hnext, -⟩ := control_fields hu
    have hu' : control u = control { s with inNext := u.inNext } := by rw [hnext]; exact hu
    have hstep : s.inNext.toNat ≤ s.inLen.toNat → u.inNext.toNat = s.inNext.toNat + 1 ∧ u.inNext.toNat ≤ u.inLen.toNat :=
      fun hin => by
        have := Nat.lt_of_le_of_ne hin fun e => hne (BitVec.eq_of_toNat_eq e)
        have := s.inLen.isLt
        have hone : u.inNext.toNat = s.inNext.toNat + 1 := (congrArg BitVec.toNat hnext).trans (count_add (by omega))
        exact ⟨hone, by rw [hlen]; change _ ≤ s.inLen.toNat; omega⟩
    split
    · exact ⟨hu', fun hin => by have := hstep hin; omega⟩
    next hgo =>
      refine (ih u (not_or.1 hgo).2).mono fun v ⟨hv, hmoved⟩ => ⟨hv.trans (control_cursor hu' _), fun hin => ?_⟩
      obtain ⟨hone, hle⟩ := hstep hin
      have := hmoved hle
      omega

theorem ctxChunk_advances (k : CtxSet) (s : State) : (ctxChunk k s).Meets (Advanced s) fun _ => True := by
  unfold ctxChunk
  split
  · exact advanced_self ‹_›
  next hne =>
    refine ((ctxLoop_advances k _ s hne).imp (fun _ hu => hu) fun _ _ => trivial).andThen fun u ⟨hu, hmoved⟩ => ?_
    split
    · exact (ctxPartial_ends u k).mono fun _ hf => hf.elim
    · refine ⟨hu, fun hin => .inr ?_⟩
      have := Nat.lt_of_le_of_ne hin fun e => hne (BitVec.eq_of_toNat_eq e)
      have := hmoved hin
      omega

theorem chunk_advances (s : State) : (chunk s).Meets (Advanced s) fun _ => True := by
  unfold chunk
  split
  · exact (asciiChunk_advances s).imp (fun _ hu => hu) fun _ _ => trivial
  · exact ctxChunk_advances _ s
  · exact ctxChunk_advances _ s
  · exact ctxChunk_advances _ s
  · exact (ediChunk_advances s).imp (fun _ hu => hu) fun _ _ => trivial
  · exact (b256Chunk_advances s).imp (fun _ hu => hu) fun _ _ => trivial

end

/-! ### A completed encode has consumed its input and filled its symbol (R112, R114) -/

section
variable {s : State} {P : State → Prop}

/-- The size is one of the table's and the cursor is in range (R12, R255). -/
abbrev Closing (z : Nat) (s : State) : Prop := s.params.ok ∧ z < s.params.nSizes ∧ s.inNext.toNat ≤ s.inLen.toNat

theorem Closing.of_control {u : State} {z : Nat} (h : Closing z s) (hu : control u = control s) : Closing z u := by
  obtain ⟨hparams, hlen, hnext, -⟩ := control_fields hu
  rw [Closing, hparams, hlen, hnext]
  exact h

theorem complete_filled_or_raised {z : Nat} (h : Closing z s) : (complete z s).Meets P Filled := by
  obtain ⟨⟨⟨-, hn⟩, -⟩, hz, hcur⟩ := h
  have hcode : (BitVec.ofNat 8 z).toNat = z := by
    rw [Config.Params.nSizes] at hz
    rw [BitVec.toNat_ofNat, Nat.mod_eq_of_lt (by omega)]
  obtain ⟨-, e⟩ | ⟨-, -, e⟩ | ⟨hlen, hin, e⟩ := complete_cases z s <;> rw [e]
  · exact filled_of_ne nofun
  · exact filled_of_ne nofun
  · refine fun _ => ⟨BitVec.eq_of_toNat_eq (by dsimp only; omega), ?_, ?_⟩ <;> dsimp only <;> rw [hcode]
    · exact hz
    · exact hlen

theorem steady_complete {f : Flow} {z : Nat} (hf : f.Steady s) (h : Closing z s) : (f.andThen (complete z)).Meets P Filled :=
  Flow.Meets.andThen hf fun _ hu => complete_filled_or_raised (h.of_control hu)

theorem pad_complete_filled {z : Nat} (h : Closing z s) : ((pad z s).andThen (complete z)).Meets P Filled :=
  steady_complete (padLoop_steady _ _ s) h

theorem finishSized_filled (hp : s.params.ok) (hin : s.inNext.toNat ≤ s.inLen.toNat) : (finishSized s).Meets P Filled := by
  obtain ⟨-, e⟩ | ⟨z, hfind, e⟩ := finishSized_cases s <;> rw [e]
  · exact filled_of_ne nofun
  · exact pad_complete_filled ⟨hp, findSize_lt hp hfind, hin⟩

/-- The explicit change to Ascii, and the common end after it. -/
theorem unlatch_finishSized_filled (hp : s.params.ok) (hin : s.inNext.toNat ≤ s.inLen.toNat) :
    ((changeScheme .ascii .explicit s).andThen finishSized).Meets P Filled := by
  refine Flow.Meets.andThen (changeScheme_steady s .ascii .explicit) fun u hu => ?_
  obtain ⟨hparams, hlen, hnext, -⟩ := control_fields hu
  exact finishSized_filled (by rw [hparams]; exact hp) (by rw [hlen, hnext]; exact hin)

section
variable (hp : s.params.ok) (hin : s.inNext.toNat ≤ s.inLen.toNat)
include hp hin

theorem asciiComplete_filled : (asciiComplete s).Meets (fun _ => True) Filled := by
  unfold asciiComplete
  split
  · trivial
  · exact finishSized_filled hp hin

theorem ediEnd_filled : (ediEnd s).Meets (fun _ => True) Filled := by
  unfold ediEnd
  split
  next z tail hend =>
    obtain ⟨-, -, hfind⟩ := ediImplicitEnd_some hend
    have hz := findSize_lt hp hfind
    split
    · exact complete_filled_or_raised ⟨hp, hz, hin⟩
    · refine Flow.Meets.andThen (changeScheme_steady s .ascii .implicit) fun u hu => ?_
      refine Flow.Meets.andThen (asciiAppendAll_steady _ u) fun v hv => ?_
      obtain ⟨hp', hz', -⟩ : Closing z v := Closing.of_control (s := { s with scheme := .ascii }) ⟨hp, hz, hin⟩ (hv.trans hu)
      exact pad_complete_filled (s := { v with inNext := v.inLen }) ⟨hp', hz', Nat.le_refl _⟩
  · split
    · exact unlatch_finishSized_filled hp hin
    · trivial

theorem b256Complete_filled : (b256Complete s).Meets (fun _ => True) Filled := by
  unfold b256Complete
  split
  · trivial
  · split
    next hexact =>
      obtain ⟨-, hfind, -⟩ := b256ExactSize_eq_some hexact
      exact steady_complete (b256UpdatePerfect_steady s _) ⟨hp, findSize_lt hp hfind, hin⟩
    · split
      · exact filled_of_ne nofun
      next hfind =>
        rw [changeScheme_ascii_implicit, andThen_go]
        refine pad_complete_filled ?_
        exact ⟨hp, findSize_lt hp hfind, hin⟩

theorem ctxPartial_filled (k : CtxSet) : (ctxPartial k s).Meets (fun _ => True) Filled := by
  have tailed : ∀ (mode : ChangeMode) (tail : List Byte) (k : State → Flow),
      (∀ v, v.params = s.params → (k v).Meets (fun _ => True) Filled) →
      ((changeScheme .ascii mode (ctxRollback s)).andThen fun u => (asciiAppendAll tail u).andThen k).Meets
        (fun _ => True) Filled := fun mode tail k hk => by
    refine Flow.Meets.andThen (changeScheme_steady (ctxRollback s) .ascii mode) fun u hu => ?_
    refine Flow.Meets.andThen (asciiAppendAll_steady tail u) fun v hv => hk v ?_
    obtain ⟨hparams, -⟩ := control_fields (hv.trans hu)
    exact hparams
  unfold ctxPartial
  split
  next z hsize =>
    unfold ctxShiftPadSize at hsize
    split_ifs at hsize
    obtain ⟨hfind, -⟩ := findSize_of_findExact hsize
    exact steady_complete (ctxPush_steady s _) ⟨hp, findSize_lt hp hfind, hin⟩
  · unfold ctxFinishInAscii
    split
    next z hsize =>
      unfold ctxImplicitSize at hsize
      split_ifs at hsize
      obtain ⟨hfind, -⟩ := findSize_of_findExact hsize
      refine tailed _ _ _ fun v hv => complete_filled_or_raised ⟨?_, ?_, Nat.le_refl _⟩ <;> dsimp only <;> rw [hv]
      · exact hp
      · exact findSize_lt hp hfind
    · exact tailed _ _ _ fun v hv => finishSized_filled (s := { v with inNext := v.inLen }) (hv ▸ hp) (Nat.le_refl _)

theorem ctxComplete_filled : (ctxComplete s).Meets (fun _ => True) Filled := by
  unfold ctxComplete
  split
  · trivial
  · split
    · exact filled_of_ne nofun
    next hfind =>
      have hclose : Closing _ s := ⟨hp, findSize_lt hp hfind, hin⟩
      split
      · exact complete_filled_or_raised hclose
      · refine Flow.Meets.andThen (changeScheme_steady s .ascii .explicit) fun u hu => pad_complete_filled ?_
        exact Closing.of_control (s := { s with scheme := .ascii }) hclose hu

end

theorem ctxChunk_filled {k : CtxSet} (h : Running k.scheme 0 s) : (ctxChunk k s).Meets (fun _ => True) Filled := by
  unfold ctxChunk
  split
  · trivial
  next hne =>
    refine ((ctxLoop_running _ (h.weaken (by omega)) hne).and (ctxLoop_advances k _ s hne)).andThen fun u ⟨hu, _⟩ => ?_
    split
    · exact ctxPartial_filled hu.params hu.cursor k
    · trivial

/-! ### The iteration (R105 to R109) -/

variable {t : Scheme}

theorem preCheck_filled (h : Running t 0 s) : (preCheck s).Meets (fun _ => True) Filled := by
  unfold preCheck
  split
  · exact ediEnd_filled h.params h.cursor
  · trivial

theorem chunk_filled (h : Running t 0 s) : (chunk s).Meets (fun _ => True) Filled := by
  unfold chunk
  rw [h.scheme]
  cases t with
  | ascii => exact (asciiChunk_advances s).mono fun _ _ => trivial
  | c40 => exact ctxChunk_filled (k := .c40) h
  | text => exact ctxChunk_filled (k := .text) h
  | x12 => exact ctxChunk_filled (k := .x12) h
  | edifact => exact (ediChunk_advances s).mono fun _ _ => trivial
  | base256 => exact (b256Chunk_advances s).mono fun _ _ => trivial

theorem completeIfDone_filled (h : Running t 0 s) : (completeIfDone s).Meets (fun _ => True) Filled := by
  unfold completeIfDone
  split
  · exact asciiComplete_filled h.params h.cursor
  · exact ctxComplete_filled h.params h.cursor
  · exact ctxComplete_filled h.params h.cursor
  · exact ctxComplete_filled h.params h.cursor
  · exact ediEnd_filled h.params h.cursor
  · exact b256Complete_filled h.params h.cursor

/-- The scheme step changes the scheme, and sets `latched` (R106). -/
theorem schemeStep_steady (t : Scheme) (s : State) : (schemeStep t s).Steady { s with scheme := t, latched := true } := by
  have hlatch : ∀ u, control u = control { s with scheme := t } →
      control { u with latched := true } = control { s with scheme := t, latched := true } := fun u hu =>
    congrArg (fun w : State => { w with latched := true }) hu
  refine Flow.Meets.andThen (P := fun u => control u = control { s with scheme := t }) ?_ hlatch
  split
  next hs => exact hs ▸ rfl
  · split
    · exact filled_of_ne nofun
    · split
      · exact filled_of_ne nofun
      · exact changeScheme_steady s t .explicit

/-- What an iteration of a running encode does besides keeping the invariant: it goes on with the cursor moved, and if it completes
the encode, R114 holds. -/
theorem iterate_progress (h : MachineInv s) (hs : s.status = .encoding) (ht : schemeCode t = s.target) :
    (iterate t s).Meets (fun u => u.status = .encoding ∧ s.inNext.toNat < u.inNext.toNat) Filled := by
  refine ((schemeStep_running h hs ht).and (schemeStep_steady t s)).andThen fun u ⟨hu, hcu⟩ => ?_
  obtain ⟨-, -, hnext, -, hstatus⟩ := control_fields hcu
  refine ((preCheck_kept u).and (preCheck_filled hu)).andThen fun v ⟨hv, _⟩ => ?_
  subst hv
  refine (((chunk_running hu).and (chunk_advances v)).and (chunk_filled hu)).andThen fun w ⟨⟨hw, hcw, hmoved⟩, _⟩ => ?_
  obtain ⟨-, -, -, -, hstatus'⟩ := control_fields hcw
  refine ((completeIfDone_waits w).and (completeIfDone_filled hw)).mono fun x ⟨⟨hx, hleft⟩, _⟩ => ?_
  subst hx
  refine ⟨hstatus'.trans (hstatus.trans hs), ?_⟩
  have := (hmoved hu.cursor).resolve_left hleft
  rwa [hnext] at this

end

/-! ### The iteration in the scheme's own operations (R105 to R109) -/

section
variable {s : State} {t : Scheme}

/-- A chunk that goes on has not left its scheme, so its scheme's completion follows (R109). -/
theorem chunk_completes {k : State → Flow} (h : ∀ u, u.scheme = s.scheme → completeIfDone u = k u) :
    (chunk s).andThen completeIfDone = (chunk s).andThen k :=
  Flow.andThen_congr (chunk_advances s) fun u ⟨hu, _⟩ =>
    let ⟨_, _, _, hscheme, _⟩ := control_fields hu
    h u hscheme

/-- In a scheme without a pre-check the chunk and its completion are the whole turn. -/
theorem turn_without_preCheck {op k : State → Flow} (hne : s.scheme ≠ .edifact) (hop : chunk s = op s)
    (hk : ∀ u, u.scheme = s.scheme → completeIfDone u = k u) :
    ((preCheck s).andThen fun u => (chunk u).andThen completeIfDone) = (op s).andThen k := by
  rw [preCheck, if_neg hne, andThen_go, chunk_completes hk, hop]

/-- After the scheme step the iteration is the turn of the scheme (R107 to R109). -/
theorem schemeTurn_eq (h : s.scheme = t) :
    ((preCheck s).andThen fun u => (chunk u).andThen completeIfDone) = schemeTurn t s := by
  subst h
  cases h : s.scheme with
  | ascii => exact turn_without_preCheck (by rw [h]; decide) (by rw [chunk, h]) fun u hu => by rw [completeIfDone, hu, h]
  | c40 => exact turn_without_preCheck (by rw [h]; decide) (by rw [chunk, h]) fun u hu => by rw [completeIfDone, hu, h]
  | text => exact turn_without_preCheck (by rw [h]; decide) (by rw [chunk, h]) fun u hu => by rw [completeIfDone, hu, h]
  | x12 => exact turn_without_preCheck (by rw [h]; decide) (by rw [chunk, h]) fun u hu => by rw [completeIfDone, hu, h]
  | base256 => exact turn_without_preCheck (by rw [h]; decide) (by rw [chunk, h]) fun u hu => by rw [completeIfDone, hu, h]
  | edifact =>
    rw [preCheck, if_pos h]
    refine Flow.andThen_congr (ediEnd_waits s) fun u hu => ?_
    obtain ⟨rfl, -⟩ := hu
    rw [chunk_completes (k := ediEnd) fun v hv => by rw [completeIfDone, hv, h], chunk, h]

/-- The scheme step, where it goes on, is followed by the turn of the target (R105). -/
theorem iterate_eq {E : State → Prop} {f : Flow} (hstep : schemeStep t s = f.andThen fun u => .go { u with latched := true })
    (hf : f.Meets (fun u => u.scheme = t) E) :
    iterate t s = f.andThen fun u => schemeTurn t { u with latched := true } := by
  rw [iterate, hstep]
  cases f with
  | go u => exact schemeTurn_eq (s := { u with latched := true }) hf
  | ended u => rfl

theorem iterate_home (h : s.scheme = t) : iterate t s = schemeTurn t { s with latched := true } :=
  iterate_eq (E := fun _ => True) (f := .go s) (by rw [schemeStep, if_pos h]) h

theorem iterate_first (h : s.scheme ≠ t) (hl : s.latched = false) (hs : s.scheme = .ascii) :
    iterate t s = (changeScheme t .explicit s).andThen fun u => schemeTurn t { u with latched := true } := by
  have hstep : schemeStep t s = (changeScheme t .explicit s).andThen fun u => .go { u with latched := true } := by
    rw [schemeStep, if_neg h, hl, if_neg Bool.false_ne_true, if_neg (not_not.2 hs)]
  refine iterate_eq hstep ((changeScheme_steady s t .explicit).mono fun u hu => ?_)
  obtain ⟨-, -, -, hscheme, -⟩ := control_fields hu
  exact hscheme

theorem iterate_relatch (h : s.scheme ≠ t) (hl : s.latched = true) : iterate t s = raise .fatal .relatch s :=
  iterate_eq (E := fun _ => True) (f := raise .fatal .relatch s) (by rw [schemeStep, if_neg h, if_pos hl]) trivial

theorem iterate_entryScheme (h : s.scheme ≠ t) (hl : s.latched = false) (hs : s.scheme ≠ .ascii) :
    iterate t s = raise .fatal .entryScheme s :=
  iterate_eq (E := fun _ => True) (f := raise .fatal .entryScheme s)
    (by rw [schemeStep, if_neg h, hl, if_neg Bool.false_ne_true, if_pos hs]) trivial

/-! ### Turns of a running encode (R113, R114) -/

/-- The turn of a running encode goes on with the cursor moved, or has ended the encode as R114 says. -/
theorem encoderTurn_progress {u : State} (h : MachineInv s) (hs : s.status = .encoding) (hu : encoderTurn s = .next u) :
    (u.status = .encoding ∧ s.inNext.toNat < u.inNext.toNat) ∨ (u.status ≠ .encoding ∧ Filled u) := by
  obtain ⟨hidle, -⟩ | ⟨t, -, -, ht, e⟩ | ⟨-, -, e⟩ := encoderTurn_cases s
  · exact absurd hs hidle
  · rw [e] at hu
    cases hu
    have ht := schemeCode_of_schemeOfCode ht
    have hrun := iterate_running h hs ht
    have hprogress := iterate_progress h hs ht
    cases hturn : iterate t s <;> rw [hturn] at hrun hprogress
    · exact .inl hprogress
    · obtain ⟨-, hended⟩ := hrun
      exact .inr ⟨hended, hprogress⟩
  · rw [e] at hu
    cases hu

/-- A turn that goes on leaves less input (R113). -/
theorem encoderTurn_consumes {u : State} (h : MachineInv s) (hs : s.status = .encoding) (hu : encoderTurn s = .next u)
    (hrunning : u.status = .encoding) : u.inLen.toNat - u.inNext.toNat < s.inLen.toNat - s.inNext.toNat := by
  obtain ⟨-, -, -, -, -, hrun⟩ := encoderTurn_machineInv h hu
  obtain ⟨-, hcursor, -⟩ := hrun hrunning
  obtain ⟨-, -, -, hlen, -⟩ := untouched_eq_iff.1 (encoderTurn_untouched s hu)
  obtain ⟨-, hmoved⟩ | ⟨hended, -⟩ := encoderTurn_progress h hs hu
  · rw [hlen] at hcursor ⊢
    omega
  · exact absurd hrunning hended

/-- A step that goes on is the first of a longer run. -/
theorem run_succ (M : Host.Core) {v w : M.State} (h : M.step v = .next w) (n : Nat) : M.run (n + 1) v = M.run n w := by
  rw [Host.Core.run, h]

/-- With no encode and no schedule nothing happens. -/
theorem run_idle (hs : s.status ≠ .encoding) (hq : s.queue = []) (n : Nat) : Host.Core.run Sys2Proof.core n s = .next s := by
  induction n with
  | zero => rfl
  | succ n ih => rw [run_succ Sys2Proof.core ((step_silent hq).trans (encoderTurn_idle hs)), ih]

/-- The encode ends within one turn more than the input that remains, by induction on a bound of it. -/
theorem run_ends (n : Nat) : ∀ {s : State}, MachineInv s → s.status = .encoding → s.queue = [] →
    s.inLen.toNat - s.inNext.toNat ≤ n →
    ∃ t : State, Host.Core.run Sys2Proof.core (n + 1) s = .next t ∧ t.status ≠ .encoding := by
  induction n with
  | zero =>
    intro s h hs hq hn
    obtain ⟨u, hu⟩ := encoderTurn_safe h
    refine ⟨u, run_succ Sys2Proof.core ((step_silent hq).trans hu) 0, fun hrunning => ?_⟩
    have := encoderTurn_consumes h hs hu hrunning
    omega
  | succ n ih =>
    intro s h hs hq hn
    obtain ⟨u, hu⟩ := encoderTurn_safe h
    obtain ⟨-, -, -, -, -, hqueue, -⟩ := untouched_eq_iff.1 (encoderTurn_untouched s hu)
    rw [run_succ Sys2Proof.core ((step_silent hq).trans hu)]
    by_cases hrunning : u.status = .encoding
    · have := encoderTurn_consumes h hs hu hrunning
      exact ih (encoderTurn_machineInv h hu) hrunning (hqueue.trans hq) (by omega)
    · exact ⟨u, run_idle hrunning (hqueue.trans hq) _, hrunning⟩

end

/-! ### The obligations -/

/-- Settles O24: the iteration in the scheme's own operations, and the cursor it moves. -/
theorem iterationConsumesInputOrEnds : Obligations.IterationConsumesInputOrEnds := by
  refine ⟨fun s goal hs hcheck hgoal => ?_, fun s t h hs hturn hrunning => ?_⟩
  · rw [encoderTurn_iterate hs hcheck hgoal]
    refine ⟨fun h => by rw [iterate_home h], fun h hl hascii => by rw [iterate_first h hl hascii], fun h hl => ?_,
      fun h hl hascii => ?_⟩
    · rw [iterate_relatch h hl, raise_state]
    · rw [iterate_entryScheme h hl hascii, raise_state]
  · obtain ⟨-, hmoved⟩ | ⟨hended, -⟩ := encoderTurn_progress h hs hturn
    · exact hmoved
    · exact absurd hrunning hended

/-- Settles O25, by induction on the input that remains. -/
theorem encodeEndsWithinTheBound : Obligations.EncodeEndsWithinTheBound :=
  fun _ h hs hq => run_ends _ h hs hq (Nat.le_refl _)

/-- Settles O26: a completed encode was ended by `complete` with its guards passed, in a size of the table. -/
theorem completionConsumesInputAndFillsTheSymbol : Obligations.CompletionConsumesInputAndFillsTheSymbol := by
  intro s t h hs hturn hcomplete
  obtain ⟨hrunning, -⟩ | ⟨-, hfilled⟩ := encoderTurn_progress h hs hturn
  · rw [hrunning] at hcomplete
    cases hcomplete
  · exact hfilled hcomplete

end Sys2Proof.Machine
end

section
/-! PROOFS. The CTX chunk (spec R110, R150, R159 to R163): the bytes it takes are passes of one loop, each of which pushes the values of its
byte; the pushes read neither the cursor nor `ctx_lastn`, so the passes push what the bytes expand to, in one run. -/

namespace Sys2Proof.Machine

/-! ### What pushes do not read (R159, R160) -/

/-- The state but for the input cursor and `ctx_lastn`. -/
def blurred (s : State) : State := { s with inNext := 0#16, ctxLastn := 0#3 }

theorem eq_of_blurred {s t : State} (h : blurred t = blurred s) : t = { s with inNext := t.inNext, ctxLastn := t.ctxLastn } := by
  have hback : t = { blurred t with inNext := t.inNext, ctxLastn := t.ctxLastn } := rfl
  rw [hback, h]
  rfl

theorem ctxN_of_blurred {s t : State} (h : blurred t = blurred s) : t.ctxN = s.ctxN :=
  show (blurred t).ctxN = (blurred s).ctxN from congrArg State.ctxN h

/-- The operation does the same from states that differ in the cursor and `ctx_lastn` only. -/
def Blind (op : State → Flow) : Prop := ∀ s t, blurred s = blurred t → (op s).map blurred = (op t).map blurred

theorem Flow.map_eq_go {g : State → State} {f : Flow} {v : State} (h : f.map g = .go v) : ∃ u, f = .go u ∧ g u = v := by
  cases f with
  | go u => exact ⟨u, rfl, Flow.go.inj h⟩
  | ended u => cases h

theorem Flow.map_eq_ended {g : State → State} {f : Flow} {v : State} (h : f.map g = .ended v) : ∃ u, f = .ended u ∧ g u = v := by
  cases f with
  | go u => cases h
  | ended u => exact ⟨u, rfl, Flow.ended.inj h⟩

/-- Operations with the same outcome up to `blurred`, followed by a blind one. -/
theorem Blind.andThen_congr {f f' : Flow} {k : State → Flow} (hk : Blind k) (hf : f.map blurred = f'.map blurred) :
    (f.andThen k).map blurred = (f'.andThen k).map blurred := by
  cases f' with
  | go t =>
    obtain ⟨u, rfl, hu⟩ := Flow.map_eq_go hf
    exact hk u t hu
  | ended t =>
    obtain ⟨u, rfl, hu⟩ := Flow.map_eq_ended hf
    exact congrArg Flow.ended hu

theorem Blind.andThen {f k : State → Flow} (hf : Blind f) (hk : Blind k) : Blind fun s => (f s).andThen k :=
  fun s t h => hk.andThen_congr (hf s t h)

theorem chainAppend_blind (v : Byte) : Blind (chainAppend v) := by
  have hput : ∀ s, (chainAppend v (blurred s)) = (chainAppend v s).map blurred := fun s =>
    Flow.andThen_map (Flow.ite_map rfl rfl) fun _ => rfl
  intro s t h
  rw [← hput, ← hput, h]

theorem ctxEmitPair_blind (p : BitVec 16) : Blind (ctxEmitPair p) :=
  (chainAppend_blind _).andThen <| (chainAppend_blind _).andThen fun _ _ h =>
    congrArg (fun u : State => Flow.go { u with chainValues := u.chainValues + 3#16, ctxN := 0#3 }) h

theorem ctxPush_blind (v : CtxValue) : Blind (ctxPush v) := by
  intro s t h
  have hn := ctxN_of_blurred h
  have hbuf : (blurred s).ctxBuf = (blurred t).ctxBuf := congrArg State.ctxBuf h
  change s.ctxBuf = t.ctxBuf at hbuf
  have hfill : blurred { s with
        ctxBuf := s.ctxBuf.setIfInBounds s.ctxN.toNat v, ctxN := s.ctxN + 1#3, ctxLastn := s.ctxLastn + 1#3 } =
      blurred { t with
        ctxBuf := t.ctxBuf.setIfInBounds t.ctxN.toNat v, ctxN := t.ctxN + 1#3, ctxLastn := t.ctxLastn + 1#3 } := by
    rw [hn, hbuf]
    exact congrArg (fun u : State => { u with ctxBuf := t.ctxBuf.setIfInBounds t.ctxN.toNat v, ctxN := t.ctxN + 1#3 }) h
  obtain ⟨hs, e⟩ | ⟨hs, e⟩ := ctxPush_cases v s <;> obtain ⟨ht, e'⟩ | ⟨ht, e'⟩ := ctxPush_cases v t
  · rw [e, e', ctxPack, ctxPack]
    simp only [hbuf, hn] at hfill ⊢
    exact ctxEmitPair_blind _ _ _ hfill
  · exact absurd (hn.symm.trans hs) ht
  · exact absurd (hn.trans ht) hs
  · rw [e, e']
    exact congrArg Flow.go hfill

theorem ctxPushAll_blind (vals : List CtxValue) : Blind (ctxPushAll vals) := by
  induction vals with
  | nil => exact fun _ _ h => congrArg Flow.go h
  | cons v rest ih => exact (ctxPush_blind v).andThen ih

/-! ### What pushes do to the counts (R21, R159 to R161) -/

/-- The buffer fills and empties at every third value; `ctx_lastn` counts the pushes up to the first emptying, and after it all that
are in the buffer. -/
theorem ctxPushAll_counts (vals : List CtxValue) : ∀ {s : State}, s.ctxN.toNat < 3 →
    (ctxPushAll vals s).Meets (fun t => t.ctxN.toNat = (s.ctxN.toNat + vals.length) % 3 ∧ t.ctxLastn =
      if s.ctxN.toNat + vals.length < 3 then s.ctxLastn + BitVec.ofNat 3 vals.length
      else BitVec.ofNat 3 ((s.ctxN.toNat + vals.length) % 3)) fun _ => True := by
  induction vals with
  | nil =>
    intro s h
    exact ⟨(Nat.mod_eq_of_lt h).symm, ((if_pos h).trans (BitVec.add_zero _)).symm⟩
  | cons v rest ih =>
    intro s h
    have hpair : ∀ (p : BitVec 16) (u : State), (ctxEmitPair p u).Meets (fun t => t.ctxN = 0#3 ∧ t.ctxLastn = 0#3)
        fun _ => True := fun p u => by
      rw [ctxEmitPair]
      cases chainAppend _ u with
      | ended _ => trivial
      | go w =>
        rw [andThen_go]
        cases chainAppend _ w with
        | ended _ => trivial
        | go _ => exact ⟨rfl, rfl⟩
    rw [ctxPushAll]
    obtain ⟨hn, e⟩ | ⟨hn, e⟩ := ctxPush_cases v s <;> rw [e]
    · have htwo : s.ctxN.toNat = 2 := congrArg BitVec.toNat hn
      refine (hpair _ _).andThen fun u ⟨hun, hul⟩ => ?_
      have hzero : u.ctxN.toNat = 0 := congrArg BitVec.toNat hun
      refine (ih (s := u) (by omega)).mono fun t ⟨htn, htl⟩ => ?_
      rw [hzero] at htn htl
      rw [htn, htl, hul, htwo, List.length_cons, BitVec.zero_add, if_neg (show ¬ 2 + (rest.length + 1) < 3 by omega)]
      have hmod : (2 + (rest.length + 1)) % 3 = (0 + rest.length) % 3 := by omega
      rw [hmod]
      refine ⟨rfl, ?_⟩
      split
      · rw [Nat.mod_eq_of_lt ‹_›, Nat.zero_add]
      · rfl
    · have hne : s.ctxN.toNat ≠ 2 := fun e => hn (BitVec.eq_of_toNat_eq e)
      have hone : (s.ctxN + 1#3).toNat = s.ctxN.toNat + 1 := by bv_omega
      refine (ih (by rw [hone]; omega)).mono fun t ⟨htn, htl⟩ => ?_
      rw [hone] at htn htl
      rw [htn, htl, List.length_cons, show s.ctxN.toNat + 1 + rest.length = s.ctxN.toNat + (rest.length + 1) by omega]
      refine ⟨rfl, ?_⟩
      split
      · rw [BitVec.ofNat_add, BitVec.add_assoc, BitVec.add_comm (BitVec.ofNat 3 rest.length)]
      · rfl

/-! ### The values of bytes in order (R150) -/

section
variable {k : CtxSet}

theorem expandAll_cons_some {b : Byte} {rest : List Byte} {vals : List CtxValue} (h : expandAll k (b :: rest) = some vals) :
    ∃ vs more, expand k b = .ok vs ∧ expandAll k rest = some more ∧ vals = vs ++ more := by
  rw [expandAll] at h
  split at h
  next vs more hb hrest => exact ⟨vs, more, hb, hrest, (Option.some.inj h).symm⟩
  · cases h
  · cases h

theorem expandAll_append_some {ys : List Byte} : ∀ {xs : List Byte} {vals : List CtxValue}, expandAll k (xs ++ ys) = some vals →
    ∃ vs ws, expandAll k xs = some vs ∧ expandAll k ys = some ws ∧ vals = vs ++ ws := by
  intro xs
  induction xs with
  | nil => exact fun h => ⟨[], _, rfl, h, rfl⟩
  | cons b rest ih =>
    intro vals h
    obtain ⟨us, more, hb, hmore, rfl⟩ := expandAll_cons_some h
    obtain ⟨vs, ws, hvs, hws, rfl⟩ := ih hmore
    exact ⟨us ++ vs, ws, expandAll_cons hb hvs, hws, (List.append_assoc ..).symm⟩

theorem inputFrom_add (s : State) (d : Nat) : ∀ (m i : Nat), inputFrom s i (m + d) = inputFrom s i m ++ inputFrom s (i + m) d := by
  intro m
  induction m with
  | zero => intro i; rw [Nat.zero_add]; rfl
  | succ m ih =>
    intro i
    rw [show m + 1 + d = m + d + 1 by omega, inputFrom, ih, inputFrom, show i + 1 + m = i + (m + 1) by omega]
    rfl

/-- Every byte with values has at least one (R150). -/
theorem expand_ok_ne_nil {b : Byte} {vals : List CtxValue} (h : expand k b = .ok vals) : vals ≠ [] := by
  have hshift : ∀ (letter : Nat → List CtxValue) (n : Nat), (∀ n, letter n ≠ []) → expandExtended letter n ≠ [] :=
    fun letter n hl => by
      unfold expandExtended expandShifted
      split_ifs <;> simp [hl]
  cases k with
  | c40 =>
    cases h
    exact hshift _ _ fun n => by unfold expandC40Letter; split_ifs <;> simp
  | text =>
    cases h
    exact hshift _ _ fun n => by unfold expandTextLetter; split_ifs <;> simp
  | x12 =>
    simp only [expand, expandX12] at h
    split_ifs at h <;> cases h <;> simp

/-- No byte of the last one's values is in an empty buffer (R21). -/
theorem ctxLastCount_empty (k : CtxSet) (s : State) (n : Nat) : ctxLastCount k s n 0 = 0#3 := by
  unfold ctxLastCount
  split
  · rw [Nat.zero_min]
  · rfl

/-! ### Passes of the loop (R162) -/

/-- `n` passes of the loop, wherever the triplet boundaries are. -/
def ctxBytes (k : CtxSet) : Nat → State → Flow
  | 0, s => .go s
  | n + 1, s => (ctxBytes k n s).andThen (ctxByte k)

variable {s : State}

/-- The passes before the last do not stop the loop, so it comes to its test after the last (R162). -/
theorem ctxLoop_bytes (n : Nat) : ∀ fuel, (∀ m u, 1 ≤ m → m ≤ n → ctxBytes k m s = .go u → ¬ (u.ctxN = 0#3 ∨ u.inNext = u.inLen)) →
    ctxLoop k (n + 1 + fuel) s = (ctxBytes k (n + 1) s).andThen fun u =>
      if u.ctxN = 0#3 ∨ u.inNext = u.inLen then .go u else ctxLoop k fuel u := by
  induction n with
  | zero => intro fuel _; rw [Nat.add_comm]; rfl
  | succ n ih =>
    intro fuel hgo
    rw [show n + 1 + 1 + fuel = n + 1 + (fuel + 1) by omega, ih (fuel + 1) fun m u h1 hm => hgo m u h1 (by omega),
      show ctxBytes k (n + 1 + 1) s = (ctxBytes k (n + 1) s).andThen (ctxByte k) from rfl]
    cases hpass : ctxBytes k (n + 1) s with
    | ended u => rfl
    | go u =>
      rw [andThen_go, if_neg (hgo (n + 1) u (by omega) (Nat.le_refl _) hpass)]
      rfl

/-- A pass moves the cursor by one byte. -/
theorem ctxBytes_cursor (n : Nat) :
    (ctxBytes k n s).Meets (fun u => control u = control { s with inNext := s.inNext + BitVec.ofNat 16 n }) fun _ => True := by
  induction n with
  | zero => exact congrArg (fun i => control { s with inNext := i }) (BitVec.add_zero _).symm
  | succ n ih =>
    refine ih.andThen fun u hu => (ctxByte_steady u k).imp (fun v hv => ?_) fun _ _ => trivial
    obtain ⟨-, -, hnext, -⟩ := control_fields hu
    rw [hv, hnext, BitVec.ofNat_add, ← BitVec.add_assoc]
    exact control_cursor hu _

/-- The byte under the cursor after `n` passes. -/
theorem readIn_after_passes {u : State} {n : Nat} (hin : s.inNext.toNat + n < s.inLen.toNat)
    (h : control u = control { s with inNext := s.inNext + BitVec.ofNat 16 n }) :
    readIn u u.inNext.toNat = readIn s (s.inNext.toNat + n) := by
  obtain ⟨-, -, hnext, -⟩ := control_fields h
  have hlen := s.inLen.isLt
  rw [hnext]
  change readIn u (s.inNext + BitVec.ofNat 16 n).toNat = _
  rw [count_add (by omega)]
  exact readIn_congr (congrArg State.inMem h) (congrArg State.draw h) _

/-- The passes push the values of their bytes. -/
theorem ctxBytes_pushes (n : Nat) : ∀ {vals : List CtxValue}, s.inNext.toNat + n ≤ s.inLen.toNat →
    expandAll k (inputFrom s s.inNext.toNat n) = some vals →
    (ctxBytes k n s).map blurred = (ctxPushAll vals s).map blurred := by
  induction n with
  | zero => intro vals _ h; cases h; rfl
  | succ n ih =>
    intro vals hin h
    rw [inputFrom_add] at h
    obtain ⟨vs, ws, hvs, hws, rfl⟩ := expandAll_append_some h
    obtain ⟨last, more, hlast, hmore, rfl⟩ := expandAll_cons_some hws
    cases hmore
    have hpasses := ih (by omega) hvs
    have hcursor := ctxBytes_cursor (k := k) (s := s) n
    rw [ctxBytes, ctxPushAll_append, List.append_nil, ← (ctxPushAll_blind last).andThen_congr hpasses]
    cases hn : ctxBytes k n s with
    | ended u => rfl
    | go u =>
      rw [hn] at hcursor
      rw [andThen_go, andThen_go, ctxByte_ok (by rw [readIn_after_passes (by omega) hcursor]; exact hlast)]
      exact ctxPushAll_blind last _ _ rfl

/-- Each pass leaves at most two values in the buffer, and `ctx_lastn` then counts those of its own byte (R21, R162). -/
theorem ctxByte_counts (h : s.ctxN.toNat < 3) {vals : List CtxValue} (hvals : expand k (readIn s s.inNext.toNat) = .ok vals) :
    (ctxByte k s).Meets (fun u => u.ctxN.toNat < 3 ∧ u.ctxLastn = BitVec.ofNat 3 (min u.ctxN.toNat vals.length))
      fun _ => True := by
  rw [ctxByte_ok hvals]
  refine (ctxPushAll_counts vals (s := { s with inNext := s.inNext + 1#16, ctxLastn := 0#3 }) h).mono fun u ⟨hn, hl⟩ => ?_
  dsimp only at hn hl
  refine ⟨by omega, ?_⟩
  rw [hl, BitVec.zero_add]
  split <;> congr 1 <;> omega

/-- After `n` passes over bytes with values, the cursor and the two counts (R21, R162). -/
theorem ctxBytes_counts (n : Nat) : ∀ {vals : List CtxValue}, s.ctxN = 0#3 → s.inNext.toNat + n ≤ s.inLen.toNat →
    expandAll k (inputFrom s s.inNext.toNat n) = some vals →
    (ctxBytes k n s).Meets (fun u => u.ctxN.toNat < 3 ∧
      u.ctxLastn = if n = 0 then s.ctxLastn else ctxLastCount k s n u.ctxN.toNat) fun _ => True := by
  induction n with
  | zero => exact fun h _ _ => ⟨by rw [h]; decide, rfl⟩
  | succ n ih =>
    intro vals h0 hin h
    rw [inputFrom_add] at h
    obtain ⟨vs, ws, hvs, hws, -⟩ := expandAll_append_some h
    obtain ⟨last, more, hlast, -⟩ := expandAll_cons_some hws
    refine ((ih h0 (by omega) hvs).and (ctxBytes_cursor n)).andThen fun u ⟨⟨hn, _⟩, hcursor⟩ => ?_
    rw [← readIn_after_passes (by omega) hcursor] at hlast
    refine (ctxByte_counts hn hlast).mono fun v ⟨hvn, hvl⟩ => ⟨hvn, hvl.trans ?_⟩
    rw [readIn_after_passes (by omega) hcursor] at hlast
    rw [if_neg (Nat.succ_ne_zero n), ctxLastCount, Nat.add_succ_sub_one, hlast]

/-! ### What a chunk takes (R162) -/

/-- A chunk that takes a byte takes a value. -/
theorem ctxTakes_ne_nil {n : Nat} {vals : List CtxValue} (h : ctxTakes k s n vals) (h1 : 1 ≤ n) : vals ≠ [] := by
  obtain ⟨m, rfl⟩ := Nat.exists_eq_add_of_le' h1
  obtain ⟨-, hvals, -⟩ := h
  obtain ⟨vs, more, hb, -, rfl⟩ := expandAll_cons_some hvals
  exact List.append_ne_nil_of_left_ne_nil (expand_ok_ne_nil hb) more

/-- The bytes a chunk takes begin with the bytes of every earlier pass. -/
theorem ctxTakes_of_le {n m : Nat} {vals : List CtxValue} (h : ctxTakes k s n vals) (hm : m ≤ n) :
    ∃ vs, ctxTakes k s m vs := by
  obtain ⟨hin, hvals, hbound⟩ := h
  obtain ⟨d, rfl⟩ := Nat.exists_eq_add_of_le hm
  rw [inputFrom_add] at hvals
  obtain ⟨vs, -, hvs, -⟩ := expandAll_append_some hvals
  exact ⟨vs, by omega, hvs, fun j v h1 hj => hbound j v h1 (by omega)⟩

section
variable {n : Nat} {vals : List CtxValue} {t u : State}

theorem ctxPushAll_boundary (h0 : s.ctxN = 0#3) (ht : ctxPushAll vals s = .go t) : t.ctxN.toNat = vals.length % 3 := by
  have hcount := ctxPushAll_counts vals (s := s) (by rw [h0]; decide)
  rw [ht, h0] at hcount
  obtain ⟨hn, -⟩ := hcount
  rw [hn]
  exact congrArg (· % 3) (Nat.zero_add _)

/-- From an empty buffer a run of values that ends at a boundary leaves both counts 0. -/
theorem ctxPushAll_boundary_lastn (h0 : s.ctxN = 0#3) (hne : vals ≠ []) (hv : vals.length % 3 = 0)
    (ht : ctxPushAll vals s = .go t) : t.ctxLastn = 0#3 := by
  have hcount := ctxPushAll_counts vals (s := s) (by rw [h0]; decide)
  have hpos := List.length_pos_iff.2 hne
  rw [ht, h0] at hcount
  obtain ⟨-, hl⟩ := hcount
  have hlen : (0#3).toNat + vals.length = vals.length := Nat.zero_add _
  rw [hl, hlen, if_neg (by omega), hv]

/-- The passes over the bytes taken leave what the pushes of their values leave, with the cursor and `ctx_lastn` of R162. -/
theorem ctxBytes_go (h0 : s.ctxN = 0#3) (h : ctxTakes k s n vals) (ht : ctxPushAll vals s = .go t) :
    ctxBytes k n s = .go { t with
      inNext := s.inNext + BitVec.ofNat 16 n
      ctxLastn := if n = 0 then s.ctxLastn else ctxLastCount k s n t.ctxN.toNat } := by
  obtain ⟨hin, hvals, -⟩ := h
  have hpush := ctxBytes_pushes n hin hvals
  rw [ht] at hpush
  obtain ⟨u, hu, hblur⟩ := Flow.map_eq_go hpush
  have hcounts := (ctxBytes_counts n h0 hin hvals).and (ctxBytes_cursor n)
  rw [hu] at hcounts
  obtain ⟨⟨-, hl⟩, hcursor⟩ := hcounts
  obtain ⟨-, -, hnext, -⟩ := control_fields hcursor
  rw [hu, eq_of_blurred hblur, hnext, hl, ctxN_of_blurred hblur]

theorem ctxBytes_ended (h : ctxTakes k s n vals) (ht : ctxPushAll vals s = .ended t) :
    ∃ u, ctxBytes k n s = .ended u ∧ u = { t with inNext := u.inNext, ctxLastn := u.ctxLastn } := by
  obtain ⟨hin, hvals, -⟩ := h
  have hpush := ctxBytes_pushes n hin hvals
  rw [ht] at hpush
  obtain ⟨u, hu, hblur⟩ := Flow.map_eq_ended hpush
  exact ⟨u, hu, eq_of_blurred hblur⟩

/-- A pass off the triplet boundary and before the end of the input does not stop the loop. -/
theorem ctxBytes_goes_on (h0 : s.ctxN = 0#3) (h : ctxTakes k s n vals) (hoff : vals.length % 3 ≠ 0)
    (hleft : s.inNext.toNat + n < s.inLen.toNat) (hu : ctxBytes k n s = .go u) : ¬ (u.ctxN = 0#3 ∨ u.inNext = u.inLen) := by
  obtain ⟨hin, hvals, -⟩ := h
  have hpush := ctxBytes_pushes n hin hvals
  rw [hu] at hpush
  obtain ⟨t, ht, hblur⟩ := Flow.map_eq_go hpush.symm
  have hn := ctxPushAll_boundary h0 ht
  have hcursor := ctxBytes_cursor (k := k) (s := s) n
  rw [hu] at hcursor
  obtain ⟨-, hlen, hnext, -⟩ := control_fields hcursor
  have := s.inLen.isLt
  rintro (hempty | hend)
  · rw [ctxN_of_blurred hblur, hempty] at hn
    exact hoff hn.symm
  · rw [hlen, hnext] at hend
    have hsum := congrArg BitVec.toNat hend
    dsimp only at hsum
    rw [count_add (by omega)] at hsum
    omega

/-- No pass before the last of the bytes taken stops the loop. -/
theorem ctxBytes_goes_on_before (h0 : s.ctxN = 0#3) (h : ctxTakes k s n vals) {m : Nat} (h1 : 1 ≤ m) (hm : m < n)
    (hu : ctxBytes k m s = .go u) : ¬ (u.ctxN = 0#3 ∨ u.inNext = u.inLen) := by
  obtain ⟨vs, htakes⟩ := ctxTakes_of_le h hm.le
  obtain ⟨-, hvs, -⟩ := id htakes
  obtain ⟨hin, -, hbound⟩ := h
  exact ctxBytes_goes_on h0 htakes (hbound m vs h1 hm hvs) (by omega) hu

end

/-- With input left a chunk is the loop, and CTX_PARTIAL where the loop leaves values in the buffer. -/
theorem ctxChunk_loop (hne : s.inNext ≠ s.inLen) : ctxChunk k s =
    (ctxLoop k (s.inLen.toNat - s.inNext.toNat) s).andThen fun u => if 0 < u.ctxN.toNat then ctxPartial k u else .go u :=
  if_neg hne

/-- A chunk whose passes but the last go on comes to the test after the last one. -/
theorem ctxChunk_passes {n : Nat} (hin : s.inNext.toNat + n < s.inLen.toNat)
    (hgo : ∀ m u, 1 ≤ m → m ≤ n → ctxBytes k m s = .go u → ¬ (u.ctxN = 0#3 ∨ u.inNext = u.inLen)) :
    ∃ fuel, ctxChunk k s = ((ctxBytes k (n + 1) s).andThen fun u =>
      if u.ctxN = 0#3 ∨ u.inNext = u.inLen then .go u else ctxLoop k fuel u).andThen
        fun u => if 0 < u.ctxN.toNat then ctxPartial k u else .go u := by
  have hne : s.inNext ≠ s.inLen := fun e => absurd hin (by rw [e]; omega)
  refine ⟨s.inLen.toNat - s.inNext.toNat - (n + 1), ?_⟩
  rw [ctxChunk_loop hne, ← ctxLoop_bytes n _ hgo, Nat.add_sub_of_le (by omega)]

/-- Where the passes over the bytes taken stop the loop, the chunk is done or CTX_PARTIAL follows. -/
theorem ctxChunk_stops {n : Nat} {vals : List CtxValue} {u : State} (h0 : s.ctxN = 0#3) (h1 : 1 ≤ n) (h : ctxTakes k s n vals)
    (hu : ctxBytes k n s = .go u) (hstop : u.ctxN = 0#3 ∨ u.inNext = u.inLen) :
    ctxChunk k s = if 0 < u.ctxN.toNat then ctxPartial k u else .go u := by
  obtain ⟨m, rfl⟩ := Nat.exists_eq_add_of_le' h1
  obtain ⟨hin, -⟩ := id h
  obtain ⟨fuel, e⟩ := ctxChunk_passes (k := k) (n := m) hin fun j v hj hm hv =>
    ctxBytes_goes_on_before h0 h hj (Nat.lt_succ_of_le hm) hv
  rw [e, hu, andThen_go, if_pos hstop, andThen_go]

/-- Where a pass over the bytes taken ends the encode, so does the chunk. -/
theorem ctxChunk_ended {n : Nat} {vals : List CtxValue} {u : State} (h0 : s.ctxN = 0#3) (h1 : 1 ≤ n) (h : ctxTakes k s n vals)
    (hu : ctxBytes k n s = .ended u) : ctxChunk k s = .ended u := by
  obtain ⟨m, rfl⟩ := Nat.exists_eq_add_of_le' h1
  obtain ⟨hin, -⟩ := id h
  obtain ⟨fuel, e⟩ := ctxChunk_passes (k := k) (n := m) hin fun j v hj hm hv =>
    ctxBytes_goes_on_before h0 h hj (Nat.lt_succ_of_le hm) hv
  rw [e, hu]
  rfl

/-- A byte without values after the bytes taken raises its reason there. -/
theorem ctxChunk_raises {n : Nat} {vals : List CtxValue} {u : State} {r : Reason} (h0 : s.ctxN = 0#3) (h : ctxTakes k s n vals)
    (hoff : n = 0 ∨ vals.length % 3 ≠ 0) (hleft : s.inNext.toNat + n < s.inLen.toNat)
    (hr : expand k (readIn s (s.inNext.toNat + n)) = .error r) (hu : ctxBytes k n s = .go u) :
    ctxChunk k s = raise .invalid r u := by
  obtain ⟨fuel, e⟩ := ctxChunk_passes (k := k) hleft fun j v hj hm hv => by
    obtain hlt | rfl := Nat.lt_or_eq_of_le hm
    · exact ctxBytes_goes_on_before h0 h hj hlt hv
    · exact ctxBytes_goes_on h0 h (hoff.resolve_left (by omega)) hleft hv
  have hcursor := ctxBytes_cursor (k := k) (s := s) n
  rw [hu] at hcursor
  have hraise : ctxByte k u = raise .invalid r u := ctxByte_error (by rw [readIn_after_passes hleft hcursor]; exact hr)
  rw [e, ctxBytes, hu, andThen_go, hraise]
  rfl

/-- A chunk that goes on has emptied its buffer, since CTX_PARTIAL ends the encode. -/
theorem ctxChunk_empties (h0 : s.ctxN = 0#3) : (ctxChunk k s).Meets (fun t => t.ctxN = 0#3) fun _ => True := by
  unfold ctxChunk
  split
  · exact h0
  · cases ctxLoop k (s.inLen.toNat - s.inNext.toNat) s with
    | ended u => trivial
    | go u =>
      rw [andThen_go]
      split
      · exact (ctxPartial_ends u k).mono fun _ hf => hf.elim
      · exact BitVec.eq_of_toNat_eq (Nat.eq_zero_of_not_pos ‹_›)

end

/-! ### The obligations -/

/-- Settles O44: the first pass raises before anything is written. -/
theorem ctxCharacterErrorIsPrecise : Obligations.CtxCharacterErrorIsPrecise := by
  intro k s r hlt hr
  obtain ⟨n, hn⟩ : ∃ n, s.inLen.toNat - s.inNext.toNat = n + 1 := ⟨s.inLen.toNat - s.inNext.toNat - 1, by omega⟩
  rw [ctxChunk_loop fun e => absurd hlt (by rw [e]; exact Nat.lt_irrefl _), hn, ctxLoop, ctxByte_error hr]
  rfl

/-- Settles O43: the loop is its passes over the bytes taken, which push what the bytes expand to. -/
theorem ctxChunkEndsWithAnEmptyBuffer : Obligations.CtxChunkEndsWithAnEmptyBuffer := by
  intro k s h0 hcur
  refine ⟨fun h => if_pos h, fun n vals t h1 h hv ht => ?_, fun n vals t h1 h hv hend ht => ?_, fun n vals t r h hv hleft hr ht => ?_,
    fun n vals t h1 h ht => ?_, fun t ht => ?_⟩
  · have hn := (ctxPushAll_boundary h0 ht).trans hv
    have hl := ctxPushAll_boundary_lastn h0 (ctxTakes_ne_nil h h1) hv ht
    rw [ctxChunk_stops h0 h1 h (ctxBytes_go h0 h ht) (.inl (BitVec.eq_of_toNat_eq hn)), if_neg (by dsimp only; omega),
      if_neg (by omega), hn, ctxLastCount_empty, ← hl]
  · have hnext : s.inNext + BitVec.ofNat 16 n = s.inLen := BitVec.eq_of_toNat_eq (by rw [count_add (by omega), hend])
    have hlen : t.inLen = s.inLen := by
      have hsteady := ctxPushAll_steady vals s
      rw [ht] at hsteady
      obtain ⟨-, hlen, -⟩ := control_fields hsteady
      exact hlen
    have hn := ctxPushAll_boundary h0 ht
    rw [ctxChunk_stops h0 h1 h (ctxBytes_go h0 h ht) (.inr (hnext.trans hlen.symm)), if_pos (by dsimp only; omega), hnext,
      if_neg (by omega)]
  · exact ctxChunk_raises h0 h hv hleft hr (ctxBytes_go h0 h ht)
  · obtain ⟨u, hu, eu⟩ := ctxBytes_ended h ht
    exact ⟨u, ctxChunk_ended h0 h1 h hu, eu⟩
  · have hempty := ctxChunk_empties (k := k) h0
    rw [ht] at hempty
    exact hempty

end Sys2Proof.Machine
end

section
/-! PROOFS. The ends of an EDIFACT encode (spec R117, R136, R137, R195 to R199, R257): the scratch probe is the ASCII encoding of the
remaining input as far as it fits, and after it the encode goes on, finishes in ASCII, or finishes behind the unlatch. -/

namespace Sys2Proof.Machine

section
variable {s : State}

/-! ### The ASCII encoding of the remaining input, unit by unit (R131 to R136, R257) -/

/-- The encoding of the input from an index on begins with the unit there. -/
theorem asciiEncode_unit {j : Nat} (h : j < s.inLen.toNat) : asciiEncode (inputFrom s j (s.inLen.toNat - j)) =
    (asciiUnitAt s j).1 ++
      asciiEncode (inputFrom s (j + (asciiUnitAt s j).2) (s.inLen.toNat - (j + (asciiUnitAt s j).2))) := by
  obtain ⟨n, hn⟩ : ∃ n, s.inLen.toNat - j = n + 1 := ⟨s.inLen.toNat - j - 1, by omega⟩
  rw [hn]
  cases n with
  | zero =>
    have hlast : ¬ j + 1 < s.inLen.toNat := by omega
    rw [asciiUnitAt, if_neg fun ⟨hnext, _⟩ => hlast hnext, show s.inLen.toNat - (j + 1) = 0 by omega]
    exact (List.append_nil _).symm
  | succ n =>
    have hnext : j + 1 < s.inLen.toNat := by omega
    rw [inputFrom, inputFrom, asciiEncode, asciiUnitAt]
    by_cases hpair : isDigit (readIn s j) = true ∧ isDigit (readIn s (j + 1)) = true
    · obtain ⟨h1, h2⟩ := hpair
      rw [if_pos (by rw [h1, h2]; rfl), if_pos ⟨hnext, h1, h2⟩, show s.inLen.toNat - (j + 2) = n by omega]
      rfl
    · rw [if_neg fun hd => hpair (Bool.and_eq_true_iff.1 hd), if_neg fun ⟨_, hd⟩ => hpair hd,
        show s.inLen.toNat - (j + 1) = n + 1 by omega]
      rfl

/-- The probe from an index on, with the codewords so far: it fits exactly if the encoding does, and then appends it. -/
theorem ediProbeLoop_spec (n : Nat) : ∀ (j : Nat) (acc : List Byte), acc.length ≤ 3 → 4 ≤ n + acc.length → j ≤ s.inLen.toNat →
    ((ediProbeLoop s n j acc).1 = true ↔
      acc.length + (asciiEncode (inputFrom s j (s.inLen.toNat - j))).length ≤ 3) ∧
    ((ediProbeLoop s n j acc).1 = true →
      (ediProbeLoop s n j acc).2 = acc ++ asciiEncode (inputFrom s j (s.inLen.toNat - j))) := by
  induction n with
  | zero => intro j acc h h4 _; omega
  | succ n ih =>
    intro j acc h h4 hj
    rw [ediProbeLoop]
    split
    next hend =>
      rw [show s.inLen.toNat - j = 0 by omega]
      exact ⟨⟨fun _ => h, fun _ => rfl⟩, fun _ => (List.append_nil acc).symm⟩
    next hleft =>
      have hlt := Nat.not_le.1 hleft
      have hpos := asciiUnitAt_pos s j
      rw [asciiEncode_unit hlt, List.length_append]
      have hscratch : Config.ediScratch = 3 := rfl
      dsimp only
      by_cases hover : Config.ediScratch < acc.length + (asciiUnitAt s j).1.length
      · rw [if_pos hover]
        exact ⟨⟨nofun, fun hfits => by omega⟩, nofun⟩
      · rw [if_neg hover]
        obtain ⟨hiff, hcws⟩ := ih (j + (asciiUnitAt s j).2) (acc ++ (asciiUnitAt s j).1)
          (by rw [List.length_append]; omega) (by rw [List.length_append]; omega) (asciiUnitAt_le hlt)
        rw [List.length_append, Nat.add_assoc] at hiff
        rw [List.append_assoc] at hcws
        exact ⟨hiff, hcws⟩

/-- `EDI_PROBE` passes exactly if the remaining input is at most three ASCII codewords, and then gives them (R257). -/
theorem ediProbe_spec (h : s.inNext.toNat ≤ s.inLen.toNat) :
    ((ediProbe s).1 = true ↔ (asciiEncode (remainingInput s)).length ≤ 3) ∧
    ((ediProbe s).1 = true → (ediProbe s).2 = asciiEncode (remainingInput s)) := by
  have hspec := ediProbeLoop_spec (s := s) (Config.ediScratch + 1) s.inNext.toNat [] (by decide) (by decide) h
  rwa [List.length_nil, Nat.zero_add, List.nil_append] at hspec

/-! ### The implicit end (R196) -/

/-- The encode can finish in ASCII without an unlatch, in the size `z` (R196). -/
def EndsInAscii (s : State) (z : Nat) : Prop :=
  s.chainValues.toNat % 4 = 0 ∧ (asciiEncode (remainingInput s)).length ≤ 2 ∧
  findSize s (s.outLen.toNat + (asciiEncode (remainingInput s)).length) = some z ∧ dw s.params z ≤ s.outLen.toNat + 2

theorem ediImplicitEnd_of_endsInAscii {z : Nat} (h : s.inNext.toNat ≤ s.inLen.toNat) (hz : EndsInAscii s z) :
    ediImplicitEnd s = some (z, asciiEncode (remainingInput s)) := by
  obtain ⟨hphase, hlen, hfind, hdw⟩ := hz
  obtain ⟨hiff, hcws⟩ := ediProbe_spec h
  have hprobe := hiff.2 (Nat.le_succ_of_le hlen)
  rw [ediImplicitEnd, hcws hprobe, if_pos ⟨hphase, hprobe, hlen⟩, hfind]
  exact if_pos (by omega)

theorem ediImplicitEnd_eq_none (h : s.inNext.toNat ≤ s.inLen.toNat) (hnone : ∀ z, ¬ EndsInAscii s z) :
    ediImplicitEnd s = none := by
  obtain ⟨hiff, hcws⟩ := ediProbe_spec h
  unfold ediImplicitEnd
  split
  next hfits =>
    obtain ⟨hphase, hprobe, hlen⟩ := hfits
    rw [hcws hprobe] at hlen ⊢
    split
    next z hfind => exact if_neg fun hdw => hnone z ⟨hphase, hlen, hfind, by omega⟩
    · rfl
  · rfl

/-- ASCII codewords, then pads, fill a symbol that holds them, and the encode is complete (R137, R196). -/
theorem asciiTail_fills {tail : List Byte} {z : Nat} (hp : s.params.ok) (h : s.outLen.toNat + tail.length ≤ dw s.params z) :
    ∃ m, ((asciiAppendAll tail s).andThen fun v => (pad z { v with inNext := v.inLen }).andThen (complete z)) = .ended { s with
        outMem := m
        outLen := BitVec.ofNat 16 (dw s.params z)
        inNext := s.inLen
        chainWords := s.chainWords + BitVec.ofNat 16 (dw s.params z - s.outLen.toNat)
        chainValues := s.chainValues + BitVec.ofNat 16 (dw s.params z - s.outLen.toNat)
        status := .complete
        sizeIdx := BitVec.ofNat 8 z } ∧
      (∀ j, j < tail.length → readOut { s with outMem := m } (s.outLen.toNat + j) = tail.getD j 0#8) ∧
      paddedRun { s with outMem := m } (s.outLen.toNat + tail.length) (dw s.params z) ∧
      ∀ a, a < s.outLen.toNat → readOut { s with outMem := m } a = readOut s a := by
  have hcap := outCap_le hp
  have hdw := dw_lt_outCap hp z
  obtain ⟨t, e, ht⟩ := asciiAppendAll_appended (s := s) (cws := tail) (by omega) (by omega)
  have hlen := appended_outLen ht (by omega)
  obtain ⟨ht, hnew, hold⟩ := ht
  have hparams : t.params = s.params := by rw [ht]
  have hdraw : t.draw = s.draw := by rw [ht]
  obtain ⟨m, e', hpad, hold'⟩ := pad_fills (s := { t with inNext := t.inLen }) (z := z) (by rw [hparams]; exact hp)
    (by rw [hparams, hlen]; exact h)
  have hread : ∀ a, readOut { s with outMem := m } a = readOut { t with inNext := t.inLen, outMem := m } a :=
    readOut_congr rfl hdraw.symm
  have hsum : ∀ x : Count, x + BitVec.ofNat 16 tail.length + BitVec.ofNat 16 (dw s.params z - (s.outLen.toNat + tail.length)) =
      x + BitVec.ofNat 16 (dw s.params z - s.outLen.toNat) := fun x => by
    rw [BitVec.add_assoc, ← BitVec.ofNat_add]
    congr 2
    omega
  simp only [hparams, hlen] at hpad hold'
  refine ⟨m, ?_, fun j hj => ?_, fun i hi hi' => (hread i).trans (hpad i hi hi'), fun a ha => ?_⟩
  · rw [e, andThen_go, e', andThen_go, complete_filled (count_ofNat (by rw [hparams]; omega)) rfl]
    simp only [hparams, hlen]
    rw [ht]
    simp only [hsum]
  · exact (hread _).trans ((hold' _ (.inl (by omega))).trans (hnew j hj))
  · exact (hread _).trans ((hold' _ (.inl (by omega))).trans (hold a (.inl ha)))

/-- The implicit end that is not the exact one: the codewords and the pads in Ascii, without an unlatch (R196). -/
theorem ediEnd_implicit {z : Nat} (h : s.inNext.toNat ≤ s.inLen.toNat) (hz : EndsInAscii s z)
    (hne : ¬ (asciiEncode (remainingInput s) = [] ∧ dw s.params z = s.outLen.toNat)) : ediEnd s =
    (asciiAppendAll (asciiEncode (remainingInput s)) { s with scheme := .ascii, chainWords := 0#16, chainValues := 0#16 }).andThen
      fun v => (pad z { v with inNext := v.inLen }).andThen (complete z) := by
  rw [ediEnd, ediImplicitEnd_of_endsInAscii h hz]
  exact if_neg fun ⟨hnil, hfull⟩ => hne ⟨List.length_eq_zero_iff.1 hnil, hfull⟩

/-! ### The explicit end (R198) and going on (R199) -/

/-- Without an implicit end EDI_END goes on with input left, and else is the explicit end. -/
theorem ediEnd_none (h : ediImplicitEnd s = none) :
    ediEnd s = if s.inNext = s.inLen then (changeScheme .ascii .explicit s).andThen finishSized else .go s := by
  rw [ediEnd, h]
  rfl

/-- The unlatch of EDIFACT begins an Ascii chain, or overflows (R43, R117, R195). -/
theorem changeScheme_edifact_cases (hs : s.scheme = .edifact) :
    (∃ u, changeScheme .ascii .explicit s = .go u ∧ control u = control { s with scheme := .ascii } ∧
      u.chainWords = 0#16 ∧ u.chainValues = 0#16) ∨
    ∃ m, changeScheme .ascii .explicit s = .ended (overflowed { s with outMem := m }) := by
  rw [changeScheme_edifact hs]
  by_cases hp : s.chainValues.toNat % 4 = 3
  · obtain ⟨m, e, -⟩ := ediPack_fill ediUnlatchValue hp
    rw [e]
    exact .inl ⟨_, rfl, rfl, rfl, rfl⟩
  · by_cases hl : s.outLen.toNat = s.params.outCap
    · obtain ⟨m, e, -⟩ := ediPack_full ediUnlatchValue hp hl
      rw [e]
      exact .inr ⟨m, rfl⟩
    · obtain ⟨m, e, -⟩ := ediPack_room ediUnlatchValue hp hl
      rw [e]
      exact .inl ⟨_, rfl, rfl, rfl, rfl⟩

end

/-! ### The obligation -/

/-- Settles O52: the implicit end is the codewords and pads of the probe; without it EDI_END waits for the end of the input, and then is
the unlatch row and the common end. -/
theorem edifactImplicitEnd : Obligations.EdifactImplicitEnd := by
  intro s hp hin
  refine ⟨fun z hz hne => ?_, fun hnone => ?_⟩
  · obtain ⟨-, -, hfind, -⟩ := id hz
    obtain ⟨m, e, htail, hpad, hold⟩ := asciiTail_fills (tail := asciiEncode (remainingInput s)) (z := z)
      (s := { s with scheme := .ascii, chainWords := 0#16, chainValues := 0#16 }) hp (le_dw_of_find hfind)
    rw [ediEnd_implicit hin hz hne, e, BitVec.zero_add]
    exact ⟨_, rfl, rfl, htail, hpad, hold⟩
  · rw [ediEnd_none (ediImplicitEnd_eq_none hin hnone)]
    refine ⟨fun hleft => if_neg hleft, fun hend hs hscheme u hu => ?_⟩
    have hrun : exec .ediUnlatch s = .next (changeScheme .ascii .explicit s).state := emitUnit_runs hs (inScheme_iff.2 hscheme) _
    rw [hrun] at hu
    rw [if_pos hend]
    obtain ⟨v, e, hcontrol, hw, hv⟩ | ⟨m, e⟩ := changeScheme_edifact_cases hscheme <;> rw [e] at hu ⊢ <;> cases hu
    · obtain ⟨hparams, hlen, hnext, -, hstatus⟩ := control_fields hcontrol
      have hrunning : v.status ≠ .invalid := by rw [hstatus, hs]; decide
      refine ⟨fun hinv => absurd hinv hrunning, fun _ hfind => ?_, fun _ z hfind => ?_⟩
      · exact finishSized_none hfind
      · obtain ⟨m, e', hpad, hold⟩ := finishSized_found (s := v) (by rw [hparams]; exact hp) (by rw [hnext, hlen]; exact hend) hfind
        have hsame : s.params = v.params := hparams.symm
        rw [state_go, andThen_go, e', hw, hv, BitVec.zero_add, hsame]
        exact ⟨_, rfl, rfl, hpad, fun a ha => hold a (.inl ha)⟩
    · exact ⟨fun _ => ⟨rfl, rfl⟩, fun hne => absurd rfl hne, fun hne => absurd rfl hne⟩

end Sys2Proof.Machine
end

section
/-! PROOFS. The ASCII packer and its end (spec R130 to R139, R257): a chunk appends the unit under the cursor, so repeated chunks append
the units that `ascii_encode` lists, and the end pads the symbol. -/

namespace Sys2Proof.Machine

/-! ### Units (R131 to R133) -/

theorem isDigit_iff {b : Byte} : isDigit b = true ↔ 48 ≤ b.toNat ∧ b.toNat ≤ 57 := by
  rw [isDigit, Bool.and_eq_true, decide_eq_true_iff, decide_eq_true_iff]

theorem asciiByte_plain {b : Byte} (h : b.toNat ≤ 127) : asciiByte b = [BitVec.ofNat 8 (b.toNat + 1)] := if_pos h

theorem asciiByte_extended {b : Byte} (h : 128 ≤ b.toNat) : asciiByte b = [235#8, BitVec.ofNat 8 (b.toNat - 127)] :=
  if_neg (by omega)

theorem asciiByte_length (b : Byte) : 1 ≤ (asciiByte b).length ∧ (asciiByte b).length ≤ 2 := by
  unfold asciiByte
  split <;> simp

/-- The values R139 allows the codewords of ASCII data. -/
def IsAsciiCodeword (c : Byte) : Prop := (1 ≤ c.toNat ∧ c.toNat ≤ 229) ∨ c = 235#8

theorem isAsciiCodeword_ofNat {n : Nat} (h : 1 ≤ n ∧ n ≤ 229) : IsAsciiCodeword (BitVec.ofNat 8 n) := by
  rw [IsAsciiCodeword, BitVec.toNat_ofNat]
  omega

/-- The codeword of a digit pair is in 130..229 (R131). -/
theorem digitPair_isAsciiCodeword {x y : Byte} (hx : isDigit x = true) (hy : isDigit y = true) :
    IsAsciiCodeword (digitPair x y) := by
  rw [isDigit_iff] at hx hy
  exact isAsciiCodeword_ofNat (by omega)

theorem asciiByte_isAsciiCodeword (b : Byte) : ∀ c ∈ asciiByte b, IsAsciiCodeword c := by
  intro c hc
  by_cases hplain : b.toNat ≤ 127
  · rw [asciiByte_plain hplain, List.mem_singleton] at hc
    exact hc ▸ isAsciiCodeword_ofNat (by omega)
  · rw [asciiByte_extended (by omega), List.mem_pair] at hc
    obtain rfl | rfl := hc
    · exact .inr rfl
    · exact isAsciiCodeword_ofNat (by omega)

/-! ### The codewords of a list of bytes (R136, R139) -/

theorem asciiEncode_isAsciiCodeword (xs : List Byte) : ∀ c ∈ asciiEncode xs, IsAsciiCodeword c := by
  induction xs using asciiEncode.induct with
  | case1 => exact nofun
  | case2 x => exact asciiByte_isAsciiCodeword x
  | case3 x y rest hpair ih =>
    rw [asciiEncode, if_pos hpair]
    obtain ⟨hx, hy⟩ := Bool.and_eq_true_iff.1 hpair
    exact List.forall_mem_cons.2 ⟨digitPair_isAsciiCodeword hx hy, ih⟩
  | case4 x y rest hpair ih =>
    rw [asciiEncode, if_neg hpair]
    exact List.forall_mem_append.2 ⟨asciiByte_isAsciiCodeword x, ih⟩

theorem asciiEncode_length (xs : List Byte) :
    (asciiEncode xs).length ≤ 2 * xs.length ∧ xs.length ≤ 2 * (asciiEncode xs).length := by
  induction xs using asciiEncode.induct with
  | case1 => exact ⟨Nat.le_refl _, Nat.le_refl _⟩
  | case2 x =>
    have := asciiByte_length x
    rw [asciiEncode, List.length_singleton]
    omega
  | case3 x y rest hpair ih =>
    rw [asciiEncode, if_pos hpair]
    simp only [List.length_cons]
    omega
  | case4 x y rest hpair ih =>
    have := asciiByte_length x
    rw [asciiEncode, if_neg hpair, List.length_append]
    simp only [List.length_cons] at ih ⊢
    omega

section
variable {s t : State} {cws : List Byte} {k : Nat}

/-! ### One chunk (R134) -/

theorem asciiUnitAt_pair {i : Nat} (h : i + 1 < s.inLen.toNat ∧ isDigit (readIn s i) = true ∧ isDigit (readIn s (i + 1)) = true) :
    asciiUnitAt s i = ([digitPair (readIn s i) (readIn s (i + 1))], 2) := if_pos h

theorem asciiUnitAt_single {i : Nat}
    (h : ¬ (i + 1 < s.inLen.toNat ∧ isDigit (readIn s i) = true ∧ isDigit (readIn s (i + 1)) = true)) :
    asciiUnitAt s i = (asciiByte (readIn s i), 1) := if_neg h

/-- With room for its codewords, the unit under the cursor is appended and its bytes are consumed. -/
theorem asciiChunk_unit {n : Nat} (hp : s.params.ok) (hlt : s.inNext.toNat < s.inLen.toNat)
    (hunit : asciiUnitAt s s.inNext.toNat = (cws, n)) (hroom : s.outLen.toNat + cws.length ≤ s.params.outCap) :
    ∃ t, appended s t cws cws.length ∧ asciiChunk s = .go { t with inNext := s.inNext + BitVec.ofNat 16 n } := by
  have hcap := outCap_le hp
  have hne : s.inNext ≠ s.inLen := fun e => Nat.ne_of_lt hlt (congrArg BitVec.toNat e)
  obtain ⟨t, e, ht⟩ := asciiAppendAll_appended (s := s) (cws := cws) (by omega) hroom
  have hnext : t.inNext = s.inNext := by rw [ht.1]
  refine ⟨t, ht, ?_⟩
  rw [asciiChunk, if_neg hne, hunit]
  dsimp only
  rw [e, andThen_go, hnext]

theorem asciiChunk_done (h : s.inNext = s.inLen) : asciiChunk s = .go s := if_pos h

/-! ### Repeated chunks (R136) -/

/-- An append does not read the cursor. -/
theorem appended_inNext (i : Count) (h : appended s t cws k) : appended { s with inNext := i } { t with inNext := i } cws k := by
  obtain ⟨e, hnew, hold⟩ := h
  exact ⟨congrArg (fun u : State => { u with inNext := i }) e, hnew, hold⟩

/-- An append, a move of the cursor and an append are one append and a move of the cursor. -/
theorem appended_trans_inNext {u : State} {as bs : List Byte} {j : Nat} {i : Count} (h : appended s t as j)
    (h' : appended { t with inNext := i } u bs k) (hb : s.outLen.toNat + as.length < 65536) :
    appended s { u with inNext := s.inNext } (as ++ bs) (j + k) := by
  have hback : { t with inNext := s.inNext } = t := by rw [h.1]
  have h'' := appended_inNext s.inNext h'
  rw [hback] at h''
  exact appended_trans h h'' hb

theorem asciiChunks_done (n : Nat) (h : s.inNext = s.inLen) : asciiChunks n s = .go s := by
  induction n with
  | zero => rfl
  | succ n ih => rw [asciiChunks, asciiChunk_done h, andThen_go, ih]

/-- Without input left the encoding is empty, and chunks do nothing. -/
theorem asciiChunks_appended_done (n : Nat) (h : s.inNext = s.inLen) :
    ∃ t, appended s t (asciiEncode (remainingInput s)) (asciiEncode (remainingInput s)).length ∧
      asciiChunks n s = .go { t with inNext := s.inLen } := by
  rw [remainingInput, h, Nat.sub_self, asciiChunks_done n h]
  exact ⟨s, appended_nil s, congrArg (fun i => Flow.go { s with inNext := i }) h⟩

/-- What an append leaves of the input, from the cursor `i` on. -/
theorem remainingInput_appended (h : appended s t cws k) (i : Count) :
    remainingInput { t with inNext := i } = inputFrom s i.toNat (s.inLen.toNat - i.toNat) := by
  have hlen : t.inLen = s.inLen := by rw [h.1]
  rw [remainingInput, hlen]
  exact inputFrom_congr (by rw [h.1]) (by rw [h.1]) _ _

/-- With input left, a chunk appends the unit that the encoding of the remaining input begins with, and leaves the bytes of the rest. -/
theorem asciiChunk_step (hp : s.params.ok) (hlt : s.inNext.toNat < s.inLen.toNat)
    (hroom : s.outLen.toNat + (asciiEncode (remainingInput s)).length ≤ s.params.outCap) :
    ∃ t cws i, appended s t cws cws.length ∧ asciiChunk s = .go { t with inNext := i } ∧
      (s.inNext.toNat < i.toNat ∧ i.toNat ≤ s.inLen.toNat) ∧
      asciiEncode (remainingInput s) = cws ++ asciiEncode (remainingInput { t with inNext := i }) := by
  obtain ⟨cws, n, hunit⟩ : ∃ cws n, asciiUnitAt s s.inNext.toNat = (cws, n) := ⟨_, _, rfl⟩
  have hle := asciiUnitAt_le hlt
  have hpos := asciiUnitAt_taken_pos s s.inNext.toNat
  have hsplit := asciiEncode_unit hlt
  simp only [hunit] at hle hpos hsplit
  have hcursor : (s.inNext + BitVec.ofNat 16 n).toNat = s.inNext.toNat + n := count_add (by omega)
  rw [remainingInput, hsplit, List.length_append] at hroom
  obtain ⟨t, ht, e⟩ := asciiChunk_unit hp hlt hunit (by omega)
  refine ⟨t, cws, _, ht, e, by omega, ?_⟩
  rw [remainingInput_appended ht, hcursor, remainingInput, hsplit]

/-- Enough chunks append the encoding of the remaining input, with room for exactly that, and consume it. -/
theorem asciiChunks_appended (n : Nat) : ∀ {s : State}, s.params.ok → s.inNext.toNat ≤ s.inLen.toNat →
    s.inLen.toNat - s.inNext.toNat ≤ n → s.outLen.toNat + (asciiEncode (remainingInput s)).length ≤ s.params.outCap →
    ∃ t, appended s t (asciiEncode (remainingInput s)) (asciiEncode (remainingInput s)).length ∧
      asciiChunks n s = .go { t with inNext := s.inLen } := by
  induction n with
  | zero => exact fun _ hin hn _ => asciiChunks_appended_done 0 (BitVec.eq_of_toNat_eq (by omega))
  | succ n ih =>
    intro s hp hin hn hroom
    by_cases hdone : s.inNext = s.inLen
    · exact asciiChunks_appended_done (n + 1) hdone
    · have hcap := outCap_le hp
      have hlt := Nat.lt_of_le_of_ne hin fun e => hdone (BitVec.eq_of_toNat_eq e)
      obtain ⟨t, cws, i, ht, e, ⟨hmoved, hinside⟩, hsplit⟩ := asciiChunk_step hp hlt hroom
      rw [hsplit, List.length_append] at hroom ⊢
      have hparams : t.params = s.params := by rw [ht.1]
      have houtCap : t.params.outCap = s.params.outCap := by rw [hparams]
      have hinLen : t.inLen = s.inLen := by rw [ht.1]
      have hlen := appended_outLen ht (by omega)
      obtain ⟨u, hu, e'⟩ := ih (s := { t with inNext := i }) (by rwa [hparams]) (by rw [hinLen]; exact hinside)
        (by rw [hinLen]; dsimp only; omega) (by dsimp only; omega)
      refine ⟨_, appended_trans_inNext ht hu (by omega), ?_⟩
      rw [asciiChunks, e, andThen_go, e', hinLen]

end

/-! ### The pads and the end (R137, R138) -/

theorem asciiComplete_left {s : State} (h : s.inNext.toNat < s.inLen.toNat) : asciiComplete s = .go s := if_pos h

theorem asciiComplete_exhausted {s : State} (h : s.inNext = s.inLen) : asciiComplete s = finishSized s :=
  if_neg (by rw [h]; exact Nat.lt_irrefl _)

/-- Padding an output that is long enough does nothing (R137). -/
theorem pad_full {s : State} {z : Nat} (h : dw s.params z ≤ s.outLen.toNat) : pad z s = .go s := by
  rw [pad, Nat.sub_eq_zero_of_le h]
  rfl

/-! ### The obligations -/

/-- Settles O33: each form is the unit under the cursor, which the chunk appends. -/
theorem asciiChunkEncodesOneUnit : Obligations.AsciiChunkEncodesOneUnit := by
  intro s
  refine ⟨asciiChunk_done, fun hp hlt hroom => ?_⟩
  dsimp only
  simp only [← isDigit_iff]
  refine ⟨fun hpair => ?_, fun hsingle hb => ?_, fun hsingle hb => ?_⟩
  · exact asciiChunk_unit hp hlt (asciiUnitAt_pair hpair) (Nat.le_of_succ_le hroom)
  · exact asciiChunk_unit hp hlt ((asciiUnitAt_single hsingle).trans (by rw [asciiByte_plain hb])) (Nat.le_of_succ_le hroom)
  · exact asciiChunk_unit hp hlt ((asciiUnitAt_single hsingle).trans (by rw [asciiByte_extended hb])) hroom

/-- Settles O34, by induction on the number of chunks. -/
theorem repeatedAsciiChunksAreAsciiEncode : Obligations.RepeatedAsciiChunksAreAsciiEncode :=
  fun _ n hp hin hn hroom => asciiChunks_appended n hp hin hn hroom

/-- Settles O35, by the recursion of `asciiEncode`. -/
theorem asciiEncodeBounds : Obligations.AsciiEncodeBounds :=
  fun xs => ⟨asciiEncode_isAsciiCodeword xs, asciiEncode_length xs⟩

/-- Settles O36: the pads are appended up to the data words. -/
theorem padFillsTheSymbol : Obligations.PadFillsTheSymbol := by
  intro s z
  refine ⟨pad_full, fun hp _ hlen => ?_⟩
  obtain ⟨m, e, hpad, hold⟩ := pad_fills hp hlen
  exact ⟨_, e, rfl, hpad, hold⟩

/-- Settles O37: with the input exhausted it is the common end, by whether a size is found. -/
theorem asciiCompletion : Obligations.AsciiCompletion := by
  intro s
  refine ⟨asciiComplete_left, fun hp hin => ?_⟩
  rw [asciiComplete_exhausted hin]
  refine ⟨finishSized_none, fun z hfind => ?_⟩
  obtain ⟨m, e, hpad, hold⟩ := finishSized_found hp hin hfind
  exact ⟨_, e, rfl, hpad, fun a ha => hold a (.inl ha)⟩

/-- Settles O50: the probe adds the units of the encoding while they fit. -/
theorem edifactProbeIsBoundedAsciiEncode : Obligations.EdifactProbeIsBoundedAsciiEncode :=
  fun _ hin => ediProbe_spec hin

end Sys2Proof.Machine
end

section
/-! PROOFS. The CTX triplet packed by pushes, and the ends of a CTX encode at a triplet boundary (spec R159 to R161, R164, R170): the third
push appends the pair of the buffer, which fills the symbol in case (b); CTX_COMPLETE ends there, or behind the unlatch and the pads. -/

namespace Sys2Proof.Machine

section
variable {s t : State}

/-! ### The third push (R159, R160) -/

/-- The state with this CTX buffer and these counts of it (R21). -/
def withCtx (buf : Vector CtxValue 4) (n lastn : BitVec 3) (s : State) : State := { s with ctxBuf := buf, ctxN := n, ctxLastn := lastn }

/-- An append reads neither the CTX buffer nor its counts. -/
theorem appended_withCtx {cws : List Byte} {k : Nat} (buf : Vector CtxValue 4) (n lastn : BitVec 3) (h : appended s t cws k) :
    appended (withCtx buf n lastn s) (withCtx buf n lastn t) cws k := by
  obtain ⟨e, hnew, hold⟩ := h
  exact ⟨congrArg (withCtx buf n lastn) e, hnew, hold⟩

theorem setIfInBounds_eq_set (buf : Vector CtxValue 4) {i : Nat} (hi : i < 4) (v : CtxValue) :
    buf.setIfInBounds i v = buf.set i v :=
  Vector.ext fun j hj => by rw [Vector.getElem_setIfInBounds hj, Vector.getElem_set hi hj]

/-- Two pushes into an empty buffer only fill it. -/
theorem ctxPushAll_two (h : s.ctxN = 0#3) (v0 v1 : CtxValue) (rest : List CtxValue) : ctxPushAll (v0 :: v1 :: rest) s =
    ctxPushAll rest (withCtx ((s.ctxBuf.set 0 v0).set 1 v1) 2#3 (s.ctxLastn + 2#3) s) := by
  simp [ctxPushAll, ctxPush, h, setIfInBounds_eq_set, withCtx, BitVec.add_assoc]

/-- With room, the third push appends the pair of the buffer's two values and its own, and empties the buffer. -/
theorem ctxPush_third {v0 v1 : CtxValue} (h0 : s.ctxBuf[0] = v0) (h1 : s.ctxBuf[1] = v1) (hp : s.params.ok) (hn : s.ctxN = 2#3)
    (h : s.outLen.toNat + 2 ≤ s.params.outCap) (v2 : CtxValue) :
    ∃ t, appended s t [(ctxPair v0 v1 v2).extractLsb' 8 8, (ctxPair v0 v1 v2).extractLsb' 0 8] 3 ∧
      ctxPush v2 s = .go (withCtx (s.ctxBuf.set 2 v2) 0#3 0#3 t) := by
  have hcap := outCap_le hp
  have hpush : ctxPush v2 s = ctxEmitPair (ctxPair v0 v1 v2) (withCtx (s.ctxBuf.set 2 v2) 3#3 (s.ctxLastn + 1#3) s) := by
    simp [ctxPush, ctxPack, hn, setIfInBounds_eq_set, withCtx, h0, h1]
  obtain ⟨t, ht, e⟩ := ctxEmitPair_room (p := ctxPair v0 v1 v2)
    (s := withCtx (s.ctxBuf.set 2 v2) 3#3 (s.ctxLastn + 1#3) s) (Nat.lt_of_le_of_lt hcap (by decide)) h
  have hbuf : t.ctxBuf = s.ctxBuf.set 2 v2 := by rw [ht.1]; rfl
  have hback := appended_withCtx s.ctxBuf s.ctxN s.ctxLastn ht
  refine ⟨_, hback, ?_⟩
  rw [hpush, e, ← hbuf]
  rfl

end

/-- The high byte of a pair of any three values is that of the sum it is made of (R160). -/
theorem ctxPair_high (v0 v1 v2 : CtxValue) : (ctxPair v0 v1 v2).extractLsb' 8 8 =
    BitVec.ofNat 8 ((1600 * v0.toNat + 40 * v1.toNat + v2.toNat + 1) / 256) := by
  rw [pair_high, ctxPair, BitVec.toNat_ofNat]
  apply BitVec.eq_of_toNat_eq
  simp only [BitVec.toNat_ofNat]
  omega

theorem ctxPair_low (v0 v1 v2 : CtxValue) : (ctxPair v0 v1 v2).extractLsb' 0 8 =
    BitVec.ofNat 8 ((1600 * v0.toNat + 40 * v1.toNat + v2.toNat + 1) % 256) := by
  rw [pair_low, ctxPair, BitVec.toNat_ofNat, Nat.mod_mod_of_dvd _ (by decide)]

section
variable {s : State}

/-! ### The ends at a triplet boundary (R164, R170) -/

/-- With two values of C40 or Text and exactly room for the pair, CTX_PARTIAL is case (b) (R164). -/
theorem ctxPartial_shiftPad {k : CtxSet} {z : Nat} (hk : k ≠ .x12) (hn : s.ctxN = 2#3)
    (h : findSize s (s.outLen.toNat + 2) = some z) (hz : dw s.params z = s.outLen.toNat + 2) :
    ctxPartial k s = (ctxPush 0#6 s).andThen (complete z) := by
  have hsize : ctxShiftPadSize k s = some z := (if_pos ⟨hn, hk⟩).trans (findExact_some h hz)
  rw [ctxPartial, hsize]

theorem ctxComplete_left (h : s.inNext.toNat < s.inLen.toNat) : ctxComplete s = .go s := if_pos h

theorem ctxComplete_none (hin : s.inNext = s.inLen) (h : findSize s s.outLen.toNat = none) :
    ctxComplete s = raise .invalid .sizeUndefined s := by
  rw [ctxComplete, if_neg (by rw [hin]; exact Nat.lt_irrefl _), h]

theorem ctxComplete_some {z : Nat} (hin : s.inNext = s.inLen) (h : findSize s s.outLen.toNat = some z) :
    ctxComplete s = if dw s.params z = s.outLen.toNat then complete z s
      else (changeScheme .ascii .explicit s).andThen fun u => (pad z u).andThen (complete z) := by
  rw [ctxComplete, if_neg (by rw [hin]; exact Nat.lt_irrefl _), h]

/-- The unlatch and the pads fill a symbol with room for the unlatch, and the encode completes (R116, R137, R170). -/
theorem ctxUnlatch_pad_completes {z : Nat} (hp : s.params.ok) (hs : s.scheme = .c40 ∨ s.scheme = .text ∨ s.scheme = .x12)
    (hv : s.chainValues.toNat % 3 = 0) (hin : s.inNext = s.inLen) (h : s.outLen.toNat < dw s.params z) :
    ∃ m, ((changeScheme .ascii .explicit s).andThen fun u => (pad z u).andThen (complete z)) = .ended { s with
        outMem := m
        outLen := BitVec.ofNat 16 (dw s.params z)
        scheme := .ascii
        chainWords := BitVec.ofNat 16 (dw s.params z - (s.outLen.toNat + 1))
        chainValues := BitVec.ofNat 16 (dw s.params z - (s.outLen.toNat + 1))
        status := .complete
        sizeIdx := BitVec.ofNat 8 z } ∧
      readOut { s with outMem := m } s.outLen.toNat = 254#8 ∧
      paddedRun { s with outMem := m } (s.outLen.toNat + 1) (dw s.params z) ∧
      ∀ a, a < s.outLen.toNat → readOut { s with outMem := m } a = readOut s a := by
  have hcap := outCap_le hp
  have hdw := dw_lt_outCap hp z
  have hlen : (entered .ascii 254#8 s).outLen.toNat = s.outLen.toNat + 1 := count_add (by omega)
  have hwrite : ∀ a, readOut (entered .ascii 254#8 s) a = if a = s.outLen.toNat then 254#8 else readOut s a := fun a =>
    readOut_writeOut _ a 254#8 s
  obtain ⟨m, e, hpad, hold⟩ := pad_fills (s := entered .ascii 254#8 s) (z := z) hp (by rw [hlen]; exact h)
  rw [hlen] at e hpad hold
  refine ⟨m, ?_, ?_, hpad, fun a ha => ?_⟩
  · rw [changeScheme_ctx_room hs hv (by omega), andThen_go, e, andThen_go, complete_filled]
    · simp [entered]
    · exact count_ofNat (Nat.lt_of_lt_of_le hdw (by omega))
    · exact hin
  · exact (hold _ (.inl (Nat.lt_succ_self _))).trans ((hwrite _).trans (if_pos rfl))
  · exact (hold a (.inl (Nat.lt_succ_of_lt ha))).trans ((hwrite a).trans (if_neg (Nat.ne_of_lt ha)))

end

/-! ### The obligations -/

/-- Settles O42: two pushes fill the buffer, and the third appends the pair. -/
theorem threePushesEmitOnePair : Obligations.ThreePushesEmitOnePair := by
  intro v0 v1 v2 s hp hn h
  rw [← ctxPair_high, ← ctxPair_low]
  obtain ⟨t, ht, e⟩ := ctxPush_third (s := withCtx ((s.ctxBuf.set 0 v0).set 1 v1) 2#3 (s.ctxLastn + 2#3) s)
    (v0 := v0) (v1 := v1) (by simp [withCtx]) (by simp [withCtx]) hp rfl h v2
  have hback := appended_withCtx s.ctxBuf s.ctxN s.ctxLastn ht
  have hrun : ctxPushAll [v0, v1, v2] s = .go (withCtx (((s.ctxBuf.set 0 v0).set 1 v1).set 2 v2) 0#3 0#3 t) := by
    rw [ctxPushAll_two hn, ctxPushAll, e]
    rfl
  exact ⟨_, _, hrun, hback, rfl, by simp [withCtx]⟩

/-- Settles O45: the padding Shift1 is the third push, which fills the symbol. -/
theorem ctxShiftPaddedTriplet : Obligations.CtxShiftPaddedTriplet := by
  intro k s z hp hk hn hin h hz
  have hcap := outCap_le hp
  have hdw := dw_lt_outCap hp z
  obtain ⟨t, ht, e⟩ := ctxPush_third rfl rfl hp hn (by omega) 0#6
  have hlen := appended_outLen ht (by simp only [List.length_cons, List.length_nil]; omega)
  obtain ⟨ht, hnew, hold⟩ := ht
  have hparams : t.params = s.params := by rw [ht]
  refine ⟨{ withCtx (s.ctxBuf.set 2 0#6) 0#3 0#3 t with status := .complete, sizeIdx := BitVec.ofNat 8 z }, ?_, ?_,
    hnew 0 Nat.two_pos, hnew 1 Nat.one_lt_two, fun a ha => hold a (.inl ha)⟩
  · rw [ctxPartial_shiftPad hk hn h hz, e, andThen_go]
    refine complete_filled ?_ ?_
    · exact hlen.trans (hz.symm.trans (by rw [← hparams]; rfl))
    · rw [ht]
      exact hin
  · rw [ht]
    rfl

/-- Settles O47: with the input exhausted it ends by the size found, with nothing more where the output fills it. -/
theorem ctxCompletion : Obligations.CtxCompletion := by
  intro s
  refine ⟨ctxComplete_left, fun hp hs hin hv => ⟨ctxComplete_none hin, fun z h hz => ?_, fun z h hz => ?_⟩⟩
  · rw [ctxComplete_some hin h, if_pos hz]
    exact complete_filled hz.symm hin
  · obtain ⟨m, e, hm⟩ := ctxUnlatch_pad_completes hp hs hv hin (Nat.lt_of_le_of_ne (le_dw_of_find h) (Ne.symm hz))
    rw [ctxComplete_some hin h, if_neg hz, e]
    exact ⟨_, rfl, rfl, hm⟩

end Sys2Proof.Machine
end

section
/-! PROOFS. The CTX values of a byte (spec R150 to R158): the rows of the tables; the first values of a character say how many it has and
which byte it is, so the values are in range and the stream reads back in one way. -/

namespace Sys2Proof.Machine

/-! ### The rows of the tables (R152 to R156) -/

/-- The letters of C40 and of Text; X12 has no shifts and is not asked for any. -/
def lettersOf : CtxSet → Nat → List CtxValue
  | .text => expandTextLetter
  | .c40 | .x12 => expandC40Letter

theorem expand_shifts {k : CtxSet} (hk : k ≠ .x12) (b : Byte) : expand k b = .ok (expandExtended (lettersOf k) b.toNat) := by
  cases k with
  | c40 => rfl
  | text => rfl
  | x12 => exact absurd rfl hk

theorem expand_basic {k : CtxSet} {b : Byte} (hk : k ≠ .x12) (h : b.toNat ≤ 127) :
    expand k b = .ok (expandShifted (lettersOf k) b.toNat) := by
  rw [expand_shifts hk, expandExtended, if_pos h]

theorem expand_extended {k : CtxSet} {b : Byte} (hk : k ≠ .x12) (h : 128 ≤ b.toNat) :
    expand k b = .ok ([1#6, 30#6] ++ expandShifted (lettersOf k) (b.toNat - 128)) := by
  rw [expand_shifts hk, expandExtended, if_neg (by omega)]
  rfl

theorem expand_x12 {b : Byte} (h : b.toNat ≤ 127) : expand .x12 b = expandX12 b.toNat := if_pos h

theorem expand_x12_extended {b : Byte} (h : 128 ≤ b.toNat) : expand .x12 b = .error .x12Extended := if_neg (by omega)

section
variable {letter : Nat → List CtxValue} {n : Nat}

theorem expandShifted_control (h : n ≤ 31) : expandShifted letter n = [ctxValue 0, ctxValue n] := if_pos h

theorem expandShifted_space : expandShifted letter 32 = [ctxValue 3] := rfl

theorem expandShifted_punctuation (h : 33 ≤ n ∧ n ≤ 47) : expandShifted letter n = [ctxValue 1, ctxValue (n - 33)] := by
  rw [expandShifted, if_neg (by omega), if_neg (by omega), if_pos h.2]

theorem expandShifted_digit (h : 48 ≤ n ∧ n ≤ 57) : expandShifted letter n = [ctxValue (n - 44)] := by
  rw [expandShifted, if_neg (by omega), if_neg (by omega), if_neg (by omega), if_pos h.2]

theorem expandShifted_symbol (h : 58 ≤ n ∧ n ≤ 64) : expandShifted letter n = [ctxValue 1, ctxValue (n - 43)] := by
  rw [expandShifted, if_neg (by omega), if_neg (by omega), if_neg (by omega), if_neg (by omega), if_pos h.2]

theorem expandShifted_letter (h : 65 ≤ n) : expandShifted letter n = letter n := by
  rw [expandShifted, if_neg (by omega), if_neg (by omega), if_neg (by omega), if_neg (by omega), if_neg (by omega)]

theorem expandC40Letter_capital (h : n ≤ 90) : expandC40Letter n = [ctxValue (n - 51)] := if_pos h

theorem expandC40Letter_symbol (h : 91 ≤ n ∧ n ≤ 95) : expandC40Letter n = [ctxValue 1, ctxValue (n - 69)] := by
  rw [expandC40Letter, if_neg (by omega), if_pos h.2]

theorem expandC40Letter_small (h : 96 ≤ n) : expandC40Letter n = [ctxValue 2, ctxValue (n - 96)] := by
  rw [expandC40Letter, if_neg (by omega), if_neg (by omega)]

theorem expandTextLetter_capital (h : n ≤ 90) : expandTextLetter n = [ctxValue 2, ctxValue (n - 64)] := if_pos h

theorem expandTextLetter_symbol (h : 91 ≤ n ∧ n ≤ 95) : expandTextLetter n = [ctxValue 1, ctxValue (n - 69)] := by
  rw [expandTextLetter, if_neg (by omega), if_pos h.2]

theorem expandTextLetter_backquote : expandTextLetter 96 = [ctxValue 2, ctxValue 0] := rfl

theorem expandTextLetter_small (h : 97 ≤ n ∧ n ≤ 122) : expandTextLetter n = [ctxValue (n - 83)] := by
  rw [expandTextLetter, if_neg (by omega), if_neg (by omega), if_neg (by omega), if_pos h.2]

theorem expandTextLetter_high (h : 123 ≤ n) : expandTextLetter n = [ctxValue 2, ctxValue (n - 96)] := by
  rw [expandTextLetter, if_neg (by omega), if_neg (by omega), if_neg (by omega), if_neg (by omega)]

end

theorem lettersOf_symbol (k : CtxSet) {n : Nat} (h : 91 ≤ n ∧ n ≤ 95) : lettersOf k n = [ctxValue 1, ctxValue (n - 69)] := by
  cases k with
  | c40 => exact expandC40Letter_symbol h
  | text => exact expandTextLetter_symbol h
  | x12 => exact expandC40Letter_symbol h

theorem expand_c40_letter {b : Byte} (h : 65 ≤ b.toNat ∧ b.toNat ≤ 127) : expand .c40 b = .ok (expandC40Letter b.toNat) := by
  rw [expand_basic (by decide) h.2, expandShifted_letter h.1]; rfl

theorem expand_text_letter {b : Byte} (h : 65 ≤ b.toNat ∧ b.toNat ≤ 127) : expand .text b = .ok (expandTextLetter b.toNat) := by
  rw [expand_basic (by decide) h.2, expandShifted_letter h.1]; rfl

theorem ctxValue_toNat {n : Nat} (h : n < 64) : (ctxValue n).toNat = n := by
  rw [ctxValue, BitVec.toNat_ofNat]
  exact Nat.mod_eq_of_lt h

/-! ### Characters of C40 and Text read back (R151, R153 to R155) -/

/-- The byte one unshifted value stands for. -/
def plainByte (k : CtxSet) (v : Nat) : Nat :=
  if v = 3 then 32 else if v ≤ 13 then v + 44 else if k = .text then v + 83 else v + 51

/-- The byte a value stands for after a shift. -/
def shiftedByte (k : CtxSet) : Nat → Nat → Nat
  | 0, v => v
  | 1, v => if v ≤ 14 then v + 33 else if v ≤ 21 then v + 43 else v + 69
  | _, v => if k = .text ∧ 1 ≤ v ∧ v ≤ 26 then v + 64 else v + 96

/-- The values of a byte up to 127 in C40 or Text: one value above the shifts, or a shift and a value, which is not the 30 that Shift2
sets before an extended byte (R156). -/
inductive Spells (k : CtxSet) (n : Nat) : List CtxValue → Prop
  | plain {v : CtxValue} (hlow : 3 ≤ v.toNat) (hhigh : v.toNat ≤ 39) (hbyte : plainByte k v.toNat = n) : Spells k n [v]
  | shifted {shift v : CtxValue} (hshift : shift.toNat ≤ 2) (hhigh : v.toNat ≤ 39) (hbasic : ¬ (shift = 1#6 ∧ v = 30#6))
    (hbyte : shiftedByte k shift.toNat v.toNat = n) : Spells k n [shift, v]

section
variable {k : CtxSet} {n : Nat}

theorem Spells.of_plain {v : Nat} (hv : 3 ≤ v ∧ v ≤ 39) (hbyte : plainByte k v = n) : Spells k n [ctxValue v] := by
  have hval : (ctxValue v).toNat = v := ctxValue_toNat (by omega)
  exact .plain (by omega) (by omega) (by rw [hval, hbyte])

theorem Spells.of_shifted {shift v : Nat} (hshift : shift ≤ 2) (hv : v ≤ 39) (hbasic : shift = 1 → v ≠ 30)
    (hbyte : shiftedByte k shift v = n) : Spells k n [ctxValue shift, ctxValue v] := by
  have hs : (ctxValue shift).toNat = shift := ctxValue_toNat (by omega)
  have hval : (ctxValue v).toNat = v := ctxValue_toNat (by omega)
  refine .shifted (by omega) (by omega) (fun ⟨h1, h30⟩ => hbasic ?_ ?_) (by rw [hs, hval, hbyte])
  · rw [← hs, h1]; rfl
  · rw [← hval, h30]; rfl

theorem expandC40Letter_spells (h : 65 ≤ n ∧ n ≤ 127) : Spells .c40 n (expandC40Letter n) := by
  obtain hn | hn | hn : n ≤ 90 ∨ (91 ≤ n ∧ n ≤ 95) ∨ 96 ≤ n := by omega
  · rw [expandC40Letter_capital hn]
    exact .of_plain (by omega) (by simp only [plainByte, reduceCtorEq, if_false]; split_ifs <;> omega)
  · rw [expandC40Letter_symbol hn]
    exact .of_shifted (by omega) (by omega) (by omega) (by simp only [shiftedByte]; split_ifs <;> omega)
  · rw [expandC40Letter_small hn]
    exact .of_shifted (by omega) (by omega) (by omega) (by simp only [shiftedByte, reduceCtorEq, false_and, if_false]; omega)

theorem expandTextLetter_spells (h : 65 ≤ n ∧ n ≤ 127) : Spells .text n (expandTextLetter n) := by
  obtain hn | hn | rfl | hn | hn : n ≤ 90 ∨ (91 ≤ n ∧ n ≤ 95) ∨ n = 96 ∨ (97 ≤ n ∧ n ≤ 122) ∨ 123 ≤ n := by omega
  · rw [expandTextLetter_capital hn]
    exact .of_shifted (by omega) (by omega) (by omega) (by simp only [shiftedByte, true_and]; split_ifs <;> omega)
  · rw [expandTextLetter_symbol hn]
    exact .of_shifted (by omega) (by omega) (by omega) (by simp only [shiftedByte]; split_ifs <;> omega)
  · exact .of_shifted (by omega) (by omega) (by omega) rfl
  · rw [expandTextLetter_small hn]
    exact .of_plain (by omega) (by simp only [plainByte, if_true]; split_ifs <;> omega)
  · rw [expandTextLetter_high hn]
    exact .of_shifted (by omega) (by omega) (by omega) (by simp only [shiftedByte, true_and]; split_ifs <;> omega)

/-- What a byte up to 127 expands to spells it. -/
theorem expandShifted_spells (hk : k ≠ .x12) (h : n ≤ 127) : Spells k n (expandShifted (lettersOf k) n) := by
  obtain hn | rfl | hn | hn | hn | hn :
      n ≤ 31 ∨ n = 32 ∨ (33 ≤ n ∧ n ≤ 47) ∨ (48 ≤ n ∧ n ≤ 57) ∨ (58 ≤ n ∧ n ≤ 64) ∨ 65 ≤ n := by
    omega
  · rw [expandShifted_control hn]
    exact .of_shifted (by omega) (by omega) (by omega) rfl
  · exact .of_plain (by omega) rfl
  · rw [expandShifted_punctuation hn]
    exact .of_shifted (by omega) (by omega) (by omega) (by simp only [shiftedByte]; split_ifs <;> omega)
  · rw [expandShifted_digit hn]
    exact .of_plain (by omega) (by unfold plainByte; split_ifs <;> omega)
  · rw [expandShifted_symbol hn]
    exact .of_shifted (by omega) (by omega) (by omega) (by simp only [shiftedByte]; split_ifs <;> omega)
  · rw [expandShifted_letter hn]
    cases k with
    | c40 => exact expandC40Letter_spells ⟨hn, h⟩
    | text => exact expandTextLetter_spells ⟨hn, h⟩
    | x12 => exact absurd rfl hk

theorem Spells.bounds {vals : List CtxValue} (h : Spells k n vals) :
    1 ≤ vals.length ∧ vals.length ≤ 2 ∧ ∀ v ∈ vals, v.toNat ≤ 39 := by
  cases h with
  | plain hlow hhigh hbyte => simpa using hhigh
  | shifted hshift hhigh hbasic hbyte => simpa using ⟨Nat.le_trans hshift (by decide), hhigh⟩

/-- A character's first value says whether it is a shift, so its values begin no other character's. -/
theorem Spells.unique {n' : Nat} {vals more : List CtxValue} (h : Spells k n vals) (h' : Spells k n' (vals ++ more)) :
    n = n' ∧ more = [] := by
  generalize e : vals ++ more = vals' at h'
  cases h with
  | plain hlow hhigh hbyte =>
    cases h' with
    | plain hlow' hhigh' hbyte' =>
      obtain ⟨rfl, rfl⟩ := List.cons.inj e
      exact ⟨hbyte.symm.trans hbyte', rfl⟩
    | shifted hshift' hhigh' hbasic' hbyte' =>
      obtain ⟨rfl, -⟩ := List.cons.inj e
      omega
  | shifted hshift hhigh hbasic hbyte =>
    cases h' with
    | plain hlow' hhigh' hbyte' => cases (List.cons.inj e).2
    | shifted hshift' hhigh' hbasic' hbyte' =>
      obtain ⟨rfl, etail⟩ := List.cons.inj e
      obtain ⟨rfl, rfl⟩ := List.cons.inj etail
      exact ⟨hbyte.symm.trans hbyte', rfl⟩

/-- No character up to 127 begins like an extended byte, nor the other way round (R156). -/
theorem Spells.not_extended {vals more rest : List CtxValue} (h : Spells k n vals) : vals ++ more ≠ [1#6, 30#6] ++ rest := by
  intro e
  cases h with
  | plain hlow hhigh hbyte =>
    obtain ⟨rfl, -⟩ := List.cons.inj e
    exact absurd hlow (by decide)
  | shifted hshift hhigh hbasic hbyte =>
    obtain ⟨rfl, etail⟩ := List.cons.inj e
    obtain ⟨rfl, -⟩ := List.cons.inj etail
    exact hbasic ⟨rfl, rfl⟩

end

/-! ### Characters of X12 (R152, R157) -/

/-- The bytes X12 has a character for. -/
def IsX12Byte (n : Nat) : Prop := n ∈ [13, 42, 62, 32] ∨ (48 ≤ n ∧ n ≤ 57) ∨ (65 ≤ n ∧ n ≤ 90)

/-- The byte an X12 value stands for. -/
def x12Byte (v : Nat) : Nat := if v = 0 then 13 else if v = 1 then 42 else if v = 2 then 62 else plainByte .x12 v

theorem expandX12_digit {n : Nat} (h : 48 ≤ n ∧ n ≤ 57) : expandX12 n = .ok [ctxValue (n - 44)] := by
  rw [expandX12, if_neg (by omega), if_neg (by omega), if_neg (by omega), if_neg (by omega), if_pos h]

theorem expandX12_letter {n : Nat} (h : 65 ≤ n ∧ n ≤ 90) : expandX12 n = .ok [ctxValue (n - 51)] := by
  rw [expandX12, if_neg (by omega), if_neg (by omega), if_neg (by omega), if_neg (by omega), if_neg (by omega), if_pos h]

/-- A character of X12 is one value, which reads back. -/
theorem expandX12_char {n : Nat} (h : IsX12Byte n) : ∃ v, expandX12 n = .ok [v] ∧ v.toNat ≤ 39 ∧ x12Byte v.toNat = n := by
  obtain h | h | h := h
  · simp only [List.mem_cons, List.not_mem_nil, or_false] at h
    obtain rfl | rfl | rfl | rfl := h <;> exact ⟨_, rfl, by decide, rfl⟩
  · have hv : (ctxValue (n - 44)).toNat = n - 44 := ctxValue_toNat (by omega)
    exact ⟨_, expandX12_digit h, by omega, by rw [hv]; simp only [x12Byte, plainByte]; split_ifs <;> omega⟩
  · have hv : (ctxValue (n - 51)).toNat = n - 51 := ctxValue_toNat (by omega)
    refine ⟨_, expandX12_letter h, by omega, ?_⟩
    rw [hv]
    simp only [x12Byte, plainByte, reduceCtorEq, if_false]
    split_ifs <;> omega

theorem expandX12_noChar {n : Nat} (h : ¬ IsX12Byte n) : expandX12 n = .error .x12Char := by
  simp only [IsX12Byte, List.mem_cons, List.not_mem_nil, or_false, not_or] at h
  obtain ⟨⟨h13, h42, h62, h32⟩, hdigit, hletter⟩ := h
  rw [expandX12, if_neg h13, if_neg h42, if_neg h62, if_neg h32, if_neg hdigit, if_neg hletter]

theorem isX12Byte_iff {b : Byte} : IsX12Byte b.toNat ↔
    b ∈ [13#8, 42#8, 62#8, 32#8] ∨ (48 ≤ b.toNat ∧ b.toNat ≤ 57) ∨ (65 ≤ b.toNat ∧ b.toNat ≤ 90) := by
  simp only [IsX12Byte, List.mem_cons, List.not_mem_nil, or_false, ← BitVec.toNat_inj]
  rfl

/-! ### What EXPAND answers (R150, R157) -/

section
variable {k : CtxSet} {b : Byte} {vals : List CtxValue}

theorem expand_x12_ok (h : expand .x12 b = .ok vals) :
    IsX12Byte b.toNat ∧ ∃ v, vals = [v] ∧ v.toNat ≤ 39 ∧ x12Byte v.toNat = b.toNat := by
  obtain hb | hb : b.toNat ≤ 127 ∨ 128 ≤ b.toNat := by omega
  · rw [expand_x12 hb] at h
    by_cases hx : IsX12Byte b.toNat
    · obtain ⟨v, e, hv⟩ := expandX12_char hx
      exact ⟨hx, v, Except.ok.inj (h.symm.trans e), hv⟩
    · rw [expandX12_noChar hx] at h
      cases h
  · rw [expand_x12_extended hb] at h
    cases h

/-- In C40 and Text the values spell the byte, or are Shift2, 30 and those of the byte less 128 (R156). -/
theorem expand_shifts_ok (hk : k ≠ .x12) (h : expand k b = .ok vals) : Spells k b.toNat vals ∨
    ∃ rest, vals = [1#6, 30#6] ++ rest ∧ 128 ≤ b.toNat ∧ Spells k (b.toNat - 128) rest := by
  have hlt := b.isLt
  obtain hb | hb : b.toNat ≤ 127 ∨ 128 ≤ b.toNat := by omega
  · rw [expand_basic hk hb] at h
    cases h
    exact .inl (expandShifted_spells hk hb)
  · rw [expand_extended hk hb] at h
    cases h
    exact .inr ⟨_, rfl, hb, expandShifted_spells hk (by omega)⟩

theorem expand_ok (h : expand k b = .ok vals) : 1 ≤ vals.length ∧ vals.length ≤ 4 ∧ (∀ v ∈ vals, v.toNat ≤ 39) ∧
    (k = .x12 → vals.length = 1 ∧ IsX12Byte b.toNat) := by
  by_cases hk : k = .x12
  · subst hk
    obtain ⟨hx, v, rfl, hv, -⟩ := expand_x12_ok h
    exact ⟨Nat.le_refl 1, Nat.le_add_left 1 3, List.forall_mem_singleton.2 hv, fun _ => ⟨rfl, hx⟩⟩
  · obtain hspells | ⟨rest, rfl, -, hspells⟩ := expand_shifts_ok hk h <;> obtain ⟨hpos, hlen, hval⟩ := hspells.bounds
    · exact ⟨hpos, Nat.le_trans hlen (by decide), hval, fun e => absurd e hk⟩
    · refine ⟨?_, ?_, List.forall_mem_append.2 ⟨by decide, hval⟩, fun e => absurd e hk⟩ <;>
        simp only [List.length_append, List.length_cons, List.length_nil] <;> omega

theorem expand_error_reason {r : Reason} (h : expand k b = .error r) :
    k = .x12 ∧ (r = .x12Extended ∧ 128 ≤ b.toNat ∨ r = .x12Char ∧ b.toNat ≤ 127 ∧ ¬ IsX12Byte b.toNat) := by
  by_cases hk : k = .x12
  · subst hk
    refine ⟨rfl, ?_⟩
    obtain hb | hb : b.toNat ≤ 127 ∨ 128 ≤ b.toNat := by omega
    · rw [expand_x12 hb] at h
      by_cases hx : IsX12Byte b.toNat
      · obtain ⟨v, e, -⟩ := expandX12_char hx
        cases h.symm.trans e
      · rw [expandX12_noChar hx] at h
        cases h
        exact .inr ⟨rfl, hb, hx⟩
    · rw [expand_x12_extended hb] at h
      cases h
      exact .inl ⟨rfl, hb⟩
  · rw [expand_shifts hk] at h
    cases h

end

/-! ### The obligations -/

/-- Settles O39: in X12 every character is one value; in C40 and Text its first values say whether it is extended and whether shifted. -/
theorem expandIsUniquelyReadable : Obligations.ExpandIsUniquelyReadable := by
  intro k b b' vals more h h'
  by_cases hk : k = .x12
  · subst hk
    obtain ⟨-, v, rfl, -, hbyte⟩ := expand_x12_ok h
    obtain ⟨-, v', e, -, hbyte'⟩ := expand_x12_ok h'
    obtain ⟨rfl, rfl⟩ := List.cons.inj e
    exact ⟨BitVec.eq_of_toNat_eq (hbyte.symm.trans hbyte'), rfl⟩
  · obtain hs | ⟨rest, rfl, hb, hs⟩ := expand_shifts_ok hk h <;> obtain hs' | ⟨rest', e, hb', hs'⟩ := expand_shifts_ok hk h'
    · obtain ⟨hbyte, hmore⟩ := hs.unique hs'
      exact ⟨BitVec.eq_of_toNat_eq hbyte, hmore⟩
    · exact absurd e hs.not_extended
    · exact absurd ((List.append_nil _).trans (List.append_assoc ..)) hs'.not_extended
    · rw [List.append_assoc] at e
      obtain rfl := List.append_cancel_left e
      obtain ⟨hbyte, hmore⟩ := hs.unique hs'
      exact ⟨BitVec.eq_of_toNat_eq (by omega), hmore⟩

/-- Settles O38: the values have the shape of the characters they spell, and the rows are those of the tables. -/
theorem expandShape : Obligations.ExpandShape := by
  refine ⟨fun k b => ?_, ⟨rfl, rfl, rfl, rfl⟩, fun b => ⟨fun h1 h2 => ?_, fun h1 h2 => ?_⟩,
    fun k b hk => ⟨fun h => ?_, fun h => ?_, fun h1 h2 => ?_, fun h1 h2 => ?_, fun h1 h2 => ?_, fun h1 h2 => ?_, fun h => ?_⟩,
    fun b => ⟨fun h1 h2 => ⟨?_, ?_⟩, fun h1 h2 => ?_, fun h => ?_, fun h1 h2 => ?_, fun h1 h2 => ?_⟩⟩
  · split
    next vals h =>
      rw [← isX12Byte_iff]
      exact expand_ok h
    next r h =>
      simp only [← not_or, ← isX12Byte_iff]
      exact expand_error_reason h
  · rw [expand_x12 (by omega), expandX12_digit ⟨h1, h2⟩]; rfl
  · rw [expand_x12 (by omega), expandX12_letter ⟨h1, h2⟩]; rfl
  · rw [expand_basic hk (by omega), expandShifted_control h]; rfl
  · rw [expand_basic hk (by omega), h, expandShifted_space]; rfl
  · rw [expand_basic hk (by omega), expandShifted_punctuation ⟨h1, h2⟩]; rfl
  · rw [expand_basic hk (by omega), expandShifted_digit ⟨h1, h2⟩]; rfl
  · rw [expand_basic hk (by omega), expandShifted_symbol ⟨h1, h2⟩]; rfl
  · rw [expand_basic hk (by omega), expandShifted_letter (by omega), lettersOf_symbol k ⟨h1, h2⟩]; rfl
  · have hsub : (b - 128#8).toNat = b.toNat - 128 := BitVec.toNat_sub_of_le h
    have hlt := b.isLt
    exact ⟨_, expand_basic hk (by omega), by rw [expand_extended hk h, hsub]⟩
  · rw [expand_c40_letter ⟨h1, by omega⟩, expandC40Letter_capital h2]; rfl
  · rw [expand_text_letter ⟨h1, by omega⟩, expandTextLetter_capital h2]; rfl
  · rw [expand_c40_letter ⟨by omega, h2⟩, expandC40Letter_small h1]; rfl
  · rw [expand_text_letter (by omega), h, expandTextLetter_backquote]; rfl
  · rw [expand_text_letter (by omega), expandTextLetter_small ⟨h1, h2⟩]; rfl
  · rw [expand_text_letter (by omega), expandTextLetter_high h1]; rfl

end Sys2Proof.Machine
end

section
/-! PROOFS. The EDIFACT chunk and exact end (spec R191, R194, R197): a chunk checks the range of the byte under the cursor before it packs
it, and with no input left the ASCII tail of the end test is empty. -/

namespace Sys2Proof.Machine

section
variable {s : State}

/-! ### One chunk (R191, R194) -/

theorem ediValid_iff {p : Config.Params} {b : Byte} : ediValid p b = true ↔ p.ediLo ≤ b.toNat ∧ b.toNat ≤ 94 := by
  rw [ediValid, Bool.and_eq_true, decide_eq_true_iff, decide_eq_true_iff]

theorem ediValue_eq_low_bits (b : Byte) : ediValue b = BitVec.ofNat 6 (b.toNat % 64) :=
  BitVec.eq_of_toNat_eq (by rw [ediValue, BitVec.toNat_setWidth, BitVec.toNat_ofNat, Nat.mod_mod])

theorem ediChunk_done (h : s.inNext = s.inLen) : ediChunk s = .go s := if_pos h

theorem ediChunk_invalid (hleft : s.inNext ≠ s.inLen)
    (hb : ¬ (s.params.ediLo ≤ (readIn s s.inNext.toNat).toNat ∧ (readIn s s.inNext.toNat).toNat ≤ 94)) :
    ediChunk s = .ended { s with status := .invalid, reason := .edifactChar } := by
  rw [← ediValid_iff] at hb
  rw [ediChunk, if_neg hleft]
  exact if_neg hb

/-- A valid byte is packed, and only behind that the cursor moves. -/
theorem ediChunk_valid (hleft : s.inNext ≠ s.inLen)
    (hb : s.params.ediLo ≤ (readIn s s.inNext.toNat).toNat ∧ (readIn s s.inNext.toNat).toNat ≤ 94) :
    ediChunk s = (ediPack (BitVec.ofNat 6 ((readIn s s.inNext.toNat).toNat % 64)) s).andThen fun t =>
      .go { t with inNext := t.inNext + 1#16 } := by
  rw [← ediValid_iff] at hb
  rw [ediChunk, if_neg hleft, ← ediValue_eq_low_bits]
  exact if_pos hb

/-! ### The exact end (R197) -/

theorem remainingInput_done (h : s.inNext = s.inLen) : remainingInput s = [] := by
  rw [remainingInput, h, Nat.sub_self, inputFrom]

/-- A full symbol with no input left is the implicit end with an empty tail. -/
theorem endsInAscii_of_full {z : Nat} (hphase : s.chainValues.toNat % 4 = 0) (hin : s.inNext = s.inLen)
    (hfind : findSize s s.outLen.toNat = some z) (hfull : dw s.params z = s.outLen.toNat) : EndsInAscii s z := by
  rw [EndsInAscii, remainingInput_done hin]
  exact ⟨hphase, Nat.zero_le 2, hfind, by omega⟩

/-- The implicit end with an empty tail in a full symbol is only the completion. -/
theorem ediEnd_exact {z : Nat} (hz : EndsInAscii s z) (hin : s.inNext = s.inLen) (hfull : dw s.params z = s.outLen.toNat) :
    ediEnd s = complete z s := by
  rw [ediEnd, ediImplicitEnd_of_endsInAscii (by rw [hin]) hz, remainingInput_done hin]
  exact if_pos ⟨rfl, hfull⟩

end

/-! ### The obligations -/

/-- Settles O49: the cases of the range check; for a valid byte, those of the pack before the cursor moves. -/
theorem edifactChunkJudgesItsByte : Obligations.EdifactChunkJudgesItsByte := by
  refine fun s => ⟨ediChunk_done, fun hlt => ?_⟩
  have hleft : s.inNext ≠ s.inLen := fun e => Nat.ne_of_lt hlt (congrArg BitVec.toNat e)
  refine ⟨fun hout => ediChunk_invalid hleft (by omega), fun hlo hhi => ?_⟩
  rw [ediChunk_valid hleft ⟨hlo, hhi⟩]
  constructor <;> intro t e <;> rw [e]
  · exact andThen_go ..
  · exact andThen_ended ..

/-- Settles O51: the exact end is the implicit end with nothing to append, and a full symbol completes. -/
theorem edifactExactEnd : Obligations.EdifactExactEnd := by
  intro s z _ hphase hin hfind hfull
  rw [ediEnd_exact (endsInAscii_of_full hphase hin hfind hfull) hin hfull]
  exact complete_filled hfull.symm hin

end Sys2Proof.Machine
end

section
/-! PROOFS. The Base256 header growth, the exact-fit collapse and the completion (spec R225 to R231): what the collapsed output holds, and
the implicit end in a symbol that is found or not. -/

namespace Sys2Proof.Machine

section
variable {s : State}

/-! ### The exact-fit collapse (R229) -/

/-- An output collapsed as by `readOut_collapsed` has header nominal 0, the payload's nominal values one index lower, and the other
codewords of before. -/
theorem nominal_of_collapsed {t : State} {i : Nat} (hi : i + 1 < s.outLen.toNat) (hread : ∀ a, readOut t a =
      if a = i then rand255 0#8 (i + 1)
      else if i < a ∧ a + 1 < s.outLen.toNat then moveCodeword (readOut s (a + 1)) (a + 2) (a + 1)
      else readOut s a) :
    nominal t i = 0#8 ∧ (∀ j, i + 2 ≤ j → j < s.outLen.toNat → nominal t (j - 1) = nominal s j) ∧
      ∀ a, (a < i ∨ s.outLen.toNat ≤ a + 1) → readOut t a = readOut s a := by
  refine ⟨nominal_of_readOut ((hread i).trans (if_pos rfl)), fun j hj hj' => ?_, fun a ha => (hread a).trans ?_⟩
  · obtain ⟨k, rfl⟩ := Nat.exists_eq_add_of_le' (show 1 ≤ j by omega)
    refine nominal_of_moved ((hread k).trans ?_)
    rw [if_neg (by omega), if_pos (by omega)]
    rfl
  · rw [if_neg (by omega), if_neg (by omega)]

/-! ### The completion without an exact fit (R231) -/

theorem headerLength_eq_two_iff : headerLength s = 2 ↔ s.chainWords.toNat = s.chainValues.toNat + 2 := by
  rw [headerLength]
  omega

theorem b256ExactSize_none (h : s.chainWords.toNat ≠ s.chainValues.toNat + 2 ∨
    ∀ z, findSize s (s.outLen.toNat - 1) = some z → dw s.params z ≠ s.outLen.toNat - 1) : b256ExactSize s = none := by
  rw [b256ExactSize]
  rcases h with h | h
  · exact if_neg (mt headerLength_eq_two_iff.1 h)
  · rw [findExact_none h, ite_self]

theorem b256Complete_left (h : s.inNext.toNat < s.inLen.toNat) : b256Complete s = .go s := if_pos h

section
variable (hin : s.inNext = s.inLen) (hexact : b256ExactSize s = none)
include hin hexact

theorem b256Complete_noSize (h : findSize s s.outLen.toNat = none) :
    b256Complete s = .ended { s with status := .invalid, reason := .sizeUndefined } := by
  rw [b256Complete, if_neg (by rw [hin]; exact Nat.lt_irrefl _), hexact, h]
  rfl

/-- In a symbol that is found, the common end of an Ascii chain follows the implicit change, which emits nothing (R115). -/
theorem b256Complete_implicit {z : Nat} (h : findSize s s.outLen.toNat = some z) :
    b256Complete s = finishSized { s with scheme := .ascii, chainWords := 0#16, chainValues := 0#16 } := by
  have hfind : findSize { s with scheme := .ascii, chainWords := 0#16, chainValues := 0#16 } s.outLen.toNat = some z := h
  rw [b256Complete, if_neg (by rw [hin]; exact Nat.lt_irrefl _), hexact, h, finishSized, hfind]
  rfl

end

end

/-! ### The obligations -/

/-- Settles O53: the slot opened after the first header byte moves the payload, and both header bytes are those of the length. -/
theorem headerGrowsKeepingThePayload : Obligations.HeaderGrowsKeepingThePayload := by
  intro s hp hroom hw hwv h250 h1749
  have hcap := outCap_le hp
  have hidx : headerIndex s = s.outLen.toNat - s.chainWords.toNat := rfl
  have hone : headerLength s = 1 := by
    rw [headerLength]
    omega
  obtain ⟨m, e, hm⟩ := b256UpdateNormal_grow rfl hone rfl h250 (by omega) (by omega) (by omega) (Nat.ne_of_lt hroom)
  refine ⟨_, e, rfl, ?_, ?_, fun j hj hj' => nominal_of_moved ((hm _).trans ?_), fun a ha => (hm a).trans ?_⟩
  · have hhigh := nominal_of_readOut ((hm _).trans (if_pos rfl))
    exact (congrArg BitVec.toNat hhigh).trans (headerHigh_toNat (by omega))
  · have hlow := nominal_of_readOut ((hm (headerIndex s + 1)).trans ((if_neg (Nat.succ_ne_self _)).trans (if_pos rfl)))
    exact (congrArg BitVec.toNat hlow).trans (headerLow_toNat _)
  · rw [if_neg (by omega), if_neg (by omega), if_pos (by omega)]
    rfl
  · rw [if_neg (by omega), if_neg (by omega), if_neg (by omega)]

/-- Settles O54: the collapse takes the second header byte out, which moves the payload, and sets the first to nominal 0. -/
theorem exactFitKeepsThePayload : Obligations.ExactFitKeepsThePayload := by
  intro s z _ _ hw hwv hz
  have hidx : headerIndex s + 1 < s.outLen.toNat := by
    rw [headerIndex]
    omega
  have hlen : (s.outLen - 1#16).toNat = dw s.params z := by
    rw [outLen_pred (by omega)]
    omega
  rw [b256UpdatePerfect_fits rfl (headerLength_eq_two_iff.2 hwv) hlen]
  exact ⟨_, rfl, by rw [b256ShiftDown_frame]; rfl, nominal_of_collapsed hidx (readOut_collapsed hidx _)⟩

/-- Settles O57: at the exact fit the collapse completes the encode; otherwise no size ends it, and a size is filled as the end
of an Ascii chain. -/
theorem base256Completion : Obligations.Base256Completion := by
  intro s
  refine ⟨b256Complete_left, fun hp _ hin hw => ⟨fun z hwv hfind hz => ?_, fun hnot => ?_⟩⟩
  · have hidx : headerIndex s + 1 < s.outLen.toNat := by
      rw [headerIndex]
      omega
    rw [b256Complete_exact (headerLength_eq_two_iff.2 hwv) hin (by omega) hfind hz]
    exact ⟨_, rfl, by rw [b256ShiftDown_frame]; rfl, nominal_of_collapsed hidx (readOut_collapsed hidx _)⟩
  · have hexact := b256ExactSize_none hnot
    refine ⟨b256Complete_noSize hin hexact, fun z hfind => ?_⟩
    obtain ⟨m, e, hpad, hold⟩ := finishSized_found
      (s := { s with scheme := .ascii, chainWords := 0#16, chainValues := 0#16 }) hp hin hfind
    rw [b256Complete_implicit hin hexact hfind, e]
    exact ⟨_, rfl, by simp only [BitVec.zero_add], hpad, fun a ha => hold a (.inl ha)⟩

end Sys2Proof.Machine
end

section
/-! PROOFS. The support functions (spec R250 to R259): the randomizers as numbers, and the symbol `find` chooses. -/

namespace Sys2Proof.Machine

/-! ### The randomizers (R250 to R252) -/

theorem rand253_toNat (v : Byte) (p : Nat) : (rand253 v p).toNat = (v.toNat + 149 * p % 253) % 254 + 1 := by
  rw [rand253, BitVec.toNat_ofNat]
  exact Nat.mod_eq_of_lt (by omega)

theorem rand255_toNat (v : Byte) (p : Nat) : (rand255 v p).toNat = (v.toNat + 149 * p % 255 + 1) % 256 := by
  rw [rand255, BitVec.toNat_ofNat]
  exact Nat.mod_mod _ _

/-! ### The symbol `find` chooses (R255) -/

section
variable {p : Config.Params} {n : Nat}

theorem find_auto : find p 0xFF#8 n = findAmong p n p.autoSet := if_pos rfl

theorem find_specific {h : BitVec 8} (hspec : h ≠ 0xFF#8) (hlt : h.toNat < p.nSizes) :
    find p h n = if n ≤ dw p h.toNat then some h.toNat else none := by
  rw [find, if_neg (show h ≠ Config.undefCode from hspec)]
  simp only [hlt, true_and]

theorem dw_lt_of_findAmong_none {l : List Nat} (h : findAmong p n l = none) : ∀ y ∈ l, dw p y < n := by
  induction l with
  | nil => exact fun _ hy => absurd hy List.not_mem_nil
  | cons x rest ih =>
    rw [findAmong] at h
    split at h
    next hrest =>
      split_ifs at h with hx
      exact List.forall_mem_cons.2 ⟨Nat.lt_of_not_le hx, ih hrest⟩
    next => split_ifs at h

/-- What is found in a list comes before every other index of it that holds the codewords: by size, then by index. -/
theorem findAmong_least {z : Nat} {l : List Nat} (h : findAmong p n l = some z) :
    ∀ y ∈ l, n ≤ dw p y → dw p z < dw p y ∨ (dw p z = dw p y ∧ z ≤ y) := by
  induction l generalizing z with
  | nil => cases h
  | cons x rest ih =>
    rw [findAmong] at h
    split at h
    next hrest =>
      split_ifs at h
      cases h
      have hnone := dw_lt_of_findAmong_none hrest
      exact List.forall_mem_cons.2 ⟨fun _ => .inr ⟨rfl, le_rfl⟩, fun y hy hfits => absurd hfits (Nat.not_le.2 (hnone y hy))⟩
    next t hrest =>
      have hleast := ih hrest
      split_ifs at h with hx
      · -- `x` comes before the best `t` of the rest, and so before every index of the rest
        cases h
        refine List.forall_mem_cons.2 ⟨fun _ => .inr ⟨rfl, le_rfl⟩, fun y hy hfits => ?_⟩
        have := hleast y hy hfits
        omega
      · cases h
        exact List.forall_mem_cons.2 ⟨fun _ => by omega, hleast⟩

end

/-! ### The obligations -/

/-- Settles O60: under Auto by induction over the allowed set, under a specific size by the definition. -/
theorem findIsTheSmallestAllowedSymbol : Obligations.FindIsTheSmallestAllowedSymbol := by
  intro p n
  rw [find_auto]
  exact ⟨fun z hz => ⟨mem_of_findAmong hz, le_dw_of_findAmong hz, findAmong_least hz⟩, dw_lt_of_findAmong_none,
    fun h => find_specific⟩

/-- Settles O58: a remainder by 254, plus 1. -/
theorem padRandomizerRange : Obligations.PadRandomizerRange := by
  intro v p
  rw [rand253_toNat]
  exact ⟨rfl, by omega, by omega⟩

/-- Settles O59: the formula, and the two inverse laws. -/
theorem base256RandomizerInverse : Obligations.Base256RandomizerInverse :=
  fun v c p => ⟨rand255_toNat v p, rand255_unrand255 c p, unrand255_rand255 v p⟩

end Sys2Proof.Machine
end

section
/-! PROOFS. Hardware reset and the writes of a busy block (spec R41, R42, R49, R300, R304): no place of the address map takes a write while
an encode runs. -/

namespace Sys2Proof.Machine

/-! ### Writes while an encode runs (R304) -/

theorem decodeHost_write {w : BitVec 49} (h : w.getLsbD 48 = true) :
    decodeHost w = decodeWrite (addressMap (w.extractLsb' 32 16)) (w.extractLsb' 0 32) := if_pos h

/-- A write of any place leaves a busy block as it is: the writable places wait for the encode to end (R102, R304), and the others
ignore every write (R49, R103). -/
theorem exec_decodeWrite_busy {s : State} (hs : s.status = .encoding) (p : Place) (d : Word) :
    exec (decodeWrite p d) s = .next s := by
  cases p with
  | ctrl =>
    rw [decodeWrite]
    split
    case isTrue => exact next_write_busy hs _
    case isFalse => rfl
  | target | hint | inLen | inMem _ => exact next_write_busy hs _
  | status | reason | sizeIdx | outLen | caps | nsizes | dbgCursor | dbgScheme | dbgChain | dbgCtx | outMem _ | unmapped _ => rfl

/-! ### The obligations -/

/-- Settles O12: a bus word with `W = 1` decodes to the write of its place, and no place takes a write during an encode. -/
theorem writesWhileEncodingAreIgnored : Obligations.WritesWhileEncodingAreIgnored := by
  intro s w rest hq hwrite hs
  rw [step_bus hq, decodeHost_write hwrite]
  exact exec_decodeWrite_busy (s := { s with queue := rest }) hs _ _

/-- Settles O6: the two resets differ only in the parameters, the draw and the host's fields; both leave the RAMs unwritten. -/
theorem hardwareResetValues : Obligations.HardwareResetValues := by
  intro s t h
  have hkept : t = hardReset s → t.params = s.params ∧ t.draw = s.draw + 1 := by
    rintro rfl
    exact ⟨hardReset_params s, hardReset_draw s⟩
  obtain rfl | rfl := h <;>
    exact ⟨rfl, rfl, rfl, rfl, rfl, rfl, rfl, rfl, rfl, rfl, rfl, rfl, rfl, rfl, rfl, fun _ => rfl, fun _ => rfl, hkept⟩

end Sys2Proof.Machine
end
